-- ==== Sys2Proof/Word.lean ====
section
/-! DEFINITION. The two word types of the block: a byte of the buffer and the serial bus (`WORD` = 8,
00_scope.md R6), and the 32-bit word of the host register port (20_memory.md R62). -/

namespace Sys2Proof

/-- One 8-bit bus word; one cell of `BUF` (10_state.md R37). -/
abbrev Byte := BitVec 8

/-- One 32-bit word of the host register port (20_memory.md R62). -/
abbrev Word := BitVec 32

end Sys2Proof
end

