-- ==== Sys2Proof/Syntax.lean ====
section
/-! DEFINITION. The 13 operations of the block (30_encoding.md R100), one constructor per row of the opcode map.
Table indices, lengths, offsets and bit widths are numbers (nothing in the spec reads their bits); the command byte is
a byte, because it is OR-ed with a flag; one-bit operands are Booleans. -/

namespace Sys2Proof

/-- One operation with its operand fields (R92 to R98). -/
inductive Instr
  /-- no operation (R92, 41_transaction.md R121) -/
  | nop
  /-- one transaction on `BUF[0..len-1]` with profile `prof` (R93, R122); `ib` is carried and not used (R124) -/
  | exec (prof : Nat) (ib : Bool) (len : Nat)
  /-- `VAL` to bytes at `off`, width `w` (R94, 42_codec.md R152) -/
  | pack (w off : Nat)
  /-- bytes at `off` to `VAL`, zero extended (R94, R154) -/
  | unpack (w off : Nat)
  /-- bytes at `off` to `VAL`, sign extended (R94, R156) -/
  | unpacks (w off : Nat)
  /-- sign extension of `VAL` (R94, R155) -/
  | sext (w : Nat)
  /-- physical quantity to encoding (R95, 43_convert.md R172) -/
  | uenc (conv : Nat)
  /-- encoding to physical quantity (R95, R175) -/
  | udec (conv : Nat)
  /-- set a device register (R96, 44_framing.md R192) -/
  | setp (prof reg : Nat)
  /-- get a device register (R96, R194) -/
  | getp (prof reg : Nat)
  /-- send a command (R97, R196) -/
  | cmd (prof : Nat) (cmdByte : Byte) (dir : Bool) (aw : Nat)
  /-- read the encoder (R98, 45_encoder.md R212); `r12` selects the 12-bit position -/
  | encrd (prof : Nat) (r12 : Bool)
  /-- check the two encoder bytes in the buffer (R98, R214) -/
  | encchk (r12 : Bool)
deriving DecidableEq, Repr

end Sys2Proof
end

