-- ==== Sys2Proof/WellFormed.lean ====
section
/-! DEFINITION. When an operation term fits its encoding: every operand within the raw range of its field
(30_encoding.md R99). Whether a raw value is LEGAL is not asked here: the block checks that at launch. -/

namespace Sys2Proof

/-- `prof`, `reg`, `conv` and `off` fields are 8 bits wide (R99). -/
def fitsIndex (n : Nat) : Bool := decide (n < 256)

/-- The `len` field is 9 bits wide (R99). -/
def fitsLength (n : Nat) : Bool := decide (n < 512)

/-- The `w` and `aw` fields are 6 bits wide (R99). -/
def fitsWidth (n : Nat) : Bool := decide (n < 64)

/-- The operand fields of `i` fit the raw ranges of R99. -/
def Instr.wf : Instr → Bool
  | .nop => true
  | .exec prof _ len => fitsIndex prof && fitsLength len
  | .pack w off => fitsWidth w && fitsIndex off
  | .unpack w off => fitsWidth w && fitsIndex off
  | .unpacks w off => fitsWidth w && fitsIndex off
  | .sext w => fitsWidth w
  | .uenc conv => fitsIndex conv
  | .udec conv => fitsIndex conv
  | .setp prof reg => fitsIndex prof && fitsIndex reg
  | .getp prof reg => fitsIndex prof && fitsIndex reg
  | .cmd prof _ _ aw => fitsIndex prof && fitsWidth aw
  | .encrd prof _ => fitsIndex prof
  | .encchk _ => true

end Sys2Proof
end

