-- ==== Sys2Proof/Decode.lean ====
section
/-! DEFINITION. The decoder of an operation word (30_encoding.md R91), total, refusing an illegal word by name (R101);
the encoder, written from the bit patterns of R92 to R98 and R100; and the host's numbering of a table word.
A word has no byte order (20_memory.md R61): it is written whole to `OP`. -/

namespace Sys2Proof

/-- Why a word matches no row of the opcode map (the cases R101 lists). All are `BADOP` to the block. -/
inductive IllegalWord
  /-- `opc` 7 to 15 -/
  | undefinedOpcode
  /-- a defined `opc` with an undefined `sub` -/
  | undefinedSub
  /-- a defined (`opc`, `sub`) with a reserved bit set -/
  | reservedBits
deriving DecidableEq, Repr

/-- One row of the opcode map R100: a word W encodes the operation iff `W & mask = pattern`. -/
structure OpcodeRow where
  mnemonic : String
  pattern : Word
  mask : Word
deriving DecidableEq, Repr

/-- `W & mask = match` (R91). -/
def OpcodeRow.hits (r : OpcodeRow) (w : Word) : Bool := w &&& r.mask == r.pattern

def rowNop : OpcodeRow := ⟨"NOP", 0x00000000, 0xFFFFFFFF⟩
def rowExec : OpcodeRow := ⟨"EXEC", 0x10000000, 0xFF00FC00⟩
def rowPack : OpcodeRow := ⟨"PACK", 0x20000000, 0xFFC0FF00⟩
def rowUnpack : OpcodeRow := ⟨"UNPACK", 0x21000000, 0xFFC0FF00⟩
def rowUnpacks : OpcodeRow := ⟨"UNPACKS", 0x22000000, 0xFFC0FF00⟩
def rowSext : OpcodeRow := ⟨"SEXT", 0x23000000, 0xFFC0FFFF⟩
def rowUenc : OpcodeRow := ⟨"UENC", 0x30000000, 0xFF00FFFF⟩
def rowUdec : OpcodeRow := ⟨"UDEC", 0x31000000, 0xFF00FFFF⟩
def rowSetp : OpcodeRow := ⟨"SETP", 0x40000000, 0xFF0000FF⟩
def rowGetp : OpcodeRow := ⟨"GETP", 0x41000000, 0xFF0000FF⟩
def rowCmd : OpcodeRow := ⟨"CMD", 0x50000000, 0xFF000040⟩
def rowEncrd : OpcodeRow := ⟨"ENCRD", 0x60000000, 0xFF00FFFE⟩
def rowEncchk : OpcodeRow := ⟨"ENCCHK", 0x61000000, 0xFFFFFFFE⟩

/-- The opcode map (R100). -/
def opcodeMap : List OpcodeRow :=
  [rowNop, rowExec, rowPack, rowUnpack, rowUnpacks, rowSext, rowUenc, rowUdec, rowSetp, rowGetp, rowCmd, rowEncrd,
    rowEncchk]

/-- The unsigned field of `n` bits whose lowest bit is bit `lo` (R99: no sign, no scale, no split). -/
def field (w : Word) (lo n : Nat) : Nat := (w.extractLsb' lo n).toNat

/-- Which of R101's cases an unmatched word is. -/
def illegalReason (w : Word) : IllegalWord :=
  let opc := field w 28 4
  let sub := field w 24 4
  if 7 ≤ opc then .undefinedOpcode
  else if (opc = 0 ∨ opc = 1 ∨ opc = 5) ∧ sub ≠ 0 then .undefinedSub
  else if opc = 2 ∧ 4 ≤ sub then .undefinedSub
  else if (opc = 3 ∨ opc = 4 ∨ opc = 6) ∧ 2 ≤ sub then .undefinedSub
  else .reservedBits

/-- R91: the row a word matches, with its operand fields; a word that matches none is illegal (R101). -/
def decode (w : Word) : Except IllegalWord Instr :=
  if rowNop.hits w then .ok .nop
  else if rowExec.hits w then .ok (.exec (field w 16 8) (w.getLsbD 9) (field w 0 9))
  else if rowPack.hits w then .ok (.pack (field w 16 6) (field w 0 8))
  else if rowUnpack.hits w then .ok (.unpack (field w 16 6) (field w 0 8))
  else if rowUnpacks.hits w then .ok (.unpacks (field w 16 6) (field w 0 8))
  else if rowSext.hits w then .ok (.sext (field w 16 6))
  else if rowUenc.hits w then .ok (.uenc (field w 16 8))
  else if rowUdec.hits w then .ok (.udec (field w 16 8))
  else if rowSetp.hits w then .ok (.setp (field w 16 8) (field w 8 8))
  else if rowGetp.hits w then .ok (.getp (field w 16 8) (field w 8 8))
  else if rowCmd.hits w then .ok (.cmd (field w 16 8) (w.extractLsb' 8 8) (w.getLsbD 7) (field w 0 6))
  else if rowEncrd.hits w then .ok (.encrd (field w 16 8) (w.getLsbD 0))
  else if rowEncchk.hits w then .ok (.encchk (w.getLsbD 0))
  else .error (illegalReason w)

/-- The operation word of an operation: the bit strings of R100, bit 31 first, operand fields as R92 to R98 place them. -/
def encode : Instr → Word
  | .nop => 0x00000000#32
  | .exec prof ib len => 0x10#8 ++ BitVec.ofNat 8 prof ++ 0#6 ++ BitVec.ofBool ib ++ BitVec.ofNat 9 len
  | .pack w off => 0x20#8 ++ 0#2 ++ BitVec.ofNat 6 w ++ 0#8 ++ BitVec.ofNat 8 off
  | .unpack w off => 0x21#8 ++ 0#2 ++ BitVec.ofNat 6 w ++ 0#8 ++ BitVec.ofNat 8 off
  | .unpacks w off => 0x22#8 ++ 0#2 ++ BitVec.ofNat 6 w ++ 0#8 ++ BitVec.ofNat 8 off
  | .sext w => 0x23#8 ++ 0#2 ++ BitVec.ofNat 6 w ++ 0#16
  | .uenc conv => 0x30#8 ++ BitVec.ofNat 8 conv ++ 0#16
  | .udec conv => 0x31#8 ++ BitVec.ofNat 8 conv ++ 0#16
  | .setp prof reg => 0x40#8 ++ BitVec.ofNat 8 prof ++ BitVec.ofNat 8 reg ++ 0#8
  | .getp prof reg => 0x41#8 ++ BitVec.ofNat 8 prof ++ BitVec.ofNat 8 reg ++ 0#8
  | .cmd prof cmdByte dir aw =>
      0x50#8 ++ BitVec.ofNat 8 prof ++ cmdByte ++ BitVec.ofBool dir ++ 0#1 ++ BitVec.ofNat 6 aw
  | .encrd prof r12 => 0x60#8 ++ BitVec.ofNat 8 prof ++ 0#15 ++ BitVec.ofBool r12
  | .encchk r12 => 0x61#8 ++ 0#8 ++ 0#15 ++ BitVec.ofBool r12

/-- The operation word the host's numbering gives: one 32-bit word, the bits from `nbits` up zero (log 24). -/
def tableWord (nbits w : Nat) : Word := BitVec.ofNat 32 (w % 2 ^ nbits)

/-- What the decoder reads from an opcode-table word; none where it refuses. -/
def decodeTableWord (nbits w : Nat) : Option Instr :=
  match decode (tableWord nbits w) with
  | .ok i => some i
  | .error _ => none

end Sys2Proof
end

