-- ==== Sys2Proof/Config.lean ====
section
/-! DEFINITION. The block's parameters (00_scope.md R6) and the free values: the values the spec leaves
unspecified (`any(N)`, 00_scope.md R8; 93_implementation_defined.md part 1). A free value is an opaque constant
without a body: no proof can know it. -/

namespace Sys2Proof

/-- `KBIT_ORDER` (R6, 45_encoder.md R211): which of the top two bits of response byte 0 is k1. -/
inductive KBitOrder
  /-- k1 = bit 7, k0 = bit 6 (the default, decision D31) -/
  | k1High
  /-- k0 = bit 7, k1 = bit 6 -/
  | k0High
deriving DecidableEq, Repr

/-- The OPEN parameters of R6 that some rule of the block reads. They are configuration, not state (10_state.md R42):
State carries them so that every claim can be made for every legal choice, and no step changes them (log 1). -/
structure Params where
  /-- number of select lines, 1..32 -/
  nsel : Nat
  /-- entries of the profile table, 1..256 -/
  nprof : Nat
  /-- entries of the register-spec table, 1..256 -/
  nreg : Nat
  /-- entries of the conversion table, 1..256 -/
  nconv : Nat
  /-- bytes of the transfer buffer, 5..256 -/
  bufsz : Nat
  /-- byte OR-ed into a get-parameter command -/
  getTag : Byte
  /-- byte OR-ed into a command byte when the direction operand is 1 -/
  dirFlag : Byte
  /-- first byte the encoder read sends -/
  encFrame0 : Byte
  /-- second byte the encoder read sends -/
  encFrame1 : Byte
  kbitOrder : KBitOrder
deriving DecidableEq, Repr

/-- The legal ranges of R6. -/
def Params.legal (c : Params) : Bool :=
  decide (1 ≤ c.nsel ∧ c.nsel ≤ 32 ∧ 1 ≤ c.nprof ∧ c.nprof ≤ 256 ∧ 1 ≤ c.nreg ∧ c.nreg ≤ 256 ∧
    1 ≤ c.nconv ∧ c.nconv ≤ 256 ∧ 5 ≤ c.bufsz ∧ c.bufsz ≤ 256)

/-- The default values of R6 (log 1). -/
def Params.default : Params where
  nsel := 8
  nprof := 8
  nreg := 32
  nconv := 8
  bufsz := 16
  getTag := 0x20
  dirFlag := 0x01
  encFrame0 := 0x00
  encFrame1 := 0x00
  kbitOrder := .k1High

namespace Config

/-- `NATIVE` (R6, FIXED): the width sign extension extends to. -/
def native : Nat := 32

/-- `SET_TAG` (R6, FIXED by the source: "set-param tag 0"). -/
def setTag : Byte := 0x00

/-- `FIXUP_BYTE` (R6, FIXED by decision D9). -/
def fixupByte : Byte := 0x00

/-- `PHYF` (R6, FIXED): fraction bits of the physical operand. -/
def phyFraction : Nat := 32

/-- `ENC_STARTUP_US` (R6): OPEN without a default. No rule of the block reads it (45_encoder.md R218,
70_reset_and_hazards.md R270: "The block does not enforce the wait"); log 26. -/
opaque encStartupUs : Nat

/-- `any(w)` (00_scope.md R8): the `k`-th free value drawn by a run, at width `w`; `k` is State's `draws` (log 4). -/
opaque freeBits (w k : Nat) : BitVec w

/-- The content a register has after reset where 10_state.md R43 says "unspecified": `w` bits, at the `epoch`-th reset,
of the register named by `slot` (its host offset where it has one). Log 2. -/
opaque resetBits (w epoch slot : Nat) : BitVec w

/-- Whether the environment fails a request that no answer was scripted for, and with which code: `none` is success.
The environment is under no law (00_scope.md R8); log 5. -/
opaque freeFailure (k : Nat) : Option Word

end Config

end Sys2Proof
end

