-- ==== Sys2Proof/Machine/Bits.lean ====
section
/-! DEFINITION. Bit fields, masks, sign extension and byte order: the primitives of 00_scope.md R7 and R8 and the
codec's two pure functions (42_codec.md R150 to R153). Shifts and masks are taken over natural numbers where R7 says so. -/

namespace Sys2Proof.Machine

/-- `v` with bit `k` set to `b`. -/
def setBit (v : Word) (k : Nat) (b : Bool) : Word :=
  if b then v ||| (1#32 <<< k) else v &&& ~~~(1#32 <<< k)

/-- `mask(w)` = `2^w - 1` computed as a natural number (R8), so `mask(32)` = 0xFFFFFFFF (42_codec.md R153). -/
def maskBits (w : Nat) : Word := BitVec.ofNat 32 (2 ^ w - 1)

/-- `zext_N(v)` (R8). -/
def zextWord (w : Nat) (v : Word) : Word := v &&& maskBits w

/-- `sext_N(v)` (R8): the low `w` bits of `v`, bits 31..w equal to bit `w - 1`. -/
def sextWord (w : Nat) (v : Word) : Word :=
  if v.getLsbD (w - 1) then (v &&& maskBits w) ||| ~~~maskBits w else v &&& maskBits w

/-- `byteLength(w)` (42_codec.md R150). -/
def byteLength (w : Nat) : Nat := (w + 7) / 8

/-- `Pack(v, w)` (R151): `byteLength w` bytes, most significant first; not masked to `w` bits. -/
def packBytes (v : Word) (w : Nat) : List Byte :=
  (List.range (byteLength w)).map fun i => (v >>> ((byteLength w - i - 1) * 8)).setWidth 8

/-- The accumulator of R153 over the bytes received, most significant first. -/
def accumulate (bs : List Byte) : Word :=
  bs.foldl (fun acc b => acc <<< 8 ||| b.setWidth 32) 0#32

/-- `Unpack(s, w)` (R153). -/
def unpackBytes (bs : List Byte) (w : Nat) : Word := accumulate bs &&& maskBits w

/-- SEXT's change of `VAL` (R155): it ORs in the bits above `w - 1` when bit `w - 1` is set, and never clears. -/
def orSignBits (w : Nat) (v : Word) : Word :=
  if v.getLsbD (w - 1) then v ||| ~~~maskBits w else v

/-- `cpol(m)` = `m[1]` (10_state.md R40): the idle level of the clock in mode `m`. -/
def cpol (m : BitVec 2) : Bool := m.getLsbD 1

/-- Encoder parity (45_encoder.md R211): the XOR over bits {5,3,1} of `hi` and {7,5,3,1} of `lo`. -/
def oddParity (hi lo : Byte) : Bool :=
  hi.getLsbD 5 ^^ hi.getLsbD 3 ^^ hi.getLsbD 1 ^^ lo.getLsbD 7 ^^ lo.getLsbD 5 ^^ lo.getLsbD 3 ^^ lo.getLsbD 1

/-- Encoder parity (R211): the XOR over bits {4,2,0} of `hi` and {6,4,2,0} of `lo`. -/
def evenParity (hi lo : Byte) : Bool :=
  hi.getLsbD 4 ^^ hi.getLsbD 2 ^^ hi.getLsbD 0 ^^ lo.getLsbD 6 ^^ lo.getLsbD 4 ^^ lo.getLsbD 2 ^^ lo.getLsbD 0

/-- Parity bit k1 of the response (R211). -/
def bitK1 (o : KBitOrder) (hi : Byte) : Bool :=
  match o with
  | .k1High => hi.getLsbD 7
  | .k0High => hi.getLsbD 6

/-- Parity bit k0 of the response (R211). -/
def bitK0 (o : KBitOrder) (hi : Byte) : Bool :=
  match o with
  | .k1High => hi.getLsbD 6
  | .k0High => hi.getLsbD 7

/-- `pass` (R211): each parity bit is the inverse of its XOR. -/
def parityPass (o : KBitOrder) (hi lo : Byte) : Bool :=
  bitK1 o hi == !oddParity hi lo && bitK0 o hi == !evenParity hi lo

/-- `pos14` (R213): the 14 data bits. -/
def pos14 (hi lo : Byte) : Word := ((hi &&& 0x3F#8).setWidth 32 <<< 8) ||| lo.setWidth 32

/-- The position an encoder operation returns (R213): 14 bits, or the twelve high data bits for a 12-bit device. -/
def position (r12 : Bool) (hi lo : Byte) : Word :=
  if r12 then pos14 hi lo >>> 2 else pos14 hi lo

end Sys2Proof.Machine
end

