-- ==== Sys2Proof/Machine/State.lean ====
section
/-! DEFINITION. Everything the spec gives the block as state (10_state.md R21 to R38, R45), the ports' inputs as lists a
step reads (R44), the reasons a step can stop, and the state after reset (R43). All plain data. -/

namespace Sys2Proof.Machine

/-- The sequencer's phase `PHASE` (10_state.md R24), in the order of its codes 0 to 10. -/
inductive Phase
  | idle
  | modeSet
  | fixup
  | select
  | preDelay
  | xfer
  | ibDelay
  | postDelay
  | deselect
  | coolDown
  | abort
deriving DecidableEq, Repr

/-- One DeviceProfile: an entry of `PROF` (R31). -/
structure Profile where
  /-- select-line number -/
  psel : BitVec 5
  /-- clock rate in Hz -/
  prate : Word
  /-- clock mode (R40) -/
  pmode : BitVec 2
  /-- pre-select-to-transfer delay, microseconds -/
  ppre : Word
  /-- inter-byte delay, microseconds -/
  pibd : Word
  /-- transfer-to-deselect delay, microseconds -/
  ppost : Word
  /-- deselect-to-next-select cooldown, microseconds -/
  pcool : Word
  /-- `VALID`: committed and locked (R32) -/
  valid : Bool
deriving DecidableEq, Repr

/-- One RegisterSpec: an entry of `REGSPEC` (R34). -/
structure RegSpec where
  addr : Byte
  width : BitVec 6
  /-- access mode: 1 read-only, 2 write-only, 3 read-write, 0 invalid -/
  acc : BitVec 2
  sgn : Bool
  /-- `VALID`: committed and locked (R35) -/
  valid : Bool
deriving DecidableEq, Repr

/-- One entry of the conversion table `CONV` (R36). -/
structure Conv where
  /-- scale factor numerator -/
  csn : Word
  /-- scale factor denominator -/
  csd : Word
  width : BitVec 6
  /-- rounding rule: 0 TRUNC, 1 CEIL, 2 SUBHALF, 3 reserved -/
  rnd : BitVec 2
  /-- `VALID`: committed and locked -/
  valid : Bool
deriving DecidableEq, Repr

/-- What the Bus Channel answers a mode-set request (R44). -/
inductive ModeAnswer
  | ok
  | fail (e : Word)
deriving DecidableEq, Repr

/-- What the Bus Channel answers a transfer request (R44). -/
inductive XferAnswer
  | ok (rx : List Byte)
  | fail (e : Word)
deriving DecidableEq, Repr

/-- An electrical action of the block (R45). -/
inductive Event
  /-- mode `m` was requested -/
  | modeSet (m : BitVec 2) (a : ModeAnswer)
  /-- one exchange of the bytes `tx` in mode `m` at rate `hz` -/
  | xfer (m : BitVec 2) (hz : Word) (tx : List Byte) (a : XferAnswer)
  /-- select line `k` driven to `lvl` (false = low = asserted) -/
  | cs (k : Nat) (lvl : Bool)
  /-- pad `k` made an output -/
  | csDir (k : Nat)
  /-- the block waited at least `n` microseconds -/
  | sleep (n : Word)
deriving DecidableEq, Repr

/-- One scripted answer of the Bus Channel (R20c, R44): success with received bytes (none are used for a mode set), or a
failure with its 32-bit code. -/
inductive Reply
  | ok (rx : List Byte)
  | fail (e : Word)
deriving DecidableEq, Repr

/-- What the world does to the block next: a host access (R44, 20_memory.md R62), a reset (70_reset_and_hazards.md
R260), or a change of the input `bus_open` (R262). -/
inductive Input
  /-- host write of `data` at byte offset `off` -/
  | write (off : BitVec 16) (data : Word)
  /-- host read at byte offset `off` -/
  | read (off : BitVec 16)
  /-- `rst` asserted and released -/
  | reset
  /-- the platform drives `bus_open` -/
  | busOpen (level : Bool)
deriving DecidableEq, Repr

/-- How the port ended an access: always `ack`; `err` marks a refused one (20_memory.md R63); `rdata` is present for a
read. -/
structure PortAnswer where
  err : Bool
  rdata : Option Word
deriving DecidableEq, Repr

/-- The causes of a `ConfigurationError` (60_exceptions.md R236, `CFGC` 1 to 7). -/
inductive CfgCause
  | badWidth
  | badAccess
  | notValid
  | badLen
  | badOp
  | badConv
  | badIndex
deriving DecidableEq, Repr

/-- The four error kinds with what each records (R233 to R236). -/
inductive OpError
  | modeSetFailed (e : Word)
  | transferFailed (e : Word)
  | checksum (hi lo : Byte)
  | configuration (c : CfgCause) (word : Word)
deriving DecidableEq, Repr

/-- `BUF` as a list of written cells (address, byte), addresses strictly rising. A cell that is not listed has not been
written since reset: the memory has no value for it (log 3). -/
abbrev Memory := List Host.Cell

/-- Why the machine stops with a fault. -/
inductive Fault
  /-- Raised by a transaction-family operation in phase `p`: the environment never answers the mode-set, transfer or
  sleep request made there, so the operation never completes (70_reset_and_hazards.md R272; U15 "stuck"). Safe: the
  hardware waits for ever, and nothing is provable past the stop. -/
  | unanswered (p : Phase)
deriving DecidableEq, Repr

/-- Why a step has no meaning. -/
inductive Refusal
  /-- Raised by an arm of exec that has no meaning yet. Safe. -/
  | notModelled (mnemonic : String)
  /-- Raised by a transaction-family operation that has passed its launch checks while the input `bus_open` is 0:
  outside the spec (70_reset_and_hazards.md R262; U10 "refuse"). Safe: the spec gives no effect. -/
  | busNotOpen
  /-- Raised by step when `rst` is asserted while `PHASE` is not `IDLE` (R261; U9 "refuse"). Safe. No step leaves such a
  state. -/
  | resetWhileBusy
  /-- Raised by step when another input arrives while `PHASE` is not `IDLE`: the port takes no access then
  (10_state.md R47). Safe. No step leaves such a state. -/
  | portBusy
deriving DecidableEq, Repr

/-- The state of the block, with its ports. -/
structure State where
  /-- configuration: the OPEN parameters; no step changes them (log 1) -/
  cfg : Params
  /-- `OP` (R23) -/
  op : Word
  /-- `STATUS` (R26) -/
  status : Word
  /-- `ERRINFO` (R27) -/
  errinfo : Word
  /-- `VAL` (R21) -/
  val : Word
  /-- `PHY` (R22); `PHYL` and `PHYH` are its halves -/
  phy : BitVec 64
  /-- `CSLVL` (R28): bit k = 1, line k high -/
  cslvl : Word
  /-- `CSOE` (R28): bit k = 1, line k driven by the block -/
  csoe : Word
  /-- `BUSST[1:0]` (R29) -/
  busmode : BitVec 2
  /-- `BUSST[2]` (R29) -/
  modev : Bool
  /-- `PROF` (R31) -/
  profs : List Profile
  /-- `REGSPEC` (R34) -/
  regspecs : List RegSpec
  /-- `CONV` (R36) -/
  convs : List Conv
  /-- `BUF` (R37) -/
  buf : Memory
  /-- `PHASE` (R24) -/
  phase : Phase
  /-- `CURP` (R25) -/
  curp : BitVec 8
  /-- `CURLEN` (R25) -/
  curlen : BitVec 9
  /-- `IDX` (R24, R25) -/
  idx : BitVec 9
  /-- `CLKIDLE` (R38): true = the bus clock rests high -/
  clkIdle : Bool
  /-- `TRACE` (R45), oldest event first -/
  trace : List Event
  /-- the port's answer to the last access (R44); none before the first -/
  answer : Option PortAnswer
  /-- the input `bus_open` (R44, 70_reset_and_hazards.md R262) -/
  busOpen : Bool
  /-- the model's own: what host and platform do next, oldest first (log 9) -/
  inputs : List Input
  /-- the model's own: the Bus Channel's next answers; `none` = it never answers (log 5) -/
  busScript : List (Option Reply)
  /-- the model's own: the timer's next answers; `false` = the sleep never ends (log 5) -/
  timerScript : List Bool
  /-- the model's own: how many free values were drawn (log 4) -/
  draws : Nat
  /-- the model's own: how many resets were applied before this one (log 2) -/
  resets : Nat
deriving DecidableEq, Repr

/-- A profile entry after reset: `VALID` = 0, the rest unspecified (R43). Slots are host offsets (R31). -/
def Profile.atReset (epoch p : Nat) : Profile where
  psel := Config.resetBits 5 epoch (0x1000 + 0x20 * p)
  prate := Config.resetBits 32 epoch (0x1004 + 0x20 * p)
  pmode := Config.resetBits 2 epoch (0x1008 + 0x20 * p)
  ppre := Config.resetBits 32 epoch (0x100C + 0x20 * p)
  pibd := Config.resetBits 32 epoch (0x1010 + 0x20 * p)
  ppost := Config.resetBits 32 epoch (0x1014 + 0x20 * p)
  pcool := Config.resetBits 32 epoch (0x1018 + 0x20 * p)
  valid := false

/-- A register-spec entry after reset: `VALID` = 0, the rest unspecified (R43). -/
def RegSpec.atReset (epoch r : Nat) : RegSpec where
  addr := Config.resetBits 8 epoch (0x3000 + 4 * r)
  width := Config.resetBits 6 epoch (0x3000 + 4 * r)
  acc := Config.resetBits 2 epoch (0x3000 + 4 * r)
  sgn := (Config.resetBits 1 epoch (0x3000 + 4 * r)).getLsbD 0
  valid := false

/-- A conversion entry after reset: `VALID` = 0, the rest unspecified (R43). -/
def Conv.atReset (epoch c : Nat) : Conv where
  csn := Config.resetBits 32 epoch (0x4000 + 0x10 * c)
  csd := Config.resetBits 32 epoch (0x4004 + 0x10 * c)
  width := Config.resetBits 6 epoch (0x4008 + 0x10 * c)
  rnd := Config.resetBits 2 epoch (0x4008 + 0x10 * c)
  valid := false

/-- What an entry beyond the end of a table list would be: not committed. No state that a run reaches has one (log 23). -/
def Profile.absent : Profile := ⟨0, 0, 0, 0, 0, 0, 0, false⟩

/-- As `Profile.absent`. -/
def RegSpec.absent : RegSpec := ⟨0, 0, 0, false, false⟩

/-- As `Profile.absent`. -/
def Conv.absent : Conv := ⟨0, 0, 0, 0, false⟩

/-- `CSLVL` with all `n` bits 1 (R28, R43). -/
def allHigh (n : Nat) : Word := BitVec.ofNat 32 (2 ^ n - 1)

/-- The table of 10_state.md R43 for parameters `c` at the `epoch`-th reset. Every field that R43 calls unspecified holds
the free constant named by its host offset, or by a slot above the 16-bit offsets where it has none. The last seven
fields are not the block's registers: they are as at the first reset. -/
def State.atReset (c : Params) (epoch : Nat) : State where
  cfg := c
  op := 0
  status := 0
  errinfo := 0
  val := Config.resetBits 32 epoch 0x000C
  phy := Config.resetBits 64 epoch 0x0010
  cslvl := allHigh c.nsel
  csoe := 0
  busmode := Config.resetBits 2 epoch 0x0020
  modev := false
  profs := (List.range c.nprof).map (Profile.atReset epoch)
  regspecs := (List.range c.nreg).map (RegSpec.atReset epoch)
  convs := (List.range c.nconv).map (Conv.atReset epoch)
  buf := []
  phase := .idle
  curp := Config.resetBits 8 epoch 0x10000
  curlen := Config.resetBits 9 epoch 0x10001
  idx := Config.resetBits 9 epoch 0x10002
  clkIdle := (Config.resetBits 1 epoch 0x10003).getLsbD 0
  trace := []
  answer := none
  busOpen := false
  inputs := []
  busScript := []
  timerScript := []
  draws := 0
  resets := epoch

/-- The block right after its first reset, with the default parameters (R6, R43). -/
def State.reset : State := State.atReset Params.default 0

end Sys2Proof.Machine
end

