-- ==== Sys2Proof/Machine/Flags.lean ====
section
/-! DEFINITION. `STATUS` and `ERRINFO`: every code and field (10_state.md R26, R27; 60_exceptions.md R231 to R236).
`ERR` and `SAT` are the block's only flags. -/

namespace Sys2Proof.Machine

/-- `CFGC` of a cause (R236). -/
def CfgCause.code : CfgCause → BitVec 4
  | .badWidth => 1
  | .badAccess => 2
  | .notValid => 3
  | .badLen => 4
  | .badOp => 5
  | .badConv => 6
  | .badIndex => 7

/-- `KIND` of an error (R233 to R236). -/
def OpError.kind : OpError → BitVec 3
  | .modeSetFailed _ => 1
  | .transferFailed _ => 2
  | .checksum _ _ => 3
  | .configuration _ _ => 4

/-- `CFGC` of an error: the sub-code of a `ConfigurationError`, else 0 (R232). -/
def OpError.cfgc : OpError → BitVec 4
  | .modeSetFailed _ => 0
  | .transferFailed _ => 0
  | .checksum _ _ => 0
  | .configuration c _ => c.code

/-- What `ERRINFO` records (R233 to R236): the bus's code, the two raw bytes, or the operation word. -/
def OpError.info : OpError → Word
  | .modeSetFailed e => e
  | .transferFailed e => e
  | .checksum hi lo => (hi.setWidth 32 <<< 8) ||| lo.setWidth 32
  | .configuration _ word => word

/-- `STATUS` after a success (R231). -/
def statusDone (sat : Bool) : Word := if sat then 0x00000010 else 0x00000000

/-- `STATUS` after an error (R232): `ERR` = 1, `KIND`, `CFGC`, `SAT` = 0. -/
def OpError.status (e : OpError) : Word :=
  1#32 ||| (e.kind.setWidth 32 <<< 1) ||| (e.cfgc.setWidth 32 <<< 8)

/-- `STATUS.ERR` (R26). -/
def statusErr (st : Word) : Bool := st.getLsbD 0

/-- `STATUS.KIND` (R26). -/
def statusKind (st : Word) : BitVec 3 := st.extractLsb' 1 3

/-- `STATUS.SAT` (R26). -/
def statusSat (st : Word) : Bool := st.getLsbD 4

/-- `STATUS.CFGC` (R26). -/
def statusCfgc (st : Word) : BitVec 4 := st.extractLsb' 8 4

/-- The code of a phase, as the debug output `phase[3:0]` shows it (R24, R44). -/
def Phase.code : Phase → BitVec 4
  | .idle => 0
  | .modeSet => 1
  | .fixup => 2
  | .select => 3
  | .preDelay => 4
  | .xfer => 5
  | .ibDelay => 6
  | .postDelay => 7
  | .deselect => 8
  | .coolDown => 9
  | .abort => 10

end Sys2Proof.Machine
end

