-- ==== Sys2Proof/Machine/Ops.lean ====
section
/-! DEFINITION. The named operations over the state: the buffer (00_scope.md R8 `MemRead`, `MemWrite`), free values, the
trace, the select pads, the requests to the environment (`BusSetMode`, `BusTransfer`, `Sleep`), and the two ways an
operation ends (`done`, `raise`). The block has no trap: `raise` is its taking of an exception (60_exceptions.md R232,
R240) and there is no return from it (R241). -/

namespace Sys2Proof.Machine

/-! ### The buffer cells -/

/-- The byte a memory holds at address `a`, if it was written. -/
def Memory.readCell : Memory → Nat → Option Byte
  | [], _ => none
  | c :: m, a => if c.1 = a then some c.2 else Memory.readCell m a

/-- The memory with byte `b` at address `a`; addresses stay strictly rising. -/
def Memory.writeCell : Memory → Nat → Byte → Memory
  | [], a, b => [(a, b)]
  | c :: m, a, b =>
      if a < c.1 then (a, b) :: c :: m
      else if a = c.1 then (a, b) :: m
      else c :: Memory.writeCell m a b

/-- Bytes written at consecutive addresses from `a`. -/
def Memory.writeCells : Memory → Nat → List Byte → Memory
  | m, _, [] => m
  | m, a, b :: bs => Memory.writeCells (Memory.writeCell m a b) (a + 1) bs

/-- The canonical form: addresses strictly rising. An unlisted address has no value (log 3), so no entry can repeat it. -/
def Memory.wf : Memory → Bool
  | [] => true
  | [_] => true
  | c :: d :: m => decide (c.1 < d.1) && Memory.wf (d :: m)

/-- Every listed address is an address of the buffer, below `n`. -/
def Memory.within (n : Nat) (m : Memory) : Bool := m.all fun c => decide (c.1 < n)

/-- `BUF[i]` (10_state.md R37). A cell not written since reset holds the free byte drawn at that reset (R43; U1, log 3). -/
def State.bufGet (s : State) (i : Nat) : Byte :=
  (s.buf.readCell i).getD (Config.resetBits 8 s.resets (0x5000 + 4 * i))

/-- `MemRead(a, n)` (R8). -/
def State.memRead (s : State) (a n : Nat) : List Byte := (List.range n).map fun i => s.bufGet (a + i)

/-- `MemWrite(a, n, bs)` with `n` the length of `bs` (R8). -/
def State.memWrite (s : State) (a : Nat) (bs : List Byte) : State := { s with buf := s.buf.writeCells a bs }

/-! ### Free values -/

/-- The next free value of `w` bits, `any(w)` (R8; log 4). -/
def State.any (s : State) (w : Nat) : BitVec w := Config.freeBits w s.draws

/-- The next `n` free bytes. -/
def State.anyBytes (s : State) (n : Nat) : List Byte :=
  (List.range n).map fun i => Config.freeBits 8 (s.draws + i)

/-- `n` free values were used. -/
def State.drew (s : State) (n : Nat) : State := { s with draws := s.draws + n }

/-! ### Trace and pads -/

/-- `emit E` (R8): append an event to `TRACE` (10_state.md R45). -/
def State.emit (s : State) (e : Event) : State := { s with trace := s.trace ++ [e] }

/-- `CsSet(k, lvl)` (R8): drive select line `k`. -/
def State.csSet (s : State) (k : Nat) (lvl : Bool) : State :=
  { s with cslvl := setBit s.cslvl k lvl, trace := s.trace ++ [.cs k lvl] }

/-- `CSOE[k] <- 1` with its event (10_state.md R33). -/
def State.csDirOut (s : State) (k : Nat) : State :=
  { s with csoe := setBit s.csoe k true, trace := s.trace ++ [.csDir k] }

/-! ### Requests to the environment -/

/-- The Bus Channel's answer to the next request: the script's, or a free one when nothing is scripted (log 5).
`none`: it never answers (70_reset_and_hazards.md R272). -/
def State.busReply (s : State) : Option Reply :=
  match s.busScript with
  | a :: _ => a
  | [] =>
      match Config.freeFailure s.draws with
      | none => some (.ok [])
      | some e => some (.fail e)

/-- The state after an answer of the Bus Channel was taken. -/
def State.busTaken (s : State) : State := { s with busScript := s.busScript.tail, draws := s.draws + 1 }

/-- Received bytes of exactly the requested length (R8: `len(rx) = len(tx)`): a scripted list that is too short is
filled up with free bytes, one that is too long is cut. -/
def State.received (s : State) (n : Nat) (rx : List Byte) : List Byte :=
  (List.range n).map fun i => rx.getD i (Config.freeBits 8 (s.draws + i))

/-- `BusSetMode(m)` (R8): the answer and the state with its event, or `none` if no answer ever comes. -/
def State.busSetMode (s : State) (m : BitVec 2) : Option (ModeAnswer × State) :=
  match s.busReply with
  | none => none
  | some (.ok _) => some (.ok, s.busTaken.emit (.modeSet m .ok))
  | some (.fail e) => some (.fail e, s.busTaken.emit (.modeSet m (.fail e)))

/-- `BusTransfer(m, hz, tx)` (R8): the answer and the state with its event, or `none` if no answer ever comes. -/
def State.busTransfer (s : State) (m : BitVec 2) (hz : Word) (tx : List Byte) : Option (XferAnswer × State) :=
  match s.busReply with
  | none => none
  | some (.ok rx) =>
      let got := s.busTaken.received tx.length rx
      some (.ok got, (s.busTaken.drew tx.length).emit (.xfer m hz tx (.ok got)))
  | some (.fail e) => some (.fail e, s.busTaken.emit (.xfer m hz tx (.fail e)))

/-- `Sleep(n)` (R8), or `none` if the timer never ends it (R272). -/
def State.sleep (s : State) (n : Word) : Option State :=
  match s.timerScript with
  | false :: _ => none
  | _ => some ({ s with timerScript := s.timerScript.tail }.emit (.sleep n))

/-! ### How an operation ends -/

/-- `done` (60_exceptions.md R231). -/
def State.done (s : State) (sat : Bool) : State := { s with status := statusDone sat, errinfo := 0 }

/-- `raise e` (60_exceptions.md R232): the shared taking of an error. Nothing else changes (R240). -/
def State.raise (s : State) (e : OpError) : State := { s with status := e.status, errinfo := e.info }

/-- A `ConfigurationError` of the running operation: `ERRINFO` is the operation word, which `OP` holds (R236, R23). -/
def State.raiseConfig (s : State) (c : CfgCause) : State := s.raise (.configuration c s.op)

end Sys2Proof.Machine
end

