-- ==== Sys2Proof/Machine/Operands.lean ====
section
/-! DEFINITION. Operand forms: the table entries and buffer ranges an operation names, with the launch checks of each
(30_encoding.md R99; 60_exceptions.md R237), and the host's register map (10_state.md R46) with the reading of every
register. -/

namespace Sys2Proof.Machine

/-! ### Table entries -/

/-- `PROF[p]` (10_state.md R31). -/
def State.profAt (s : State) (p : Nat) : Profile := s.profs.getD p Profile.absent

/-- `REGSPEC[r]` (R34). -/
def State.regAt (s : State) (r : Nat) : RegSpec := s.regspecs.getD r RegSpec.absent

/-- `CONV[c]` (R36). -/
def State.convAt (s : State) (c : Nat) : Conv := s.convs.getD c Conv.absent

/-- The select line of profile `p`. -/
def State.lineOf (s : State) (p : Nat) : Nat := (s.profAt p).psel.toNat

/-! ### Launch checks (R237) -/

/-- The cause paired with the first condition that does not hold: launch checks run in a fixed order and the first
failure is the one reported (R237). -/
def firstFailure : List (Bool × CfgCause) → Option CfgCause
  | [] => none
  | (ok, c) :: rest => if ok then firstFailure rest else some c

/-- A bit width the block accepts (R99: 1..32). -/
def legalWidth (w : Nat) : Bool := decide (1 ≤ w ∧ w ≤ 32)

/-- An access of `n` bytes at `off` lies in the buffer (20_memory.md R64). -/
def State.inBuffer (s : State) (off n : Nat) : Bool := decide (off + n ≤ s.cfg.bufsz)

/-- Launch checks of EXEC (41_transaction.md R123). -/
def State.execChecks (s : State) (prof len : Nat) : List (Bool × CfgCause) :=
  [(decide (prof < s.cfg.nprof), .badIndex),
   ((s.profAt prof).valid, .notValid),
   (decide (s.lineOf prof < s.cfg.nsel), .badIndex),
   (decide (1 ≤ len ∧ len ≤ s.cfg.bufsz), .badLen)]

/-- Launch checks of PACK, UNPACK and UNPACKS (42_codec.md R152, R154, R156). -/
def State.codecChecks (s : State) (w off : Nat) : List (Bool × CfgCause) :=
  [(legalWidth w, .badWidth), (s.inBuffer off (byteLength w), .badLen)]

/-- Launch check of SEXT (R155). -/
def sextChecks (w : Nat) : List (Bool × CfgCause) := [(legalWidth w, .badWidth)]

/-- Launch checks of UENC and UDEC (43_convert.md R172, R175). -/
def State.convChecks (s : State) (conv : Nat) : List (Bool × CfgCause) :=
  [(decide (conv < s.cfg.nconv), .badIndex),
   ((s.convAt conv).valid, .notValid),
   (legalWidth (s.convAt conv).width.toNat, .badWidth),
   (decide ((s.convAt conv).csn ≠ 0 ∧ (s.convAt conv).csd ≠ 0 ∧ (s.convAt conv).rnd ≠ 3), .badConv)]

/-- `ACC` of a register that may be set: write-only or read-write (44_framing.md R191). -/
def settable (acc : BitVec 2) : Bool := acc == 2 || acc == 3

/-- `ACC` of a register that may be got: read-only or read-write (R191). -/
def gettable (acc : BitVec 2) : Bool := acc == 1 || acc == 3

/-- Launch checks of SETP and GETP (R192, R194), which differ in the access modes they allow. -/
def State.registerChecks (s : State) (allowed : BitVec 2 → Bool) (prof reg : Nat) : List (Bool × CfgCause) :=
  [(decide (prof < s.cfg.nprof), .badIndex),
   (decide (reg < s.cfg.nreg), .badIndex),
   ((s.profAt prof).valid, .notValid),
   ((s.regAt reg).valid, .notValid),
   (decide (s.lineOf prof < s.cfg.nsel), .badIndex),
   (allowed (s.regAt reg).acc, .badAccess),
   (legalWidth (s.regAt reg).width.toNat, .badWidth),
   (s.inBuffer 1 (byteLength (s.regAt reg).width.toNat), .badLen)]

/-- Bytes of CMD's argument: none for `aw` = 0 (R196). -/
def argBytes (aw : Nat) : Nat := if aw = 0 then 0 else byteLength aw

/-- Launch checks of CMD (R196). -/
def State.cmdChecks (s : State) (prof aw : Nat) : List (Bool × CfgCause) :=
  [(decide (prof < s.cfg.nprof), .badIndex),
   ((s.profAt prof).valid, .notValid),
   (decide (s.lineOf prof < s.cfg.nsel), .badIndex),
   (decide (aw ≤ 32), .badWidth),
   (s.inBuffer 1 (argBytes aw), .badLen)]

/-- Launch checks of ENCRD (45_encoder.md R212). -/
def State.encChecks (s : State) (prof : Nat) : List (Bool × CfgCause) :=
  [(decide (prof < s.cfg.nprof), .badIndex),
   ((s.profAt prof).valid, .notValid),
   (decide (s.lineOf prof < s.cfg.nsel), .badIndex)]

/-! ### The host's register map (R46) -/

/-- The words of a profile entry, in offset order (R31). -/
inductive ProfWord
  | psel
  | prate
  | pmode
  | ppre
  | pibd
  | ppost
  | pcool
  | pctl
deriving DecidableEq, Repr

/-- The words of a conversion entry, in offset order (R36). -/
inductive ConvWord
  | csn
  | csd
  | cctl
  | reserved
deriving DecidableEq, Repr

/-- A register of the map R46. -/
inductive HostReg
  | op
  | status
  | errinfo
  | val
  | phyl
  | phyh
  | cslvl
  | csoe
  | busst
  | cap
  | proto
  | prof (p : Nat) (w : ProfWord)
  | regspec (r : Nat)
  | conv (c : Nat) (w : ConvWord)
  | buf (i : Nat)
deriving DecidableEq, Repr

/-- The `n`-th word of a profile entry (R31). -/
def profWord (n : Nat) : ProfWord :=
  match n with
  | 0 => .psel
  | 1 => .prate
  | 2 => .pmode
  | 3 => .ppre
  | 4 => .pibd
  | 5 => .ppost
  | 6 => .pcool
  | _ => .pctl

/-- The `n`-th word of a conversion entry (R36). -/
def convWord (n : Nat) : ConvWord :=
  match n with
  | 0 => .csn
  | 1 => .csd
  | 2 => .cctl
  | _ => .reserved

/-- The control registers 0x0000 to 0x0028 (R46), by word number. -/
def controlReg (n : Nat) : Option HostReg :=
  match n with
  | 0 => some .op
  | 1 => some .status
  | 2 => some .errinfo
  | 3 => some .val
  | 4 => some .phyl
  | 5 => some .phyh
  | 6 => some .cslvl
  | 7 => some .csoe
  | 8 => some .busst
  | 9 => some .cap
  | 10 => some .proto
  | _ => none

/-- The register at a byte offset (R46); none where the offset is unmapped or not a multiple of 4 (20_memory.md R63). -/
def regAtOffset (c : Params) (off : BitVec 16) : Option HostReg :=
  let o := off.toNat
  if o % 4 ≠ 0 then none
  else if o < 0x1000 then controlReg (o / 4)
  else if o < 0x3000 then
    if (o - 0x1000) / 0x20 < c.nprof then
      some (.prof ((o - 0x1000) / 0x20) (profWord ((o - 0x1000) % 0x20 / 4)))
    else none
  else if o < 0x4000 then
    if (o - 0x3000) / 4 < c.nreg then some (.regspec ((o - 0x3000) / 4)) else none
  else if o < 0x5000 then
    if (o - 0x4000) / 0x10 < c.nconv then
      some (.conv ((o - 0x4000) / 0x10) (convWord ((o - 0x4000) % 0x10 / 4)))
    else none
  else if (o - 0x5000) / 4 < c.bufsz then some (.buf ((o - 0x5000) / 4))
  else none

/-- A flag as bit `k` of a word. -/
def flagBit (b : Bool) (k : Nat) : Word := if b then 1#32 <<< k else 0#32

/-- What a read of a profile word returns (R31): the field, bits outside it 0. -/
def Profile.readWord (e : Profile) : ProfWord → Word
  | .psel => e.psel.setWidth 32
  | .prate => e.prate
  | .pmode => e.pmode.setWidth 32
  | .ppre => e.ppre
  | .pibd => e.pibd
  | .ppost => e.ppost
  | .pcool => e.pcool
  | .pctl => flagBit e.valid 0

/-- What a read of a register-spec entry returns (R34). -/
def RegSpec.readWord (e : RegSpec) : Word :=
  e.addr.setWidth 32 ||| (e.width.setWidth 32 <<< 8) ||| (e.acc.setWidth 32 <<< 16) ||| flagBit e.sgn 20 |||
    flagBit e.valid 31

/-- What a read of a conversion word returns (R36). -/
def Conv.readWord (e : Conv) : ConvWord → Word
  | .csn => e.csn
  | .csd => e.csd
  | .cctl => e.width.setWidth 32 ||| (e.rnd.setWidth 32 <<< 8) ||| flagBit e.valid 31
  | .reserved => 0

/-- `CAP` (R30). -/
def capWord (c : Params) : Word :=
  BitVec.ofNat 8 (c.bufsz - 1) ++ BitVec.ofNat 8 (c.nconv - 1) ++ BitVec.ofNat 8 (c.nreg - 1) ++
    BitVec.ofNat 8 (c.nprof - 1)

/-- `PROTO` (R30). -/
def protoWord (c : Params) : Word := Config.fixupByte ++ c.dirFlag ++ c.getTag ++ Config.setTag

/-- `BUSST` as read (R29): while `MODEV` = 0 bits 1:0 are unspecified, drawn anew at each read (U6, log 13). -/
def State.busstWord (s : State) : Word :=
  if s.modev then s.busmode.setWidth 32 ||| flagBit true 2 else (s.any 2).setWidth 32

/-- The value a host read of a register returns (R46). -/
def State.readReg (s : State) : HostReg → Word
  | .op => s.op
  | .status => s.status
  | .errinfo => s.errinfo
  | .val => s.val
  | .phyl => s.phy.setWidth 32
  | .phyh => (s.phy >>> 32).setWidth 32
  | .cslvl => s.cslvl &&& allHigh s.cfg.nsel
  | .csoe => s.csoe &&& allHigh s.cfg.nsel
  | .busst => s.busstWord
  | .cap => capWord s.cfg
  | .proto => protoWord s.cfg
  | .prof p w => (s.profAt p).readWord w
  | .regspec r => (s.regAt r).readWord
  | .conv c w => (s.convAt c).readWord w
  | .buf i => (s.bufGet i).setWidth 32

/-! ### The output ports (R44) -/

/-- `cs_n[NSEL-1:0]`. -/
def State.csN (s : State) : Word := s.cslvl &&& allHigh s.cfg.nsel

/-- `cs_oe[NSEL-1:0]`. -/
def State.csOeOut (s : State) : Word := s.csoe &&& allHigh s.cfg.nsel

/-- `phase[3:0]`. -/
def State.phaseOut (s : State) : BitVec 4 := s.phase.code

/-- `busy`: an operation is running. Between steps none is (log 10); inside a transaction the phase shows it. -/
def State.busyOut (s : State) : Bool := decide (s.phase ≠ .idle)

end Sys2Proof.Machine
end

