-- ==== Sys2Proof/Machine/Sequencer.lean ====
section
/-! DEFINITION. The Timed Transaction Engine (41_transaction.md): one definition per phase (R126 to R133), the procedure
`Transact` of R125 as their composition, and the same phases as single transitions (R137). -/

namespace Sys2Proof.Machine

/-- How a transaction leaves its course. -/
inductive TxStop
  /-- the mode set failed; the transaction has ended (R126) -/
  | modeSetFailed (s : State) (e : Word)
  /-- a payload exchange failed; the sequencer is in phase `ABORT` (R132) -/
  | aborting (s : State) (e : Word)
  /-- the request made in phase `p` is never answered (70_reset_and_hazards.md R272) -/
  | stuck (p : Phase)
deriving DecidableEq, Repr

/-- The running transaction's profile. -/
def State.curProfile (s : State) : Profile := s.profAt s.curp.toNat

/-- Launch of `Transact(prof, len)` (R125): the latches are loaded, `PHASE` moves to `MODESET`. -/
def State.beginTx (s : State) (prof len : Nat) : State :=
  { s with curp := BitVec.ofNat 8 prof, curlen := BitVec.ofNat 9 len, idx := 0, phase := .modeSet }

/-- `PHASE <- IDLE` at the end of a transaction; the three latches become unspecified (10_state.md R25, log 14). -/
def State.endTx (s : State) : State :=
  { s with phase := .idle, curp := Config.freeBits 8 s.draws, curlen := Config.freeBits 9 (s.draws + 1),
           idx := Config.freeBits 9 (s.draws + 2), draws := s.draws + 3 }

/-- What a failed mode set leaves (R126): `MODEV` = 0, `BUSMODE` unspecified, `PHASE` = `IDLE`. -/
def State.modeLost (s : State) : State :=
  ({ s with modev := false, busmode := s.any 2, draws := s.draws + 1 } : State).endTx

/-- Phase `MODESET` (R126). -/
def State.modeSetPhase (s : State) : Except TxStop State :=
  match s.busSetMode s.curProfile.pmode with
  | none => .error (.stuck .modeSet)
  | some (.ok, t) => .ok { t with busmode := s.curProfile.pmode, modev := true, phase := .fixup }
  | some (.fail e, t) => .error (.modeSetFailed t.modeLost e)

/-- Phase `FIXUP` (R127): its result is discarded; after a failure `CLKIDLE` is unspecified. -/
def State.fixupPhase (s : State) : Except TxStop State :=
  match s.busTransfer s.curProfile.pmode s.curProfile.prate [Config.fixupByte] with
  | none => .error (.stuck .fixup)
  | some (.ok _, t) => .ok { t with clkIdle := cpol s.curProfile.pmode, phase := .select }
  | some (.fail _, t) => .ok { t with clkIdle := (t.any 1).getLsbD 0, draws := t.draws + 1, phase := .select }

/-- Phase `SELECT` (R128): the line goes low. -/
def State.selectPhase (s : State) : Except TxStop State :=
  .ok { s.csSet s.curProfile.psel.toNat false with
        phase := if s.curProfile.ppre = 0 then .xfer else .preDelay }

/-- Phase `PREDELAY` (R129). -/
def State.preDelayPhase (s : State) : Except TxStop State :=
  match s.sleep s.curProfile.ppre with
  | none => .error (.stuck .preDelay)
  | some t => .ok { t with phase := .xfer }

/-- The phase after the last payload byte: `POSTDELAY` only if `PPOST > 0` (R130, R131, R134). -/
def State.afterPayload (s : State) : Phase := if s.curProfile.ppost = 0 then .deselect else .postDelay

/-- Phase `XFER`, bulk strategy (R130): one exchange of the whole payload, full duplex in place (20_memory.md R66). -/
def State.bulkXfer (s : State) : Except TxStop State :=
  match s.busTransfer s.curProfile.pmode s.curProfile.prate (s.memRead 0 s.curlen.toNat) with
  | none => .error (.stuck .xfer)
  | some (.fail e, t) => .error (.aborting { t with phase := .abort } e)
  | some (.ok rx, t) =>
      .ok { t.memWrite 0 rx with clkIdle := cpol s.curProfile.pmode, phase := s.afterPayload }

/-- Phase `XFER`, per-byte strategy (R131): the exchange of byte `IDX`. -/
def State.byteXfer (s : State) : Except TxStop State :=
  match s.busTransfer s.curProfile.pmode s.curProfile.prate [s.bufGet s.idx.toNat] with
  | none => .error (.stuck .xfer)
  | some (.fail e, t) => .error (.aborting { t with phase := .abort } e)
  | some (.ok rx, t) =>
      .ok { t.memWrite s.idx.toNat rx with
            clkIdle := cpol s.curProfile.pmode,
            phase := if s.idx.toNat + 1 < s.curlen.toNat then .ibDelay else s.afterPayload }

/-- Phase `XFER` (R124): bulk iff the profile's `PIBD` is 0. -/
def State.xferPhase (s : State) : Except TxStop State :=
  if s.curProfile.pibd = 0 then s.bulkXfer else s.byteXfer

/-- Phase `IBDELAY` (R131): the sleep between two bytes, then the next index. -/
def State.ibDelayPhase (s : State) : Except TxStop State :=
  match s.sleep s.curProfile.pibd with
  | none => .error (.stuck .ibDelay)
  | some t => .ok { t with idx := t.idx + 1, phase := .xfer }

/-- Phase `POSTDELAY` (R133). -/
def State.postDelayPhase (s : State) : Except TxStop State :=
  match s.sleep s.curProfile.ppost with
  | none => .error (.stuck .postDelay)
  | some t => .ok { t with phase := .deselect }

/-- Phase `DESELECT` (R133): the line goes high; the transaction ends here if `PCOOL` = 0. -/
def State.deselectPhase (s : State) : Except TxStop State :=
  if s.curProfile.pcool = 0 then .ok (s.csSet s.curProfile.psel.toNat true).endTx
  else .ok { s.csSet s.curProfile.psel.toNat true with phase := .coolDown }

/-- Phase `COOLDOWN` (R133), inside the transaction. -/
def State.coolDownPhase (s : State) : Except TxStop State :=
  match s.sleep s.curProfile.pcool with
  | none => .error (.stuck .coolDown)
  | some t => .ok t.endTx

/-- Phase `ABORT` (R132): the line goes high, nothing sleeps, `CLKIDLE` and every payload cell become unspecified. -/
def State.abortPhase (s : State) : State :=
  let t := s.csSet s.curProfile.psel.toNat true
  let u := { t with clkIdle := (t.any 1).getLsbD 0, draws := t.draws + 1 }
  ((u.memWrite 0 (u.anyBytes s.curlen.toNat)).drew s.curlen.toNat).endTx

/-- A phase that is entered only when `PHASE` names it (R134: a zero delay's phase is not entered). -/
def State.inPhase (s : State) (p : Phase) (f : State → Except TxStop State) : Except TxStop State :=
  if s.phase = p then f s else .ok s

/-- Step 5 of the transaction (R130, R131): at most `n` turns of `XFER` and `IBDELAY`, while the phase is `XFER`. -/
def State.payload : Nat → State → Except TxStop State
  | 0, s => .ok s
  | n + 1, s => do
      let s ← s.inPhase .xfer State.xferPhase
      let s ← s.inPhase .ibDelay State.ibDelayPhase
      State.payload n s

/-- Steps 1 to 4 (R126 to R129): mode set, fixup, select, pre-delay. -/
def State.openTx (s : State) : Except TxStop State := do
  let s ← s.modeSetPhase
  let s ← s.fixupPhase
  let s ← s.selectPhase
  s.inPhase .preDelay State.preDelayPhase

/-- Step 7 (R133): post-delay, deselect, cooldown. -/
def State.closeTx (s : State) : Except TxStop State := do
  let s ← s.inPhase .postDelay State.postDelayPhase
  let s ← s.deselectPhase
  s.inPhase .coolDown State.coolDownPhase

/-- The procedure `Transact(prof, len)` (R125) up to its result; an `aborting` stop is still to pass phase `ABORT`. -/
def State.transact (s : State) (prof len : Nat) : Except TxStop State := do
  let s ← (s.beginTx prof len).openTx
  let s ← s.payload len
  s.closeTx

/-- One transition of the sequencer (R137): the work of the phase `PHASE` names. In `IDLE` nothing is done. -/
def State.seqStep (s : State) : Except TxStop State :=
  match s.phase with
  | .idle => .ok s
  | .modeSet => s.modeSetPhase
  | .fixup => s.fixupPhase
  | .select => s.selectPhase
  | .preDelay => s.preDelayPhase
  | .xfer => s.xferPhase
  | .ibDelay => s.ibDelayPhase
  | .postDelay => s.postDelayPhase
  | .deselect => s.deselectPhase
  | .coolDown => s.coolDownPhase
  | .abort => .ok s.abortPhase

/-- `n` transitions of the sequencer, stopping where one stops. -/
def State.seqRun : Nat → State → Except TxStop State
  | 0, s => .ok s
  | n + 1, s => do
      let s ← s.seqStep
      State.seqRun n s

/-- What an operation makes of its transaction's result (R122): `raise` on the two failures, `after` on success. -/
def finishTx (r : Except TxStop State) (after : State → State) : Host.Outcome State Fault Refusal :=
  match r with
  | .ok t => .next (after t)
  | .error (.modeSetFailed t e) => .next (t.raise (.modeSetFailed e))
  | .error (.aborting t e) => .next (t.abortPhase.raise (.transferFailed e))
  | .error (.stuck p) => .fault (.unanswered p)

/-- Run one transaction of `len` bytes with profile `prof` and go on with `after`. It needs `bus_open` = 1: the spec gives
a transaction no meaning otherwise (70_reset_and_hazards.md R262; U10, log 7). -/
def State.runTx (s : State) (prof len : Nat) (after : State → State) : Host.Outcome State Fault Refusal :=
  if s.busOpen then finishTx (s.transact prof len) after else .refused .busNotOpen

/-- An operation with launch checks: the first failing check ends it with a `ConfigurationError` and no other effect
(R120, 60_exceptions.md R236); otherwise it runs. -/
def State.launchWith (s : State) (checks : List (Bool × CfgCause))
    (run : Host.Outcome State Fault Refusal) : Host.Outcome State Fault Refusal :=
  match firstFailure checks with
  | some c => .next (s.raiseConfig c)
  | none => run

end Sys2Proof.Machine
end

