-- ==== Sys2Proof/Machine/Codec.lean ====
section
/-! DEFINITION. The Variable-Width Register Codec: PACK, UNPACK, UNPACKS, SEXT (42_codec.md). -/

namespace Sys2Proof.Machine

/-- PACK (R152). -/
def execPack (w off : Nat) (s : State) : Host.Outcome State Fault Refusal :=
  s.launchWith (s.codecChecks w off) (.next ((s.memWrite off (packBytes s.val w)).done false))

/-- UNPACK (R154). -/
def execUnpack (w off : Nat) (s : State) : Host.Outcome State Fault Refusal :=
  s.launchWith (s.codecChecks w off)
    (.next (({ s with val := zextWord w (unpackBytes (s.memRead off (byteLength w)) w) } : State).done false))

/-- UNPACKS (R156): the sign test is made after the mask. -/
def execUnpacks (w off : Nat) (s : State) : Host.Outcome State Fault Refusal :=
  s.launchWith (s.codecChecks w off)
    (.next (({ s with val := sextWord w (unpackBytes (s.memRead off (byteLength w)) w) } : State).done false))

/-- SEXT (R155). -/
def execSext (w : Nat) (s : State) : Host.Outcome State Fault Refusal :=
  s.launchWith (sextChecks w) (.next (({ s with val := orSignBits w s.val } : State).done false))

end Sys2Proof.Machine
end

