-- ==== Sys2Proof/Machine/Control.lean ====
section
/-! DEFINITION. The control family: NOP and EXEC (41_transaction.md R121, R122). -/

namespace Sys2Proof.Machine

/-- NOP (R121): only `STATUS` and `ERRINFO` (and `OP`, written by the host's write) change. -/
def execNop (s : State) : Host.Outcome State Fault Refusal := .next (s.done false)

/-- EXEC (R122): checks R123, then one transaction. The operand `ib` takes no part (R124, log 17). -/
def execExec (prof : Nat) (_ib : Bool) (len : Nat) (s : State) : Host.Outcome State Fault Refusal :=
  s.launchWith (s.execChecks prof len) (s.runTx prof len fun t => t.done false)

end Sys2Proof.Machine
end

