-- ==== Sys2Proof/Machine/Convert.lean ====
section
/-! DEFINITION. The Unit Converter: UENC, UDEC (43_convert.md). All arithmetic is exact, over the integers (00_scope.md
R9): with P = signed64(PHY), the product `physical * scaleFactor` is N / D for N = P * SN and D = 2^32 * SD (R172). -/

namespace Sys2Proof.Machine

/-- The numerator N of y = physical * scaleFactor (R172). -/
def scaledNum (phy : BitVec 64) (sn : Word) : Int := phy.toInt * (sn.toNat : Int)

/-- The denominator D of y (R172); positive when `CSD` is not 0. -/
def scaledDen (sd : Word) : Int := 2 ^ Config.phyFraction * (sd.toNat : Int)

/-- The rounding rules of R171 applied to N / D: 0 TRUNC toward zero, 1 CEIL, 2 SUBHALF (subtract 1/2, truncate). The
reserved code 3 never gets here: a launch check refuses it. -/
def roundRule (rnd : BitVec 2) (n d : Int) : Int :=
  if rnd = 0 then Int.tdiv n d
  else if rnd = 1 then -Int.fdiv (-n) d
  else Int.tdiv (2 * n - d) (2 * d)

/-- The largest encoding of `w` bits, `2^w - 1` (R173). -/
def maxEnc (w : Nat) : Nat := 2 ^ w - 1

/-- `clamp(r, 0, 2^w - 1)` (R9, R172). -/
def clampEnc (w : Nat) (r : Int) : Word := BitVec.ofNat 32 (min r.toNat (maxEnc w))

/-- The rounded, not yet clamped encoding of R172. -/
def encodedValue (e : Conv) (phy : BitVec 64) : Int := roundRule e.rnd (scaledNum phy e.csn) (scaledDen e.csd)

/-- UENC (R172, R173): `SAT` reports the upper clamp only. -/
def execUenc (conv : Nat) (s : State) : Host.Outcome State Fault Refusal :=
  s.launchWith (s.convChecks conv)
    (.next (({ s with val := clampEnc (s.convAt conv).width.toNat (encodedValue (s.convAt conv) s.phy) } : State).done
      (decide ((maxEnc (s.convAt conv).width.toNat : Int) < encodedValue (s.convAt conv) s.phy))))

/-- `q` of R175: floor(raw * SD * 2^32 / SN), raw the low `WIDTH` bits of `VAL`. -/
def decodedQuantity (e : Conv) (val : Word) : Nat :=
  (val &&& maskBits e.width.toNat).toNat * e.csd.toNat * 2 ^ Config.phyFraction / e.csn.toNat

/-- The largest quantity of `PHY`, 2^63 - 1 (R175, R176). -/
def maxPhy : Nat := 2 ^ 63 - 1

/-- UDEC (R175, R176). -/
def execUdec (conv : Nat) (s : State) : Host.Outcome State Fault Refusal :=
  s.launchWith (s.convChecks conv)
    (.next (({ s with phy := BitVec.ofNat 64 (min (decodedQuantity (s.convAt conv) s.val) maxPhy) } : State).done
      (decide (maxPhy < decodedQuantity (s.convAt conv) s.val))))

end Sys2Proof.Machine
end

