-- ==== Sys2Proof/Machine/Encoder.lean ====
section
/-! DEFINITION. The encoder exchange and parity check: ENCRD, ENCCHK (45_encoder.md). -/

namespace Sys2Proof.Machine

/-- The procedure `Check(r12)` (R214): position to `VAL` on a pass; on a failure `VAL` is unspecified and the error
carries the two raw bytes. -/
def State.encCheck (s : State) (r12 : Bool) : State :=
  if parityPass s.cfg.kbitOrder (s.bufGet 0) (s.bufGet 1) then
    ({ s with val := position r12 (s.bufGet 0) (s.bufGet 1) } : State).done false
  else
    ({ s with val := s.any 32, draws := s.draws + 1 } : State).raise (.checksum (s.bufGet 0) (s.bufGet 1))

/-- The frame of the encoder read (R212): `ENC_FRAME`. -/
def State.encFrame (s : State) : List Byte := [s.cfg.encFrame0, s.cfg.encFrame1]

/-- ENCRD (R212). -/
def execEncrd (prof : Nat) (r12 : Bool) (s : State) : Host.Outcome State Fault Refusal :=
  s.launchWith (s.encChecks prof) ((s.memWrite 0 s.encFrame).runTx prof 2 fun t => t.encCheck r12)

/-- ENCCHK (R214): no launch check, no bus activity. -/
def execEncchk (r12 : Bool) (s : State) : Host.Outcome State Fault Refusal := .next (s.encCheck r12)

end Sys2Proof.Machine
end

