-- ==== Sys2Proof/Machine/Framing.lean ====
section
/-! DEFINITION. Register and command framing: SETP, GETP, CMD (44_framing.md). A frame is built in `BUF` from index 0 and
sent by one transaction (R190). -/

namespace Sys2Proof.Machine

/-- The frame of SETP (R192): `SET_TAG | ADDR`, then the packed value, not masked. -/
def State.setFrame (s : State) (reg : Nat) : List Byte :=
  (Config.setTag ||| (s.regAt reg).addr) :: packBytes s.val (s.regAt reg).width.toNat

/-- The frame of GETP (R194): `GET_TAG | ADDR`, then a zero byte for each byte of the value. -/
def State.getFrame (s : State) (reg : Nat) : List Byte :=
  (s.cfg.getTag ||| (s.regAt reg).addr) :: List.replicate (byteLength (s.regAt reg).width.toNat) 0#8

/-- The frame of CMD (R196): the command byte, OR-ed with the direction flag, then the packed argument if any. -/
def State.cmdFrame (s : State) (cmdByte : Byte) (dir : Bool) (aw : Nat) : List Byte :=
  (if dir then cmdByte ||| s.cfg.dirFlag else cmdByte) :: (if aw = 0 then [] else packBytes s.val aw)

/-- SETP (R192). -/
def execSetp (prof reg : Nat) (s : State) : Host.Outcome State Fault Refusal :=
  s.launchWith (s.registerChecks settable prof reg)
    ((s.memWrite 0 (s.setFrame reg)).runTx prof (1 + byteLength (s.regAt reg).width.toNat) fun t => t.done false)

/-- The value GETP returns (R194): the response in `BUF[1..n]`, masked, sign extended if `SGN` = 1. -/
def State.response (s : State) (e : RegSpec) : Word :=
  let u := unpackBytes (s.memRead 1 (byteLength e.width.toNat)) e.width.toNat
  if e.sgn then sextWord e.width.toNat u else zextWord e.width.toNat u

/-- GETP (R194): `VAL` is written only after a successful transaction. -/
def execGetp (prof reg : Nat) (s : State) : Host.Outcome State Fault Refusal :=
  s.launchWith (s.registerChecks gettable prof reg)
    ((s.memWrite 0 (s.getFrame reg)).runTx prof (1 + byteLength (s.regAt reg).width.toNat) fun t =>
      ({ t with val := t.response (t.regAt reg) } : State).done false)

/-- CMD (R196). -/
def execCmd (prof : Nat) (cmdByte : Byte) (dir : Bool) (aw : Nat) (s : State) : Host.Outcome State Fault Refusal :=
  s.launchWith (s.cmdChecks prof aw)
    ((s.memWrite 0 (s.cmdFrame cmdByte dir aw)).runTx prof (1 + argBytes aw) fun t => t.done false)

end Sys2Proof.Machine
end

