-- ==== Sys2Proof/Machine/Dispatch.lean ====
section
/-! DEFINITION. One arm per operation (30_encoding.md R100). -/

namespace Sys2Proof.Machine

def exec (i : Instr) (s : State) : Host.Outcome State Fault Refusal :=
  match i with
  | .nop => Sys2Proof.Machine.execNop s
  | .exec prof ib len => Sys2Proof.Machine.execExec prof ib len s
  | .pack w off => Sys2Proof.Machine.execPack w off s
  | .unpack w off => Sys2Proof.Machine.execUnpack w off s
  | .unpacks w off => Sys2Proof.Machine.execUnpacks w off s
  | .sext w => Sys2Proof.Machine.execSext w s
  | .uenc conv => Sys2Proof.Machine.execUenc conv s
  | .udec conv => Sys2Proof.Machine.execUdec conv s
  | .setp prof reg => Sys2Proof.Machine.execSetp prof reg s
  | .getp prof reg => Sys2Proof.Machine.execGetp prof reg s
  | .cmd prof cmdByte dir aw => Sys2Proof.Machine.execCmd prof cmdByte dir aw s
  | .encrd prof r12 => Sys2Proof.Machine.execEncrd prof r12 s
  | .encchk r12 => Sys2Proof.Machine.execEncchk r12 s

end Sys2Proof.Machine
end

