-- ==== Sys2Proof/Machine/HostPort.lean ====
section
/-! DEFINITION. The host register port (10_state.md R23, R31 to R37, R44, R46; 20_memory.md R62, R63, R67), the launch of
an operation (30_encoding.md R91, R101), reset (70_reset_and_hazards.md R260) and the input `bus_open` (R262). -/

namespace Sys2Proof.Machine

/-- The port ends an access with `ack`, no error; `v` is the read data, if it was a read. -/
def State.ack (s : State) (v : Option Word) : State := { s with answer := some ⟨false, v⟩ }

/-- The port refuses an access: `ack` with `err` (20_memory.md R63). -/
def State.nack (s : State) (v : Option Word) : State := { s with answer := some ⟨true, v⟩ }

/-- A write of `w` to `OP` (R23, R91): the word is stored and its operation runs; an illegal word is `BADOP` (R101). -/
def State.launch (s : State) (w : Word) : Host.Outcome State Fault Refusal :=
  match decode w with
  | .ok i => exec i { s with op := w }
  | .error _ => .next (({ s with op := w } : State).raiseConfig .badOp)

/-- The GPIO setup of a profile commit (R33): level high first, then the pad an output; no action for a line the block
does not have. -/
def State.padSetup (s : State) (k : Nat) : State :=
  if k < s.cfg.nsel then (s.csSet k true).csDirOut k else s

/-- The profile entry with a word written (R31): bits outside the field are ignored. `PCTL` commits on bit 0 (R32). -/
def Profile.writeWord (e : Profile) (w : ProfWord) (v : Word) : Profile :=
  match w with
  | .psel => { e with psel := v.setWidth 5 }
  | .prate => { e with prate := v }
  | .pmode => { e with pmode := v.setWidth 2 }
  | .ppre => { e with ppre := v }
  | .pibd => { e with pibd := v }
  | .ppost => { e with ppost := v }
  | .pcool => { e with pcool := v }
  | .pctl => { e with valid := v.getLsbD 0 }

/-- Whether a write of `v` to word `w` of an uncommitted profile commits it (R32). -/
def commitsProfile (w : ProfWord) (v : Word) : Bool :=
  match w with
  | .pctl => v.getLsbD 0
  | _ => false

/-- A host write to a word of `PROF[p]` (R32): ignored once `VALID` = 1; a commit also sets up the pad (R33). -/
def State.writeProf (s : State) (p : Nat) (w : ProfWord) (v : Word) : State :=
  if (s.profAt p).valid then s
  else
    let t := { s with profs := s.profs.set p ((s.profAt p).writeWord w v) }
    if commitsProfile w v then t.padSetup (s.lineOf p) else t

/-- The fields of a word written to a `REGSPEC` entry (R34); reserved bits are ignored. -/
def regSpecOfWord (v : Word) : RegSpec where
  addr := v.extractLsb' 0 8
  width := v.extractLsb' 8 6
  acc := v.extractLsb' 16 2
  sgn := v.getLsbD 20
  valid := v.getLsbD 31

/-- A host write to `REGSPEC[r]` (R34, R35): all fields of the word, `VALID` among them; ignored once `VALID` = 1. -/
def State.writeRegSpec (s : State) (r : Nat) (v : Word) : State :=
  if (s.regAt r).valid then s
  else { s with regspecs := s.regspecs.set r (regSpecOfWord v) }

/-- The conversion entry with a word written (R36); the reserved word ignores writes. -/
def Conv.writeWord (e : Conv) (w : ConvWord) (v : Word) : Conv :=
  match w with
  | .csn => { e with csn := v }
  | .csd => { e with csd := v }
  | .cctl => { e with width := v.extractLsb' 0 6, rnd := v.extractLsb' 8 2, valid := v.getLsbD 31 }
  | .reserved => e

/-- A host write to a word of `CONV[c]` (R36): ignored once `VALID` = 1. -/
def State.writeConv (s : State) (c : Nat) (w : ConvWord) (v : Word) : State :=
  if (s.convAt c).valid then s else { s with convs := s.convs.set c ((s.convAt c).writeWord w v) }

/-- A host write to a register other than `OP` (R46): a read-only register ignores it. -/
def State.writeReg (s : State) (r : HostReg) (v : Word) : State :=
  match r with
  | .op => s
  | .status => s
  | .errinfo => s
  | .val => { s with val := v }
  | .phyl => { s with phy := (s.phy >>> 32).setWidth 32 ++ v }
  | .phyh => { s with phy := v ++ s.phy.setWidth 32 }
  | .cslvl => s
  | .csoe => s
  | .busst => s
  | .cap => s
  | .proto => s
  | .prof p w => s.writeProf p w v
  | .regspec k => s.writeRegSpec k v
  | .conv c w => s.writeConv c w v
  | .buf i => s.memWrite i [v.setWidth 8]

/-- The acknowledgement of an `OP` write, given when the operation has completed (R47, 60_exceptions.md R231, R232). -/
def ackLaunch (o : Host.Outcome State Fault Refusal) : Host.Outcome State Fault Refusal :=
  match o with
  | .next t => .next (t.ack none)
  | .fault f => .fault f
  | .refused r => .refused r

/-- One host write access (20_memory.md R62, R63, R67). -/
def State.hostWrite (s : State) (off : BitVec 16) (v : Word) : Host.Outcome State Fault Refusal :=
  match regAtOffset s.cfg off with
  | none => .next (s.nack none)
  | some .op => ackLaunch (s.launch v)
  | some r => .next ((s.writeReg r v).ack none)

/-- One host read access: no side effect on the block (R67); a refused read returns an unspecified word (R63, U14). Every
read uses up one free value, needed or not (log 13). -/
def State.hostRead (s : State) (off : BitVec 16) : State :=
  match regAtOffset s.cfg off with
  | none => (s.nack (some (s.any 32))).drew 1
  | some r => (s.ack (some (s.readReg r))).drew 1

/-- Reset (R260, 10_state.md R43): the block's state is the table R43; the world around it and the model's own counters
go on (log 11). -/
def State.applyReset (s : State) : State :=
  { State.atReset s.cfg (s.resets + 1) with
    busOpen := s.busOpen, inputs := s.inputs, busScript := s.busScript, timerScript := s.timerScript,
    draws := s.draws }

/-- What one input does while no operation is running. -/
def State.serve (s : State) (i : Input) : Host.Outcome State Fault Refusal :=
  match i with
  | .write off v => s.hostWrite off v
  | .read off => .next (s.hostRead off)
  | .reset => .next s.applyReset
  | .busOpen level => .next { s with busOpen := level }

/-- Why an input is not served while an operation is running (R47; R261, U9). -/
def busyRefusal (i : Input) : Refusal :=
  match i with
  | .write _ _ => .portBusy
  | .read _ => .portBusy
  | .reset => .resetWhileBusy
  | .busOpen _ => .portBusy

/-- One turn of the block: serve the oldest input; with none the block idles and holds its state (60_exceptions.md R248). -/
def State.turn (s : State) : Host.Outcome State Fault Refusal :=
  match s.inputs with
  | [] => .next s
  | i :: rest =>
      if s.phase = .idle then { s with inputs := rest }.serve i else .refused (busyRefusal i)

/-- A host write of the word to `OP` placed before every other input, the sequencer idle (log 9). -/
def State.placeWord (s : State) (w : Word) : State :=
  { s with inputs := .write 0 w :: s.inputs, phase := .idle }

end Sys2Proof.Machine
end

