-- ==== Sys2Proof/Machine/Step.lean ====
section
/-! DEFINITION. The machine's step: one input served whole (10_state.md R47, 20_memory.md R68); and the placing of a
table word where the next step runs it. -/

namespace Sys2Proof.Machine

/-- One step of the block. -/
def step (s : State) : Host.Outcome State Fault Refusal := s.turn

/-- `s` with the operation word `w` about to be written to `OP`: the block fetches nothing (20_memory.md R71), so this
is the host write that launches it (log 9). -/
def State.withFetchWord (s : State) (nbits w : Nat) : State := s.placeWord (Sys2Proof.tableWord nbits w)

end Sys2Proof.Machine
end

