-- ==== Sys2Proof/Safety.lean ====
section
/-! DEFINITION. The terms claims are stated in: the invariant of the block, the shape of a transaction's trace (41_transaction.md
R138), what a transaction may change (R135), what it leaves when it succeeds, and what the environment answers. -/

namespace Sys2Proof.Machine

/-! ### Which operations run a transaction -/

/-- For an operation of the transaction family, its profile index and the frame it sends from `BUF[0]` (R122, R192, R194,
R196, R212). -/
def txOf (s : State) : Instr → Option (Nat × List Byte)
  | .nop => none
  | .exec prof _ len => some (prof, s.memRead 0 len)
  | .pack _ _ => none
  | .unpack _ _ => none
  | .unpacks _ _ => none
  | .sext _ => none
  | .uenc _ => none
  | .udec _ => none
  | .setp prof reg => some (prof, s.setFrame reg)
  | .getp prof reg => some (prof, s.getFrame reg)
  | .cmd prof cmdByte dir aw => some (prof, s.cmdFrame cmdByte dir aw)
  | .encrd prof _ => some (prof, s.encFrame)
  | .encchk _ => none

/-- The operations that write `VAL` after a transaction (R194, R212). -/
def writesVal : Instr → Bool
  | .getp _ _ => true
  | .encrd _ _ => true
  | _ => false

/-- A `ConfigurationError` with sub-code `c` (R236): `STATUS` = 0x00000c09, `ERRINFO` = the operation word, nothing else. -/
def State.configError (s : State) (c : Nat) : State :=
  { s with status := BitVec.ofNat 32 (0x009 + 0x100 * c), errinfo := s.op }

/-- A byte sequence as a number, the first byte most significant (42_codec.md R153, 20_memory.md R61). -/
def bigEndian (bs : List Byte) : Nat := bs.foldl (fun acc b => acc * 256 + b.toNat) 0

/-- `trunc` of 00_scope.md R9: toward zero. -/
def truncate (q : ℚ) : ℤ := if 0 ≤ q then ⌊q⌋ else ⌈q⌉

/-- y = physical * scaleFactor, exact (43_convert.md R171, R172). -/
def scaledQuantity (s : State) (conv : Nat) : ℚ :=
  ((s.phy.toInt : ℚ) / 2 ^ 32) * ((s.convAt conv).csn.toNat : ℚ) / ((s.convAt conv).csd.toNat : ℚ)

/-- r of R171, by the rounding rule of the entry. -/
def roundedQuantity (s : State) (conv : Nat) : ℤ :=
  if (s.convAt conv).rnd = 0 then truncate (scaledQuantity s conv)
  else if (s.convAt conv).rnd = 1 then ⌈scaledQuantity s conv⌉
  else truncate (scaledQuantity s conv - 1 / 2)

/-- q of R175: the masked raw value divided by the scale factor, floored to a multiple of 2^-32. -/
def dividedQuantity (s : State) (conv : Nat) : ℤ :=
  ⌊((s.val.toNat % 2 ^ (s.convAt conv).width.toNat : ℕ) : ℚ) * ((s.convAt conv).csd.toNat : ℚ) * 2 ^ 32 /
    ((s.convAt conv).csn.toNat : ℚ)⌋

/-- The launch checks of UENC and UDEC hold (R172, R175). -/
structure Convertible (s : State) (conv : Nat) : Prop where
  index : conv < s.cfg.nconv
  valid : (s.convAt conv).valid = true
  low : 1 ≤ (s.convAt conv).width.toNat
  high : (s.convAt conv).width.toNat ≤ 32
  csn : (s.convAt conv).csn ≠ 0
  csd : (s.convAt conv).csd ≠ 0
  rnd : (s.convAt conv).rnd ≠ 3

/-- The word the assembler writes to `OP` for an operation (30_encoding.md R102). -/
def asmWord : Instr → Nat
  | .nop => 0x00000000
  | .exec prof ib len => 0x10000000 ||| prof <<< 16 ||| ib.toNat <<< 9 ||| len
  | .pack w off => 0x20000000 ||| w <<< 16 ||| off
  | .unpack w off => 0x21000000 ||| w <<< 16 ||| off
  | .unpacks w off => 0x22000000 ||| w <<< 16 ||| off
  | .sext w => 0x23000000 ||| w <<< 16
  | .uenc conv => 0x30000000 ||| conv <<< 16
  | .udec conv => 0x31000000 ||| conv <<< 16
  | .setp prof reg => 0x40000000 ||| prof <<< 16 ||| reg <<< 8
  | .getp prof reg => 0x41000000 ||| prof <<< 16 ||| reg <<< 8
  | .cmd prof cmdByte dir aw => 0x50000000 ||| prof <<< 16 ||| cmdByte.toNat <<< 8 ||| dir.toNat <<< 7 ||| aw
  | .encrd prof r12 => 0x60000000 ||| prof <<< 16 ||| r12.toNat
  | .encchk r12 => 0x61000000 ||| r12.toNat

/-- The offsets of the register map (10_state.md R46). -/
def mappedOffset (c : Params) (o : Nat) : Bool :=
  decide (o % 4 = 0 ∧
    (o ≤ 0x0028 ∨ (0x1000 ≤ o ∧ o < 0x1000 + 0x20 * c.nprof) ∨ (0x3000 ≤ o ∧ o < 0x3000 + 4 * c.nreg) ∨
      (0x4000 ≤ o ∧ o < 0x4000 + 0x10 * c.nconv) ∨ (0x5000 ≤ o ∧ o < 0x5000 + 4 * c.bufsz)))

/-- The reserved bits of a defined (`opc`, `sub`), by the formats R92 to R98; no other top byte is defined. -/
def reservedBits (top : Nat) : Word :=
  if top = 0x00 then 0x00FFFFFF
  else if top = 0x10 then 0x0000FC00
  else if top = 0x20 ∨ top = 0x21 ∨ top = 0x22 then 0x00C0FF00
  else if top = 0x23 then 0x00C0FFFF
  else if top = 0x30 ∨ top = 0x31 then 0x0000FFFF
  else if top = 0x40 ∨ top = 0x41 then 0x000000FF
  else if top = 0x50 then 0x00000040
  else if top = 0x60 then 0x0000FFFE
  else 0x00FFFFFE

/-- The illegal words as 30_encoding.md R101 lists them. -/
def illegalWord (w : Word) : Bool :=
  let opc := w.toNat / 2 ^ 28
  let sub := w.toNat / 2 ^ 24 % 16
  decide (7 ≤ opc ∨ (opc = 0 ∧ w ≠ 0) ∨ (opc = 1 ∧ sub ≠ 0) ∨ (opc = 2 ∧ 4 ≤ sub) ∨
    ((opc = 3 ∨ opc = 4 ∨ opc = 6) ∧ 2 ≤ sub) ∨ (opc = 5 ∧ sub ≠ 0) ∨ w &&& reservedBits (w.toNat / 2 ^ 24) ≠ 0)

/-- How many of the bits of `b` numbered in `l` are 1. -/
def onesOf (b : Byte) (l : List Nat) : Nat := l.countP fun k => b.getLsbD k

/-- A response frame passes the parity check (45_encoder.md R211): k1 is the inverse of the parity of the odd positions, k0 of
the even ones. -/
def framePasses (o : KBitOrder) (hi lo : Byte) : Bool :=
  let k1 := if o = .k1High then hi.getLsbD 7 else hi.getLsbD 6
  let k0 := if o = .k1High then hi.getLsbD 6 else hi.getLsbD 7
  k1 == decide ((onesOf hi [5, 3, 1] + onesOf lo [7, 5, 3, 1]) % 2 = 0) &&
    k0 == decide ((onesOf hi [4, 2, 0] + onesOf lo [6, 4, 2, 0]) % 2 = 0)

/-- Which of the two comparisons of R211 bit `k` of the frame enters, a data bit by its position, a parity bit by what it is
compared with: true the odd one (k1), false the even one (k0). -/
def entersOdd (o : KBitOrder) (k : Nat) : Bool :=
  if k = 15 then decide (o = .k1High)
  else if k = 14 then decide (o = .k0High)
  else decide (k % 2 = 1)

/-- The two response bytes in the buffer as one 16-bit frame, byte 0 high. -/
def State.encoderFrame (s : State) : BitVec 16 := s.bufGet 0 ++ s.bufGet 1

/-- The next step of `s` serves the input `i` (10_state.md R47), `rest` follows. -/
structure Serves (s : State) (i : Input) (rest : List Input) : Prop where
  idle : s.phase = .idle
  next : s.inputs = i :: rest

/-! ### The events of a transaction (R138) -/

/-- `[SLEEP(n)]`: present iff `n > 0` (R134). -/
def optSleep (n : Word) : List Event := if n = 0 then [] else [.sleep n]

/-- From the mode set to the pre-delay, the fixup answered `fa`. -/
def openingEvents (p : Profile) (fa : XferAnswer) : List Event :=
  [.modeSet p.pmode .ok, .xfer p.pmode p.prate [Config.fixupByte] fa, .cs p.psel.toNat false] ++ optSleep p.ppre

/-- From the post-delay to the cooldown. -/
def closingEvents (p : Profile) : List Event :=
  optSleep p.ppost ++ [.cs p.psel.toNat true] ++ optSleep p.pcool

/-- One-byte exchanges, each but the last followed by the inter-byte sleep (R131). -/
def byteEvents (p : Profile) : List (Byte × Byte) → List Event
  | [] => []
  | [b] => [.xfer p.pmode p.prate [b.1] (.ok [b.2])]
  | b :: c :: bs => [.xfer p.pmode p.prate [b.1] (.ok [b.2]), .sleep p.pibd] ++ byteEvents p (c :: bs)

/-- One-byte exchanges, each followed by the inter-byte sleep: what precedes a failing byte (R138). -/
def sentEvents (p : Profile) (bs : List (Byte × Byte)) : List Event :=
  bs.flatMap fun b => [.xfer p.pmode p.prate [b.1] (.ok [b.2]), .sleep p.pibd]

/-- The payload of `tx` answered with `rx`, by the profile's strategy (R124, R130, R131). -/
def payloadEvents (p : Profile) (tx rx : List Byte) : List Event :=
  if p.pibd = 0 then [.xfer p.pmode p.prate tx (.ok rx)] else byteEvents p (tx.zip rx)

/-- A fixup answer has one byte or is a failure (00_scope.md R8). -/
def fixupLegal : XferAnswer → Bool
  | .ok rx => rx.length == 1
  | .fail _ => true

/-- The exchanges of a payload that fails with `e`: the whole frame at once, or byte after byte, the bytes `rx` received
before the failing one (R130, R131). -/
def failingEvents (p : Profile) (tx rx : List Byte) (e : Word) : List Event :=
  if p.pibd = 0 then [.xfer p.pmode p.prate tx (.fail e)]
  else sentEvents p ((tx.take rx.length).zip rx) ++ [.xfer p.pmode p.prate [tx.getD rx.length 0] (.fail e)]

/-- The forms of R138, for a frame `tx` sent with profile `p`: a failed mode set, a success (bulk or per-byte), a failed
payload exchange (bulk or per-byte). The last part says how the transaction ended: `none` success, else the error. -/
inductive TxTrace (p : Profile) (tx : List Byte) : List Event → Option OpError → Prop
  | modeFailure (e : Word) : TxTrace p tx [.modeSet p.pmode (.fail e)] (some (.modeSetFailed e))
  | success (fa : XferAnswer) (rx : List Byte) (hf : fixupLegal fa = true) (h : rx.length = tx.length) :
      TxTrace p tx (openingEvents p fa ++ payloadEvents p tx rx ++ closingEvents p) none
  | transferFailure (fa : XferAnswer) (rx : List Byte) (e : Word) (hf : fixupLegal fa = true)
      (h : rx.length < tx.length) :
      TxTrace p tx (openingEvents p fa ++ failingEvents p tx rx e ++ [.cs p.psel.toNat true])
        (some (.transferFailed e))

/-! ### What a transaction leaves alone (R135) -/

/-- What stays from `s` to `t` when a transaction with profile `prof` over `n` payload bytes was run between them, with
`OP` and the port untouched. `VAL` is said apart, because GETP and ENCRD write it. -/
structure TxFrame (s t : State) (prof n : Nat) : Prop where
  cfg : t.cfg = s.cfg
  op : t.op = s.op
  phy : t.phy = s.phy
  csoe : t.csoe = s.csoe
  profs : t.profs = s.profs
  regspecs : t.regspecs = s.regspecs
  convs : t.convs = s.convs
  answer : t.answer = s.answer
  busOpen : t.busOpen = s.busOpen
  inputs : t.inputs = s.inputs
  resets : t.resets = s.resets
  lines : ∀ j, j ≠ s.lineOf prof → t.cslvl.getLsbD j = s.cslvl.getLsbD j
  cells : ∀ a, n ≤ a → t.bufGet a = s.bufGet a

/-! ### A transaction that the environment lets succeed -/

/-- Profile `prof` may be used (launch checks (1) to (3) of R123), the parameters are legal, the bus is open. -/
structure Ready (s : State) (prof : Nat) : Prop where
  legal : s.cfg.legal = true
  index : prof < s.cfg.nprof
  valid : (s.profAt prof).valid = true
  line : s.lineOf prof < s.cfg.nsel
  busOpen : s.busOpen = true

/-- The launch checks of an operation of the transaction family hold (41_transaction.md R123, 44_framing.md R192, R194, R196,
45_encoder.md R212) and the bus is open; false of every other operation. -/
def Launches (s : State) : Instr → Prop
  | .nop => False
  | .exec prof _ len => Ready s prof ∧ 1 ≤ len ∧ len ≤ s.cfg.bufsz
  | .pack _ _ => False
  | .unpack _ _ => False
  | .unpacks _ _ => False
  | .sext _ => False
  | .uenc _ => False
  | .udec _ => False
  | .setp prof reg =>
      Ready s prof ∧ reg < s.cfg.nreg ∧ (s.regAt reg).valid = true ∧ ((s.regAt reg).acc = 2 ∨ (s.regAt reg).acc = 3) ∧
        1 ≤ (s.regAt reg).width.toNat ∧ (s.regAt reg).width.toNat ≤ 32
  | .getp prof reg =>
      Ready s prof ∧ reg < s.cfg.nreg ∧ (s.regAt reg).valid = true ∧ ((s.regAt reg).acc = 1 ∨ (s.regAt reg).acc = 3) ∧
        1 ≤ (s.regAt reg).width.toNat ∧ (s.regAt reg).width.toNat ≤ 32
  | .cmd prof _ _ aw => Ready s prof ∧ aw ≤ 32
  | .encrd prof _ => Ready s prof
  | .encchk _ => False

/-- Every sleep the timer script speaks of ends. -/
def TimerAnswers (s : State) : Prop := ∀ b ∈ s.timerScript, b = true

/-- The scripted answer that makes the fixup exchange answer `fa`. -/
def fixupReply : XferAnswer → Reply
  | .ok rx => .ok rx
  | .fail e => .fail e

/-- The scripted answers of a payload answered with `rx`, by strategy. -/
def payloadReplies (p : Profile) (rx : List Byte) : List (Option Reply) :=
  if p.pibd = 0 then [some (.ok rx)] else rx.map fun b => some (.ok [b])

/-- The scripted answers of a payload that fails with `e` after the bytes `rx`, by strategy. -/
def failingReplies (p : Profile) (rx : List Byte) (e : Word) : List (Option Reply) :=
  (if p.pibd = 0 then [] else rx.map fun b => some (.ok [b])) ++ [some (.fail e)]

/-- The environment answers one whole transaction with profile `p`: the mode set `ok`, the fixup `fa` (failure allowed:
R127), the payload `rx`; `rest` stays for later. -/
structure Answered (s : State) (p : Profile) (fa : XferAnswer) (rx : List Byte) (rest : List (Option Reply)) : Prop where
  script : ∃ m, s.busScript = some (.ok m) :: some (fixupReply fa) :: (payloadReplies p rx ++ rest)
  fixup : fixupLegal fa = true
  timer : TimerAnswers s

/-- What a successful transaction of the frame `tx` with profile `prof` leaves (R125 to R133): `len - 1` inter-byte sleeps in
the per-byte strategy (D12), the clock at the idle level of the mode (R38; R40 presumed, log 18). -/
structure TxDone (s t : State) (prof : Nat) (tx : List Byte) (fa : XferAnswer) (rx : List Byte)
    (rest : List (Option Reply)) : Prop where
  frame : TxFrame s t prof tx.length
  trace : t.trace =
    s.trace ++ (openingEvents (s.profAt prof) fa ++ payloadEvents (s.profAt prof) tx rx ++ closingEvents (s.profAt prof))
  bytes : t.memRead 0 tx.length = rx
  line : t.cslvl.getLsbD (s.lineOf prof) = true
  busmode : t.busmode = (s.profAt prof).pmode
  modev : t.modev = true
  clkIdle : t.clkIdle = cpol (s.profAt prof).pmode
  phase : t.phase = .idle
  script : t.busScript = rest

/-! ### The select lines inside a transaction (10_state.md R41) -/

/-- Phases in which no line is low. -/
def Phase.quiet : Phase → Bool
  | .idle => true
  | .modeSet => true
  | .fixup => true
  | .select => true
  | .preDelay => false
  | .xfer => false
  | .ibDelay => false
  | .postDelay => false
  | .deselect => false
  | .coolDown => true
  | .abort => false

/-- The lines while the sequencer runs: all high in a quiet phase, all but the running profile's otherwise. -/
def LinesOk (s : State) : Prop :=
  ∀ j, j < s.cfg.nsel →
    (s.phase.quiet = true ∨ j ≠ s.curProfile.psel.toNat) → s.cslvl.getLsbD j = true

/-- At most one line is low (R41). -/
def AtMostOneLow (s : State) : Prop :=
  ∀ j k, j < s.cfg.nsel → k < s.cfg.nsel → s.cslvl.getLsbD j = false → s.cslvl.getLsbD k = false → j = k

/-! ### The invariant of the block between steps -/

/-- The values `STATUS` can hold (10_state.md R26; 60_exceptions.md R231 to R236). -/
def legalStatus (st : Word) : Bool :=
  st ∈ [0x000#32, 0x010#32, 0x003#32, 0x005#32, 0x007#32, 0x109#32, 0x209#32, 0x309#32, 0x409#32, 0x509#32, 0x609#32,
    0x709#32]

/-- What holds whenever no operation runs. -/
structure Inv (s : State) : Prop where
  /-- the parameters are in the ranges of R6 -/
  legal : s.cfg.legal = true
  /-- R24, R47: between accesses the sequencer is idle -/
  idle : s.phase = .idle
  /-- R41, R28: every line the block has is high, bits above `NSEL` are 0 -/
  lines : s.cslvl = allHigh s.cfg.nsel
  /-- R28: bits of `CSOE` above `NSEL` are 0 -/
  pads : s.csoe &&& allHigh s.cfg.nsel = s.csoe
  /-- R33: the pad of every committed profile that names a line of the block is driven -/
  committed : ∀ p, (s.profAt p).valid = true → s.lineOf p < s.cfg.nsel → s.csoe.getLsbD (s.lineOf p) = true
  nprofs : s.profs.length = s.cfg.nprof
  nregs : s.regspecs.length = s.cfg.nreg
  nconvs : s.convs.length = s.cfg.nconv
  /-- the buffer is in canonical form and has no cell beyond `BUFSZ` (R37) -/
  bufForm : s.buf.wf = true
  bufRange : s.buf.within s.cfg.bufsz = true
  /-- R26: only the outcomes of R231 to R236 stand in `STATUS` -/
  status : legalStatus s.status = true
  /-- R134: no sleep of length 0 was requested -/
  sleeps : Event.sleep 0 ∉ s.trace

/-- The reset values that 10_state.md R43 states. -/
structure ResetTable (t : State) : Prop where
  op : t.op = 0
  status : t.status = 0
  errinfo : t.errinfo = 0
  cslvl : ∀ j, t.cslvl.getLsbD j = decide (j < t.cfg.nsel)
  csoe : t.csoe = 0
  modev : t.modev = false
  nprofs : t.profs.length = t.cfg.nprof
  nregs : t.regspecs.length = t.cfg.nreg
  nconvs : t.convs.length = t.cfg.nconv
  profs : ∀ p, (t.profAt p).valid = false
  regspecs : ∀ r, (t.regAt r).valid = false
  convs : ∀ c, (t.convAt c).valid = false
  phase : t.phase = .idle
  trace : t.trace = []

/-! ### How an operation can end (60_exceptions.md R238) -/

/-- The values `STATUS` can have after an operation under legal parameters (R238, R231 to R236). The length check of SETP,
GETP and CMD cannot fail then (R236, code 4). -/
def outcomes : Instr → List Word
  | .nop => [0]
  | .exec _ _ _ => [0, 0x709, 0x309, 0x409, 3, 5]
  | .pack _ _ => [0, 0x109, 0x409]
  | .unpack _ _ => [0, 0x109, 0x409]
  | .unpacks _ _ => [0, 0x109, 0x409]
  | .sext _ => [0, 0x109]
  | .uenc _ => [0, 0x10, 0x709, 0x309, 0x109, 0x609]
  | .udec _ => [0, 0x10, 0x709, 0x309, 0x109, 0x609]
  | .setp _ _ => [0, 0x709, 0x309, 0x209, 0x109, 3, 5]
  | .getp _ _ => [0, 0x709, 0x309, 0x209, 0x109, 3, 5]
  | .cmd _ _ _ _ => [0, 0x709, 0x309, 0x109, 3, 5]
  | .encrd _ _ => [0, 0x709, 0x309, 3, 5, 7]
  | .encchk _ => [0, 7]

end Sys2Proof.Machine
end

