-- ==== Sys2Proof/Certificates/Slice0/Obligations.lean ====
section
/-! DEFINITION. The statements for the provers, by the files of spec/. A statement about a value the spec leaves unspecified
says nothing of that value. Statements whose proof runs an operation generically assume the parameter ranges of
00_scope.md R6 (`Params.legal`), which every step keeps (`Obligations.StepKeepsInvariant`). -/

section

open Sys2Proof Sys2Proof.Machine

/-! ### 30_encoding.md -/

/-- The words X1 to X21 of 95_test_vectors.md section 2 decode to the fields shown there. -/
def Obligations.VectorWordsDecode : Prop :=
  decode 0x00000000 = .ok .nop ∧
  decode 0x10000003 = .ok (.exec 0 false 3) ∧
  decode 0x10010203 = .ok (.exec 1 true 3) ∧
  decode 0x10070010 = .ok (.exec 7 false 16) ∧
  decode 0x10FF0300 = .ok (.exec 255 true 256) ∧
  decode 0x200A0001 = .ok (.pack 10 1) ∧
  decode 0x2020000C = .ok (.pack 32 12) ∧
  decode 0x210C0000 = .ok (.unpack 12 0) ∧
  decode 0x22160001 = .ok (.unpacks 22 1) ∧
  decode 0x23160000 = .ok (.sext 22) ∧
  decode 0x30000000 = .ok (.uenc 0) ∧
  decode 0x31030000 = .ok (.udec 3) ∧
  decode 0x40000100 = .ok (.setp 0 1) ∧
  decode 0x41000000 = .ok (.getp 0 0) ∧
  decode 0x41021F00 = .ok (.getp 2 31) ∧
  decode 0x50005094 = .ok (.cmd 0 0x50 true 20) ∧
  decode 0x5000B800 = .ok (.cmd 0 0xB8 false 0) ∧
  decode 0x60010000 = .ok (.encrd 1 false) ∧
  decode 0x60010001 = .ok (.encrd 1 true) ∧
  decode 0x61000000 = .ok (.encchk false) ∧
  decode 0x61000001 = .ok (.encchk true)

/-- The encoder gives the word R102's assembler writes, for every operand value the fields of R99 admit. -/
def Obligations.EncodeIsAssemblerWord : Prop :=
  ∀ i : Instr, i.wf = true → (encode i).toNat = asmWord i

/-- Decoding an encoded operation gives it back, with every operand at every value its field admits (R91 to R100). -/
def Obligations.DecodeOfEncode : Prop :=
  ∀ i : Instr, i.wf = true → decode (encode i) = .ok i

/-- A word has one meaning: what decodes is well-formed and encodes to that word again. -/
def Obligations.EncodeOfDecode : Prop :=
  ∀ (w : Word) (i : Instr), decode w = .ok i → i.wf = true ∧ encode i = w

/-- R91: the rows of the opcode map are disjoint, and a word decodes exactly if it matches a row. -/
def Obligations.OpcodeRowsAreDisjoint : Prop :=
  ∀ w : Word,
    (∀ r ∈ opcodeMap, ∀ q ∈ opcodeMap, r.hits w = true → q.hits w = true → r = q) ∧
    ((∃ i, decode w = .ok i) ↔ ∃ r ∈ opcodeMap, r.hits w = true)

/-- R101: the illegal words are those listed; writing one to `OP` stores it and completes at once with `ConfigurationError`,
code 5, `ERRINFO` = the word, and nothing else. -/
def Obligations.IllegalWordsRaiseBadOp : Prop :=
  (∀ w : Word, (∃ r, decode w = .error r) ↔ illegalWord w = true) ∧
  ∀ (s : State) (w : Word) (rest : List Input), Serves s (.write 0x0000 w) rest → illegalWord w = true →
    step s = .next { s with inputs := rest, op := w, status := 0x00000509, errinfo := w, answer := some ⟨false, none⟩ }

/-! ### 10_state.md, 20_memory.md: launching an operation -/

/-- A step that serves a write of a legal word to `OP` is `exec` of the decoded operation, with `OP` holding the word, and
then the acknowledgement of the write (R23, R47, R91). The second clause is no rule of the spec but the model's choice (log 9):
`withFetchWord` places such a write before every other input and the sequencer in `IDLE`, so that the next step serves it. -/
def Obligations.StepRunsDecodedOperation : Prop :=
  (∀ (s : State) (w : Word) (rest : List Input) (i : Instr), Serves s (.write 0x0000 w) rest → decode w = .ok i →
    step s =
      match exec i { s with inputs := rest, op := w } with
      | .next t => .next { t with answer := some ⟨false, none⟩ }
      | .fault f => .fault f
      | .refused r => .refused r) ∧
  ∀ (s : State) (nbits w : Nat),
    Serves (s.withFetchWord nbits w) (.write 0x0000 (BitVec.ofNat 32 (w % 2 ^ nbits))) s.inputs

/-- R23: a write of a word to `OP` stores it and launches the operation it encodes; a read returns the last word written,
whatever its outcome, or 0 if none was written since reset. -/
def Obligations.OpHoldsLastWordWritten : Prop :=
  State.reset.op = 0 ∧
  ∀ (s t : State) (i : Input) (rest : List Input), s.cfg.legal = true → Serves s i rest → step s = .next t →
    (∀ w, i = .write 0x0000 w → t.op = w ∧
      ∀ j, decode w = .ok j → ∃ u, exec j { s with inputs := rest, op := w } = .next u ∧
        t = { u with answer := some ⟨false, none⟩ }) ∧
    (i = .read 0x0000 → t.answer = some ⟨false, some s.op⟩) ∧
    (i = .reset → t.op = 0) ∧
    ((∀ w, i ≠ .write 0x0000 w) → i ≠ .reset → t.op = s.op)

/-! ### 41_transaction.md: NOP and EXEC -/

/-- R121: the only effect of NOP, word 0x00000000, is that `STATUS`, `ERRINFO` and `OP` become 0. -/
def Obligations.NopClearsStatus : Prop :=
  decode 0x00000000 = .ok .nop ∧
  (∀ s : State, exec .nop s = .next { s with status := 0, errinfo := 0 }) ∧
  ∀ (s : State) (rest : List Input), Serves s (.write 0x0000 0x00000000) rest →
    step s = .next { s with inputs := rest, op := 0, status := 0, errinfo := 0, answer := some ⟨false, none⟩ }

/-- EXEC completes (R122 to R135): with the launch checks met and an environment that answers `ok`, the fixup answered in
any way, the frame is `BUF[0..len-1]`, the received bytes replace it, and `STATUS`, `ERRINFO` are 0. `ib` plays no part. (`TxDone`
counts the inter-byte sleeps as D12 does, and takes the clock's idle level from log 18.) -/
def Obligations.ExecTransfersPayload : Prop :=
  ∀ (s : State) (prof : Nat) (ib : Bool) (len : Nat) (fa : XferAnswer) (rx : List Byte) (rest : List (Option Reply)),
    Launches s (.exec prof ib len) → Answered s (s.profAt prof) fa rx rest → rx.length = len →
    ∃ t, exec (.exec prof ib len) s = .next t ∧
      TxDone s t prof ((List.range len).map s.bufGet) fa rx rest ∧ t.status = 0 ∧ t.errinfo = 0 ∧ t.val = s.val

/-- The launch checks of EXEC in their order (R123): codes 7, 3, 7, 4; nothing but `STATUS` and `ERRINFO` changes. That they
come before the test of `bus_open`, so that they report with `bus_open` = 0 too, is the model's choice (log 7). -/
def Obligations.ExecLaunchChecks : Prop :=
  ∀ (s : State) (prof : Nat) (ib : Bool) (len : Nat),
    (s.cfg.nprof ≤ prof → exec (.exec prof ib len) s = .next (s.configError 7)) ∧
    (prof < s.cfg.nprof → (s.profAt prof).valid = false → exec (.exec prof ib len) s = .next (s.configError 3)) ∧
    (prof < s.cfg.nprof → (s.profAt prof).valid = true → s.cfg.nsel ≤ s.lineOf prof →
      exec (.exec prof ib len) s = .next (s.configError 7)) ∧
    (prof < s.cfg.nprof → (s.profAt prof).valid = true → s.lineOf prof < s.cfg.nsel →
      (len = 0 ∨ s.cfg.bufsz < len) → exec (.exec prof ib len) s = .next (s.configError 4))

/-! ### 41_transaction.md: the transaction of EXEC, SETP, GETP, CMD and ENCRD -/

/-- R138, for every operation of the family that passes its launch checks: the events it appends are one of the listed
forms, for the frame it sends; the outcome fits the form; selects and deselects are equally many, on the profile's line
only, and no select precedes the mode set and the fixup. The per-byte forms have one inter-byte sleep between each two bytes (D12). -/
def Obligations.TransactionTraceShape : Prop :=
  ∀ (s t : State) (i : Instr) (prof : Nat) (tx : List Byte), s.cfg.legal = true → txOf s i = some (prof, tx) →
    exec i s = .next t → statusKind t.status ≠ 4 →
    ∃ evs r, TxTrace (s.profAt prof) tx evs r ∧ t.trace = s.trace ++ evs ∧
      (r = none → t.status = 0 ∨ ((∃ p r12, i = .encrd p r12) ∧ t.status = 0x007)) ∧
      (∀ e, r = some (.modeSetFailed e) → t.status = 0x003 ∧ t.errinfo = e) ∧
      (∀ e, r = some (.transferFailed e) → t.status = 0x005 ∧ t.errinfo = e) ∧
      evs.count (.cs (s.lineOf prof) false) = evs.count (.cs (s.lineOf prof) true) ∧
      (∀ k lvl, Event.cs k lvl ∈ evs → k = s.lineOf prof) ∧
      (∀ j k, evs[j]? = some (.cs k false) → 2 ≤ j)

/-- R126, R233: a failed mode set ends the operation at once. No select, no exchange, no sleep; the frame stays in the
buffer; `MODEV` is 0; `STATUS` is 3 and `ERRINFO` the bus's code. -/
def Obligations.ModeSetFailureEndsAtOnce : Prop :=
  ∀ (s : State) (i : Instr) (prof : Nat) (tx : List Byte) (e : Word) (rest : List (Option Reply)),
    Launches s i → txOf s i = some (prof, tx) → s.busScript = some (.fail e) :: rest →
    ∃ t, exec i s = .next t ∧ t.status = 0x003 ∧ t.errinfo = e ∧
      t.trace = s.trace ++ [.modeSet (s.profAt prof).pmode (.fail e)] ∧
      t.modev = false ∧ t.cslvl = s.cslvl ∧ t.clkIdle = s.clkIdle ∧ t.val = s.val ∧ t.phase = .idle ∧
      t.memRead 0 tx.length = tx ∧ t.busScript = rest ∧ TxFrame s t prof tx.length

/-- R132, R234: a failed payload exchange deselects as the very next action and ends the operation; the fixup's answer plays
no part (R127); the cells of the frame are unspecified, all others unchanged. In the per-byte strategy an inter-byte sleep stands
before the failing byte (D12). -/
def Obligations.PayloadFailureDeselects : Prop :=
  ∀ (s : State) (i : Instr) (prof : Nat) (tx : List Byte) (m : List Byte) (fa : XferAnswer) (rx : List Byte) (e : Word)
    (rest : List (Option Reply)),
    Launches s i → txOf s i = some (prof, tx) → fixupLegal fa = true → rx.length < tx.length → TimerAnswers s →
    s.busScript = some (.ok m) :: some (fixupReply fa) :: (failingReplies (s.profAt prof) rx e ++ rest) →
    ∃ t, exec i s = .next t ∧ t.status = 0x005 ∧ t.errinfo = e ∧
      t.trace = s.trace ++ (openingEvents (s.profAt prof) fa ++ failingEvents (s.profAt prof) tx rx e ++
        [.cs (s.lineOf prof) true]) ∧
      t.cslvl.getLsbD (s.lineOf prof) = true ∧ t.modev = true ∧ t.busmode = (s.profAt prof).pmode ∧
      t.val = s.val ∧ t.phase = .idle ∧ t.busScript = rest ∧ TxFrame s t prof tx.length

/-- R137, R272: if every request of the environment is answered, scripted or freely, a launched transaction operation
terminates, with the sequencer idle and every line that was high before high again (R41). -/
def Obligations.TransactionTerminates : Prop :=
  ∀ (s : State) (i : Instr), Launches s i → none ∉ s.busScript → TimerAnswers s →
    ∃ t, exec i s = .next t ∧ t.phase = .idle ∧
      (t.status = 0 ∨ t.status = 0x003 ∨ t.status = 0x005 ∨ ((∃ p r12, i = .encrd p r12) ∧ t.status = 0x007)) ∧
      ∀ j, s.cslvl.getLsbD j = true → t.cslvl.getLsbD j = true

/-- An operation stops short of a next state only in a transaction operation, and only because the bus is not open (R262; the
refusal is the model's, log 7) or because the environment never answers (R272; the fault is the model's, log 6). A
mode-set or fixup request that is never answered stops it there. -/
def Obligations.OnlyEnvironmentStopsAnOperation : Prop :=
  (∀ (s : State) (i : Instr), s.cfg.legal = true →
    (∃ t, exec i s = .next t) ∨
    ((txOf s i).isSome = true ∧ s.busOpen = false ∧ exec i s = .refused .busNotOpen) ∨
    ((txOf s i).isSome = true ∧ (none ∈ s.busScript ∨ false ∈ s.timerScript) ∧
      ∃ p, exec i s = .fault (.unanswered p))) ∧
  (∀ (s : State) (i : Instr) (rest : List (Option Reply)), Launches s i → s.busScript = none :: rest →
    exec i s = .fault (.unanswered .modeSet)) ∧
  ∀ (s : State) (i : Instr) (m : List Byte) (rest : List (Option Reply)), Launches s i →
    s.busScript = some (.ok m) :: none :: rest → exec i s = .fault (.unanswered .fixup)

/-- R135: what a transaction operation leaves alone, whichever way it ends. `VAL` changes only where GETP or ENCRD succeeds or
ENCRD's check fails (R194, R212). -/
def Obligations.TransactionFrame : Prop :=
  ∀ (s t : State) (i : Instr) (prof : Nat) (tx : List Byte), s.cfg.legal = true → txOf s i = some (prof, tx) →
    exec i s = .next t →
    TxFrame s t prof tx.length ∧ (writesVal i = false → t.val = s.val) ∧
      (t.status ≠ 0 → t.status ≠ 0x007 → t.val = s.val)

/-- The transition relation of the sequencer (R137): where each phase leads, and the two failure exits. -/
def Obligations.SequencerTransitions : Prop :=
  (∀ s t : State, s.seqStep = .ok t →
    match s.phase with
    | .idle => t = s
    | .modeSet => t.phase = .fixup
    | .fixup => t.phase = .select
    | .select => t.phase = if s.curProfile.ppre = 0 then .xfer else .preDelay
    | .preDelay => t.phase = .xfer
    | .xfer =>
        t.phase =
          if s.curProfile.pibd ≠ 0 ∧ s.idx.toNat + 1 < s.curlen.toNat then .ibDelay
          else if s.curProfile.ppost = 0 then .deselect else .postDelay
    | .ibDelay => t.phase = .xfer ∧ t.idx = s.idx + 1
    | .postDelay => t.phase = .deselect
    | .deselect => t.phase = if s.curProfile.pcool = 0 then .idle else .coolDown
    | .coolDown => t.phase = .idle
    | .abort => t.phase = .idle) ∧
  (∀ (s t : State) (e : Word), s.seqStep = .error (.modeSetFailed t e) → s.phase = .modeSet ∧ t.phase = .idle) ∧
  ∀ (s t : State) (e : Word), s.seqStep = .error (.aborting t e) → s.phase = .xfer ∧ t.phase = .abort

/-- The procedure `Transact` (R125) is a run of the phase transitions of R137 from `MODESET`: at most 2 * len + 6 of them, to
`IDLE` on success, with the same stop otherwise. -/
def Obligations.TransactIsSequencerRun : Prop :=
  ∀ (s : State) (prof len : Nat), 1 ≤ len → len < 512 →
    ∃ k, k ≤ 2 * len + 6 ∧ State.seqRun k (s.beginTx prof len) = s.transact prof len ∧
      ∀ t, s.transact prof len = .ok t → t.phase = .idle

/-- R38, R127, R128: the fixup is one exchange with no select change; after a successful one the bus clock rests at the level of
the profile's mode, and still does when the select line falls. That mode m rests at bit 1 of m is R40's sentence from general
knowledge (G7), presumed by the model (log 18). -/
def Obligations.FixupSetsClockBeforeSelect : Prop :=
  ∀ s t : State, s.phase = .fixup → s.seqStep = .ok t →
    ∃ a, t.trace = s.trace ++ [.xfer s.curProfile.pmode s.curProfile.prate [0x00] a] ∧ t.cslvl = s.cslvl ∧
      t.buf = s.buf ∧ t.val = s.val ∧ t.errinfo = s.errinfo ∧ t.phase = .select ∧
      ((∃ rx, a = .ok rx) → t.clkIdle = s.curProfile.pmode.getLsbD 1) ∧
      ∃ u, t.seqStep = .ok u ∧ u.trace = t.trace ++ [.cs s.curProfile.psel.toNat false] ∧ u.clkIdle = t.clkIdle

/-- R41: from all lines high, every phase keeps all lines high but the running profile's, and all of them outside the phases
between select and deselect; so at most one line is ever low. -/
def Obligations.SelectLinesStayExclusive : Prop :=
  (∀ (s : State) (prof len : Nat), (∀ j, j < s.cfg.nsel → s.cslvl.getLsbD j = true) → LinesOk (s.beginTx prof len)) ∧
  (∀ s t : State, s.cfg.nsel ≤ 32 → LinesOk s →
    (s.seqStep = .ok t ∨ (∃ e, s.seqStep = .error (.modeSetFailed t e)) ∨ ∃ e, s.seqStep = .error (.aborting t e)) →
    LinesOk t) ∧
  ∀ s : State, LinesOk s → AtMostOneLow s ∧ (s.phase = .idle → ∀ j, j < s.cfg.nsel → s.cslvl.getLsbD j = true)

/-! ### 42_codec.md -/

/-- R150, R151: `Pack(v, w)` is ceil(w / 8) bytes, byte i the bits of `v` from 8 * (n - i - 1), most significant first; it keeps
the low 8 * n bits of `v`, is not masked to `w`, and depends on `w` through the byte length alone. -/
def Obligations.PackEmitsBytesMostSignificantFirst : Prop :=
  ∀ (v : Word) (w : Nat), 1 ≤ w → w ≤ 32 →
    (packBytes v w).length = byteLength w ∧
    8 * (byteLength w - 1) < w ∧ w ≤ 8 * byteLength w ∧
    (∀ i, i < byteLength w →
      (packBytes v w)[i]? = some (BitVec.ofNat 8 (v.toNat / 2 ^ (8 * (byteLength w - i - 1)) % 256))) ∧
    bigEndian (packBytes v w) = v.toNat % 2 ^ (8 * byteLength w) ∧
    ∀ w', byteLength w' = byteLength w → packBytes v w' = packBytes v w

/-- PACK (R152): the packed bytes of `VAL` stand at `off`, every other cell and all else but `STATUS` and `ERRINFO` is as
before. -/
def Obligations.PackWritesPackedBytes : Prop :=
  ∀ (s : State) (w off : Nat), 1 ≤ w → w ≤ 32 → off + byteLength w ≤ s.cfg.bufsz →
    ∃ t m, exec (.pack w off) s = .next t ∧ t = { s with buf := m, status := 0, errinfo := 0 } ∧
      ∀ a, t.bufGet a =
        if off ≤ a ∧ a < off + byteLength w then
          BitVec.ofNat 8 (s.val.toNat / 2 ^ (8 * (byteLength w - (a - off) - 1)) % 256)
        else s.bufGet a

/-- UNPACK (R153, R154): `VAL` is the big-endian value of the bytes at `off`, modulo 2^w; nothing else but `STATUS` and `ERRINFO`
changes. -/
def Obligations.UnpackLoadsMaskedValue : Prop :=
  ∀ (s : State) (w off : Nat), 1 ≤ w → w ≤ 32 → off + byteLength w ≤ s.cfg.bufsz →
    exec (.unpack w off) s = .next { s with
      val := BitVec.ofNat 32 (bigEndian ((List.range (byteLength w)).map fun i => s.bufGet (off + i)) % 2 ^ w),
      status := 0, errinfo := 0 }

/-- UNPACKS (R156): as UNPACK, the masked value read as a two's-complement number of `w` bits. -/
def Obligations.UnpacksLoadsSignedValue : Prop :=
  ∀ (s : State) (w off : Nat), 1 ≤ w → w ≤ 32 → off + byteLength w ≤ s.cfg.bufsz →
    ∃ u : Nat, u = bigEndian ((List.range (byteLength w)).map fun i => s.bufGet (off + i)) % 2 ^ w ∧
      exec (.unpacks w off) s = .next { s with
        val := if u < 2 ^ (w - 1) then BitVec.ofNat 32 u else BitVec.ofInt 32 ((u : Int) - 2 ^ w),
        status := 0, errinfo := 0 }

/-- SEXT (R155): bits at and above `w` are OR-ed with bit `w - 1` of `VAL`; no bit is cleared. -/
def Obligations.SextOrsSignBits : Prop :=
  ∀ (s : State) (w : Nat), 1 ≤ w → w ≤ 32 →
    ∃ v, exec (.sext w) s = .next { s with val := v, status := 0, errinfo := 0 } ∧
      ∀ j, j < 32 → v.getLsbD j = (s.val.getLsbD j || (decide (w ≤ j) && s.val.getLsbD (w - 1)))

/-- The launch checks of PACK, UNPACK, UNPACKS and SEXT in their order (R152, R154, R155, R156): codes 1, 4. -/
def Obligations.CodecLaunchChecks : Prop :=
  ∀ (s : State) (w off : Nat),
    (∀ i ∈ [Instr.pack w off, .unpack w off, .unpacks w off],
      (w = 0 ∨ 32 < w → exec i s = .next (s.configError 1)) ∧
      (1 ≤ w → w ≤ 32 → s.cfg.bufsz < off + byteLength w → exec i s = .next (s.configError 4))) ∧
    (w = 0 ∨ 32 < w → exec (.sext w) s = .next (s.configError 1))

/-- R157: `Pack` drops the bits at and above 8 * byteLength(w), `Unpack` clears those at and above `w`, so the two keep `v` modulo
2^w; and no codec operation raises an error because of the value of `VAL`. -/
def Obligations.SilentTruncation : Prop :=
  (∀ (v : Word) (w : Nat), 1 ≤ w → w ≤ 32 →
    bigEndian (packBytes v w) = v.toNat % 2 ^ (8 * byteLength w) ∧
    (unpackBytes (packBytes v w) w).toNat = v.toNat % 2 ^ w) ∧
  (∀ (bs : List Byte) (w : Nat), 1 ≤ w → w ≤ 32 → (unpackBytes bs w).toNat < 2 ^ w) ∧
  ∀ (s t : State) (v : Word) (w off : Nat),
    ∀ i ∈ [Instr.pack w off, .unpack w off, .unpacks w off, .sext w], exec i s = .next t →
      ∃ u, exec i { s with val := v } = .next u ∧ u.status = t.status

/-- R158: PACK then UNPACK at the same place restores every value that fits `w` bits; PACK then UNPACKS every value that fits
`w` bits as a signed number. -/
def Obligations.CodecRoundTrip : Prop :=
  ∀ (s : State) (w off : Nat), 1 ≤ w → w ≤ 32 → off + byteLength w ≤ s.cfg.bufsz →
    ∃ t u x, exec (.pack w off) s = .next t ∧ exec (.unpack w off) t = .next u ∧ exec (.unpacks w off) t = .next x ∧
      (s.val.toNat < 2 ^ w → u.val = s.val) ∧
      (-(2 ^ (w - 1) : Int) ≤ s.val.toInt → s.val.toInt < 2 ^ (w - 1) → x.val = s.val)

/-- R156: UNPACKS leaves what UNPACK then SEXT leaves (`OP` apart, which the host's write sets), and stops at the same launch
checks as UNPACK. -/
def Obligations.UnpacksIsUnpackThenSext : Prop :=
  ∀ (s : State) (w off : Nat),
    (1 ≤ w → w ≤ 32 → off + byteLength w ≤ s.cfg.bufsz →
      ∃ t, exec (.unpack w off) s = .next t ∧ exec (.unpacks w off) s = exec (.sext w) t) ∧
    (¬ (1 ≤ w ∧ w ≤ 32 ∧ off + byteLength w ≤ s.cfg.bufsz) → exec (.unpacks w off) s = exec (.unpack w off) s)

/-! ### 43_convert.md -/

/-- UENC (R171 to R173), over the rationals: `VAL` is the rounded product clamped to 0 .. 2^W - 1, `SAT` reports the upper
clamp; nothing else but `STATUS` and `ERRINFO` changes. -/
def Obligations.UencEncodesAndSaturates : Prop :=
  ∀ (s : State) (conv : Nat), Convertible s conv →
    exec (.uenc conv) s = .next { s with
      val := BitVec.ofNat 32
        (max 0 (min (roundedQuantity s conv) (2 ^ (s.convAt conv).width.toNat - 1))).toNat,
      status := if roundedQuantity s conv > 2 ^ (s.convAt conv).width.toNat - 1 then 0x010 else 0,
      errinfo := 0 }

/-- UDEC (R174 to R176), over the rationals: `PHY` is the exact quotient floored to a multiple of 2^-32, saturated at 2^63 - 1;
nothing else but `STATUS` and `ERRINFO` changes. -/
def Obligations.UdecDividesAndFloors : Prop :=
  ∀ (s : State) (conv : Nat), Convertible s conv →
    exec (.udec conv) s = .next { s with
      phy := BitVec.ofNat 64 (min (dividedQuantity s conv) (2 ^ 63 - 1)).toNat,
      status := if dividedQuantity s conv > 2 ^ 63 - 1 then 0x010 else 0,
      errinfo := 0 }

/-- The launch checks of UENC and UDEC in their order (R172, R175): codes 7, 3, 1, 6. -/
def Obligations.ConverterLaunchChecks : Prop :=
  ∀ (s : State) (conv : Nat), ∀ i ∈ [Instr.uenc conv, .udec conv],
    (s.cfg.nconv ≤ conv → exec i s = .next (s.configError 7)) ∧
    (conv < s.cfg.nconv → (s.convAt conv).valid = false → exec i s = .next (s.configError 3)) ∧
    (conv < s.cfg.nconv → (s.convAt conv).valid = true →
      ((s.convAt conv).width = 0 ∨ 32 < (s.convAt conv).width.toNat) → exec i s = .next (s.configError 1)) ∧
    (conv < s.cfg.nconv → (s.convAt conv).valid = true → (s.convAt conv).width ≠ 0 →
      (s.convAt conv).width.toNat ≤ 32 → ((s.convAt conv).csn = 0 ∨ (s.convAt conv).csd = 0 ∨ (s.convAt conv).rnd = 3) →
      exec i s = .next (s.configError 6))

/-- The corner cases (a) to (h) of UENC that R178 lists, for y the exact product and W the width. -/
def Obligations.UencCornerCases : Prop :=
  ∀ (s t : State) (conv : Nat), Convertible s conv → exec (.uenc conv) s = .next t →
    (s.phy = 0 → t.val = 0) ∧
    (s.phy.toInt < 0 → t.val = 0 ∧ statusSat t.status = false) ∧
    ((s.convAt conv).rnd = 2 → scaledQuantity s conv < 3 / 2 → t.val = 0) ∧
    ((s.convAt conv).rnd = 1 → 0 < scaledQuantity s conv → 1 ≤ t.val.toNat) ∧
    (∀ n : Nat, 1 ≤ n → n < 2 ^ (s.convAt conv).width.toNat → scaledQuantity s conv = n →
      t.val.toNat = if (s.convAt conv).rnd = 2 then n - 1 else n) ∧
    (scaledQuantity s conv = 2 ^ (s.convAt conv).width.toNat →
      t.val.toNat = 2 ^ (s.convAt conv).width.toNat - 1 ∧
        statusSat t.status = decide ((s.convAt conv).rnd ≠ 2)) ∧
    (∀ (p : BitVec 64) (u : State), s.phy.toInt ≤ p.toInt → exec (.uenc conv) { s with phy := p } = .next u →
      t.val.toNat ≤ u.val.toNat) ∧
    ((s.convAt conv).width = 32 → statusSat t.status = true → t.val = 0xFFFFFFFF)

/-! ### 44_framing.md -/

/-- SETP completes (R190, R192): the frame is the address (`SET_TAG` is 0) and the packed value of `VAL`, unmasked; `VAL` is
unchanged, the received bytes stand in the buffer. (Sleeps as D12, idle level as log 18: `TxDone`.) -/
def Obligations.SetpSendsPackedValue : Prop :=
  ∀ (s : State) (prof reg : Nat) (fa : XferAnswer) (rx : List Byte) (rest : List (Option Reply)),
    Launches s (.setp prof reg) → Answered s (s.profAt prof) fa rx rest →
    rx.length = 1 + byteLength (s.regAt reg).width.toNat →
    ∃ t, exec (.setp prof reg) s = .next t ∧
      TxDone s t prof ((s.regAt reg).addr :: packBytes s.val (s.regAt reg).width.toNat) fa rx rest ∧
      t.status = 0 ∧ t.errinfo = 0 ∧ t.val = s.val

/-- GETP completes (R190, R194): the frame is `GET_TAG | ADDR` and zero bytes; `VAL` is the value of the bytes received after the
first, masked to the width, sign extended for a signed register. (Sleeps as D12, idle level as log 18: `TxDone`.) -/
def Obligations.GetpReturnsResponse : Prop :=
  ∀ (s : State) (prof reg : Nat) (fa : XferAnswer) (b : Byte) (rx : List Byte) (rest : List (Option Reply)),
    Launches s (.getp prof reg) → Answered s (s.profAt prof) fa (b :: rx) rest →
    rx.length = byteLength (s.regAt reg).width.toNat →
    ∃ t, exec (.getp prof reg) s = .next t ∧
      TxDone s t prof ((s.cfg.getTag ||| (s.regAt reg).addr) :: List.replicate rx.length 0x00) fa (b :: rx) rest ∧
      t.status = 0 ∧ t.errinfo = 0 ∧
      ∃ u : Nat, u = bigEndian rx % 2 ^ (s.regAt reg).width.toNat ∧
        t.val =
          if (s.regAt reg).sgn = true ∧ 2 ^ ((s.regAt reg).width.toNat - 1) ≤ u then
            BitVec.ofInt 32 ((u : Int) - 2 ^ (s.regAt reg).width.toNat)
          else BitVec.ofNat 32 u

/-- CMD completes (R195, R196): the frame is the command byte, OR-ed with `DIR_FLAG` if `dir` is 1, and the packed argument if
`aw` is not 0; `VAL` is unchanged. (Sleeps as D12, idle level as log 18: `TxDone`.) -/
def Obligations.CmdSendsCommandAndArgument : Prop :=
  ∀ (s : State) (prof : Nat) (cmdByte : Byte) (dir : Bool) (aw : Nat) (fa : XferAnswer) (rx : List Byte)
    (rest : List (Option Reply)),
    Launches s (.cmd prof cmdByte dir aw) → Answered s (s.profAt prof) fa rx rest →
    rx.length = 1 + (if aw = 0 then 0 else byteLength aw) →
    ∃ t, exec (.cmd prof cmdByte dir aw) s = .next t ∧
      TxDone s t prof
        ((if dir then cmdByte ||| s.cfg.dirFlag else cmdByte) :: (if aw = 0 then [] else packBytes s.val aw)) fa rx rest ∧
      t.status = 0 ∧ t.errinfo = 0 ∧ t.val = s.val

/-- The launch checks of SETP and GETP in their order (R191, R192, R194): codes 7, 7, 3, 3, 7, 2, 1. (Check (8), code 4, cannot fail
under legal parameters: `Obligations.OperationsEndAsTabulated`.) That they come before the test of `bus_open`, so that they report
with `bus_open` = 0 too, is the model's choice (log 7). -/
def Obligations.RegisterLaunchChecks : Prop :=
  ∀ (s : State) (prof reg : Nat) (i : Instr) (forbidden : BitVec 2),
    (i = .setp prof reg ∧ forbidden = 1 ∨ i = .getp prof reg ∧ forbidden = 2) →
    (s.cfg.nprof ≤ prof → exec i s = .next (s.configError 7)) ∧
    (prof < s.cfg.nprof → s.cfg.nreg ≤ reg → exec i s = .next (s.configError 7)) ∧
    (prof < s.cfg.nprof → reg < s.cfg.nreg → (s.profAt prof).valid = false → exec i s = .next (s.configError 3)) ∧
    (prof < s.cfg.nprof → reg < s.cfg.nreg → (s.profAt prof).valid = true → (s.regAt reg).valid = false →
      exec i s = .next (s.configError 3)) ∧
    (prof < s.cfg.nprof → reg < s.cfg.nreg → (s.profAt prof).valid = true → (s.regAt reg).valid = true →
      s.cfg.nsel ≤ s.lineOf prof → exec i s = .next (s.configError 7)) ∧
    (prof < s.cfg.nprof → reg < s.cfg.nreg → (s.profAt prof).valid = true → (s.regAt reg).valid = true →
      s.lineOf prof < s.cfg.nsel → ((s.regAt reg).acc = 0 ∨ (s.regAt reg).acc = forbidden) →
      exec i s = .next (s.configError 2)) ∧
    (prof < s.cfg.nprof → reg < s.cfg.nreg → (s.profAt prof).valid = true → (s.regAt reg).valid = true →
      s.lineOf prof < s.cfg.nsel → (s.regAt reg).acc ≠ 0 → (s.regAt reg).acc ≠ forbidden →
      ((s.regAt reg).width = 0 ∨ 32 < (s.regAt reg).width.toNat) → exec i s = .next (s.configError 1))

/-- The launch checks of CMD (R196) and ENCRD (R212) in their order: codes 7, 3, 7 and, for CMD, 1. That they come before the test
of `bus_open`, so that they report with `bus_open` = 0 too, is the model's choice (log 7). -/
def Obligations.CmdAndEncrdLaunchChecks : Prop :=
  ∀ (s : State) (prof : Nat) (cmdByte : Byte) (dir : Bool) (aw : Nat) (r12 : Bool),
    (∀ i ∈ [Instr.cmd prof cmdByte dir aw, .encrd prof r12],
      (s.cfg.nprof ≤ prof → exec i s = .next (s.configError 7)) ∧
      (prof < s.cfg.nprof → (s.profAt prof).valid = false → exec i s = .next (s.configError 3)) ∧
      (prof < s.cfg.nprof → (s.profAt prof).valid = true → s.cfg.nsel ≤ s.lineOf prof →
        exec i s = .next (s.configError 7))) ∧
    (prof < s.cfg.nprof → (s.profAt prof).valid = true → s.lineOf prof < s.cfg.nsel → 32 < aw →
      exec (.cmd prof cmdByte dir aw) s = .next (s.configError 1))

/-- R197: CMD is exactly the command byte in `BUF[0]`, then PACK of the argument at 1, then EXEC, run as one operation. -/
def Obligations.CommandIsPackThenExec : Prop :=
  ∀ (s : State) (prof : Nat) (cmdByte : Byte) (dir ib : Bool) (aw : Nat), s.cfg.legal = true → prof < s.cfg.nprof →
    (s.profAt prof).valid = true → s.lineOf prof < s.cfg.nsel →
    ∀ b, b = s.memWrite 0 [if dir then cmdByte ||| s.cfg.dirFlag else cmdByte] →
      exec (.cmd prof cmdByte dir 0) s = exec (.exec prof ib 1) b ∧
      (1 ≤ aw → aw ≤ 32 → ∃ t, exec (.pack aw 1) b = .next t ∧
        exec (.cmd prof cmdByte dir aw) s = exec (.exec prof ib (1 + byteLength aw)) t)

/-! ### 45_encoder.md -/

/-- ENCRD completes (R212): the frame is `ENC_FRAME`; the two bytes received are checked as R211 says; on a pass `VAL` is the
position (R213; the 12-bit form is the spec's from general knowledge, log 16), on a failure the error carries both bytes and
`VAL` is unspecified. (Sleeps as D12, idle level as log 18: `TxDone`.) -/
def Obligations.EncrdReturnsPosition : Prop :=
  ∀ (s : State) (prof : Nat) (r12 : Bool) (fa : XferAnswer) (hi lo : Byte) (rest : List (Option Reply)),
    Launches s (.encrd prof r12) → Answered s (s.profAt prof) fa [hi, lo] rest →
    ∃ t, exec (.encrd prof r12) s = .next t ∧
      TxDone s t prof [s.cfg.encFrame0, s.cfg.encFrame1] fa [hi, lo] rest ∧
      (framePasses s.cfg.kbitOrder hi lo = true → t.status = 0 ∧ t.errinfo = 0 ∧
        t.val = BitVec.ofNat 32 ((hi.toNat % 64 * 256 + lo.toNat) / (if r12 then 4 else 1))) ∧
      (framePasses s.cfg.kbitOrder hi lo = false → t.status = 0x007 ∧
        t.errinfo = BitVec.ofNat 32 (hi.toNat * 256 + lo.toNat))

/-- ENCCHK (R211, R213, R214): the check on `BUF[0..1]`; nothing but `VAL`, `STATUS` and `ERRINFO` changes (and the model's count
of free values, when one is drawn). The 12-bit form is the spec's from general knowledge (log 16). -/
def Obligations.EncchkValidatesParity : Prop :=
  ∀ (s : State) (r12 : Bool),
    (framePasses s.cfg.kbitOrder (s.bufGet 0) (s.bufGet 1) = true →
      exec (.encchk r12) s = .next { s with
        val := BitVec.ofNat 32 (((s.bufGet 0).toNat % 64 * 256 + (s.bufGet 1).toNat) / (if r12 then 4 else 1)),
        status := 0, errinfo := 0 }) ∧
    (framePasses s.cfg.kbitOrder (s.bufGet 0) (s.bufGet 1) = false →
      ∃ v, exec (.encchk r12) s = .next { s with
        val := v, draws := s.draws + 1, status := 0x007,
        errinfo := BitVec.ofNat 32 ((s.bufGet 0).toNat * 256 + (s.bufGet 1).toNat) })

/-- R217: flipping any one of the 16 bits of a passing frame makes it fail, with the frame in `ERRINFO`; flipping two bits that
enter the same comparison, two data bits or a data bit and the parity bit it is compared with, leaves it passing. -/
def Obligations.SingleBitErrorsAreCaught : Prop :=
  ∀ (s t u : State) (r12 : Bool), t.cfg = s.cfg → exec (.encchk r12) s = .next u → u.status = 0 →
    (∀ k, k < 16 → t.encoderFrame = s.encoderFrame ^^^ (1#16 <<< k) →
      ∃ v, exec (.encchk r12) t = .next v ∧ v.status = 0x007 ∧ v.errinfo = t.encoderFrame.setWidth 32) ∧
    (∀ j k, j < 16 → k < 16 → j ≠ k → entersOdd s.cfg.kbitOrder j = entersOdd s.cfg.kbitOrder k →
      t.encoderFrame = s.encoderFrame ^^^ (1#16 <<< j) ^^^ (1#16 <<< k) →
      ∃ v, exec (.encchk r12) t = .next v ∧ v.status = 0)

/-- R215, R216: the source's examples. {0xC0, 0x00} passes with position 0 and {0x00, 0x00} fails under either `KBIT_ORDER`;
{0x53, 0x90} fails and {0x93, 0x90} passes under `K1_HIGH`, and {0x53, 0x90} passes under `K0_HIGH`. -/
def Obligations.EncoderExamples : Prop :=
  ∀ s : State,
    (s.bufGet 0 = 0xC0 → s.bufGet 1 = 0x00 →
      exec (.encchk false) s = .next { s with val := 0, status := 0, errinfo := 0 }) ∧
    (s.bufGet 0 = 0x00 → s.bufGet 1 = 0x00 →
      ∃ t, exec (.encchk false) s = .next t ∧ t.status = 0x007 ∧ t.errinfo = 0x00000000) ∧
    (s.cfg.kbitOrder = .k1High → s.bufGet 0 = 0x53 → s.bufGet 1 = 0x90 →
      ∃ t, exec (.encchk false) s = .next t ∧ t.status = 0x007 ∧ t.errinfo = 0x00005390) ∧
    (s.cfg.kbitOrder = .k1High → s.bufGet 0 = 0x93 → s.bufGet 1 = 0x90 →
      exec (.encchk false) s = .next { s with val := 0x1390, status := 0, errinfo := 0 }) ∧
    (s.cfg.kbitOrder = .k0High → s.bufGet 0 = 0x53 → s.bufGet 1 = 0x90 →
      exec (.encchk false) s = .next { s with val := 0x1390, status := 0, errinfo := 0 })

/-! ### 60_exceptions.md -/

/-- R120, R236: an operation that ends with a `ConfigurationError` has written `STATUS` and `ERRINFO` (the operation word) and
nothing else, whichever operation it is. -/
def Obligations.ConfigurationErrorChangesNothingElse : Prop :=
  ∀ (s t : State) (i : Instr), s.cfg.legal = true → exec i s = .next t → statusKind t.status = 4 →
    ∃ c, 1 ≤ c ∧ c ≤ 7 ∧ t = s.configError c

/-- R238: which operation can end how, as the values `STATUS` can have. -/
def Obligations.OperationsEndAsTabulated : Prop :=
  ∀ (s t : State) (i : Instr), s.cfg.legal = true → exec i s = .next t → t.status ∈ outcomes i

/-- R26, R241: no operation reads `STATUS` or `ERRINFO`: with other contents there it does exactly the same. -/
def Obligations.StatusIsNeverRead : Prop :=
  ∀ (s : State) (i : Instr) (st e : Word), exec i { s with status := st, errinfo := e } = exec i s

/-- The frame of the operations that run no transaction: NOP, PACK, UNPACK, UNPACKS, SEXT, UENC, UDEC and ENCCHK. They touch
neither bus nor pads, emit no event (R121, R152, R170, R214), and change only what is named. PACK stores to the byteLength(w) cells
from `off` (R152), to none when a launch check fails; the others store to no cell. -/
def Obligations.NonBusOperationsFrame : Prop :=
  ∀ (s t : State) (i : Instr), txOf s i = none → exec i s = .next t →
    (∃ v p m d, t = { s with
      status := t.status, errinfo := t.errinfo, val := v, phy := p, buf := m, draws := d }) ∧
    ((∀ w off, i ≠ .pack w off) → ∀ a, t.bufGet a = s.bufGet a) ∧
    (∀ w off, i = .pack w off →
      (∀ a, a < off ∨ off + byteLength w ≤ a → t.bufGet a = s.bufGet a) ∧
      (¬ (1 ≤ w ∧ w ≤ 32 ∧ off + byteLength w ≤ s.cfg.bufsz) → ∀ a, t.bufGet a = s.bufGet a)) ∧
    ((∀ r12, i ≠ .encchk r12) → t.draws = s.draws) ∧
    ((∀ c, i ≠ .udec c) → t.phy = s.phy) ∧
    ((i = .nop ∨ (∃ w off, i = .pack w off) ∨ ∃ c, i = .udec c) → t.val = s.val)

/-! ### The whole machine -/

/-- Every step keeps the invariant `Inv`: the sequencer idle between steps, every select line high and every committed pad driven
(R41, R33), the tables' sizes, the buffer's canonical form, a legal `STATUS`, no zero sleep in the trace (R134). -/
def Obligations.StepKeepsInvariant : Prop :=
  ∀ s t : State, Inv s → step s = .next t → Inv t

/-- The state after reset meets the invariant. -/
def Obligations.ResetHasInvariant : Prop := Inv State.reset

/-- R32, R35, R36, R260: once an entry is committed no step but a reset changes it. -/
def Obligations.CommittedEntriesAreLocked : Prop :=
  ∀ s t : State, s.cfg.legal = true → step s = .next t → t.resets = s.resets →
    (∀ p, (s.profAt p).valid = true → t.profAt p = s.profAt p) ∧
    (∀ r, (s.regAt r).valid = true → t.regAt r = s.regAt r) ∧
    (∀ c, (s.convAt c).valid = true → t.convAt c = s.convAt c)

/-- R26, R27: nothing but a write of `OP` (and reset) changes `STATUS` and `ERRINFO`; a write of `OP` leaves one of the outcomes of
R231 to R236 there, with `ERRINFO` 0 on a success. -/
def Obligations.StatusWrittenOnlyByOperations : Prop :=
  ∀ (s t : State) (i : Input) (rest : List Input), s.cfg.legal = true → Serves s i rest → step s = .next t →
    ((∀ w, i ≠ .write 0x0000 w) → i ≠ .reset → t.status = s.status ∧ t.errinfo = s.errinfo) ∧
    (∀ w, i = .write 0x0000 w → legalStatus t.status = true ∧ (statusErr t.status = false → t.errinfo = 0))

/-- R45, R134: a step but a reset only appends to `TRACE`, and never a sleep of 0 microseconds. -/
def Obligations.TraceOnlyGrows : Prop :=
  ∀ s t : State, s.cfg.legal = true → step s = .next t → t.resets = s.resets →
    ∃ evs, t.trace = s.trace ++ evs ∧ Event.sleep 0 ∉ evs

/-! ### 10_state.md, 20_memory.md: host accesses and reset -/

/-- R63: an access to an unmapped or misaligned offset is refused: `ack` with `err`, no state change (a read answers some word,
drawn freely); an access to the map is not. That every read, refused or not, counts one free value (`draws`) is the model's
choice (log 13). -/
def Obligations.UnmappedAccessIsRefused : Prop :=
  ∀ (s : State) (off : BitVec 16) (rest : List Input), s.cfg.legal = true →
    (∀ v, mappedOffset s.cfg off.toNat = false → Serves s (.write off v) rest →
      step s = .next { s with inputs := rest, answer := some ⟨true, none⟩ }) ∧
    (mappedOffset s.cfg off.toNat = false → Serves s (.read off) rest →
      ∃ v, step s = .next { s with inputs := rest, answer := some ⟨true, some v⟩, draws := s.draws + 1 }) ∧
    (mappedOffset s.cfg off.toNat = true → Serves s (.read off) rest →
      ∃ v, step s = .next { s with inputs := rest, answer := some ⟨false, some v⟩, draws := s.draws + 1 }) ∧
    (∀ v t, mappedOffset s.cfg off.toNat = true → Serves s (.write off v) rest → step s = .next t →
      t.answer = some ⟨false, none⟩)

/-- What a host read returns, register by register (R21 to R31, R34, R36, R37, R46). -/
def Obligations.HostReadsReturnRegisters : Prop :=
  ∀ (s t : State) (off : BitVec 16) (rest : List Input), s.cfg.legal = true → Serves s (.read off) rest →
    step s = .next t →
    ∀ v, t.answer = some ⟨false, some v⟩ →
      (off = 0x0000 → v = s.op) ∧ (off = 0x0004 → v = s.status) ∧ (off = 0x0008 → v = s.errinfo) ∧
      (off = 0x000C → v = s.val) ∧ (off = 0x0010 → v.toNat = s.phy.toNat % 2 ^ 32) ∧
      (off = 0x0014 → v.toNat = s.phy.toNat / 2 ^ 32) ∧
      (off = 0x0018 → v.toNat = s.cslvl.toNat % 2 ^ s.cfg.nsel) ∧
      (off = 0x001C → v.toNat = s.csoe.toNat % 2 ^ s.cfg.nsel) ∧
      (off = 0x0020 → v.toNat < 8 ∧ v.getLsbD 2 = s.modev ∧ (s.modev = true → v.toNat % 4 = s.busmode.toNat)) ∧
      (off = 0x0024 → v.toNat = (s.cfg.nprof - 1) + (s.cfg.nreg - 1) * 2 ^ 8 + (s.cfg.nconv - 1) * 2 ^ 16 +
        (s.cfg.bufsz - 1) * 2 ^ 24) ∧
      (off = 0x0028 → v.toNat = s.cfg.getTag.toNat * 2 ^ 8 + s.cfg.dirFlag.toNat * 2 ^ 16) ∧
      (∀ p, p < s.cfg.nprof →
        (off = BitVec.ofNat 16 (0x1000 + 0x20 * p) → v.toNat = (s.profAt p).psel.toNat) ∧
        (off = BitVec.ofNat 16 (0x1004 + 0x20 * p) → v = (s.profAt p).prate) ∧
        (off = BitVec.ofNat 16 (0x1008 + 0x20 * p) → v.toNat = (s.profAt p).pmode.toNat) ∧
        (off = BitVec.ofNat 16 (0x100C + 0x20 * p) → v = (s.profAt p).ppre) ∧
        (off = BitVec.ofNat 16 (0x1010 + 0x20 * p) → v = (s.profAt p).pibd) ∧
        (off = BitVec.ofNat 16 (0x1014 + 0x20 * p) → v = (s.profAt p).ppost) ∧
        (off = BitVec.ofNat 16 (0x1018 + 0x20 * p) → v = (s.profAt p).pcool) ∧
        (off = BitVec.ofNat 16 (0x101C + 0x20 * p) → v.toNat = (s.profAt p).valid.toNat)) ∧
      (∀ r, r < s.cfg.nreg → off = BitVec.ofNat 16 (0x3000 + 4 * r) →
        v.toNat = (s.regAt r).addr.toNat + (s.regAt r).width.toNat * 2 ^ 8 + (s.regAt r).acc.toNat * 2 ^ 16 +
          (s.regAt r).sgn.toNat * 2 ^ 20 + (s.regAt r).valid.toNat * 2 ^ 31) ∧
      (∀ c, c < s.cfg.nconv →
        (off = BitVec.ofNat 16 (0x4000 + 0x10 * c) → v = (s.convAt c).csn) ∧
        (off = BitVec.ofNat 16 (0x4004 + 0x10 * c) → v = (s.convAt c).csd) ∧
        (off = BitVec.ofNat 16 (0x4008 + 0x10 * c) →
          v.toNat = (s.convAt c).width.toNat + (s.convAt c).rnd.toNat * 2 ^ 8 + (s.convAt c).valid.toNat * 2 ^ 31) ∧
        (off = BitVec.ofNat 16 (0x400C + 0x10 * c) → v = 0)) ∧
      ∀ i, i < s.cfg.bufsz → off = BitVec.ofNat 16 (0x5000 + 4 * i) → v.toNat = (s.bufGet i).toNat

/-- What a host write does to the operand registers, the buffer window and the read-only registers (R21, R22, R26 to R30, R37,
R46). -/
def Obligations.HostWritesOperandsAndBuffer : Prop :=
  ∀ (s : State) (off : BitVec 16) (v : Word) (rest : List Input), s.cfg.legal = true → Serves s (.write off v) rest →
    (off = 0x000C →
      step s = .next { s with inputs := rest, val := v, answer := some ⟨false, none⟩ }) ∧
    (off = 0x0010 → ∃ p, step s = .next { s with inputs := rest, phy := p, answer := some ⟨false, none⟩ } ∧
      p.toNat = s.phy.toNat / 2 ^ 32 * 2 ^ 32 + v.toNat) ∧
    (off = 0x0014 → ∃ p, step s = .next { s with inputs := rest, phy := p, answer := some ⟨false, none⟩ } ∧
      p.toNat = v.toNat * 2 ^ 32 + s.phy.toNat % 2 ^ 32) ∧
    (∀ i, i < s.cfg.bufsz → off = BitVec.ofNat 16 (0x5000 + 4 * i) →
      ∃ t m, step s = .next t ∧ t = { s with inputs := rest, buf := m, answer := some ⟨false, none⟩ } ∧
        ∀ a, t.bufGet a = if a = i then BitVec.ofNat 8 (v.toNat % 256) else s.bufGet a) ∧
    (off ∈ [0x0004#16, 0x0008#16, 0x0018#16, 0x001C#16, 0x0020#16, 0x0024#16, 0x0028#16] →
      step s = .next { s with inputs := rest, answer := some ⟨false, none⟩ }) ∧
    (∀ c, c < s.cfg.nconv → off = BitVec.ofNat 16 (0x400C + 0x10 * c) →
      step s = .next { s with inputs := rest, answer := some ⟨false, none⟩ })

/-- R33: the commit of a profile locks it and sets up its pad: level high first, then the pad an output; no pad action for a line
the block does not have; `STATUS`, `ERRINFO`, `OP` and all else untouched. -/
def Obligations.ProfileCommitSetsUpPad : Prop :=
  ∀ (s : State) (p : Nat) (v : Word) (rest : List Input), s.cfg.legal = true → p < s.cfg.nprof →
    Serves s (.write (BitVec.ofNat 16 (0x101C + 0x20 * p)) v) rest → (s.profAt p).valid = false → v.getLsbD 0 = true →
    (s.lineOf p < s.cfg.nsel →
      ∃ lvl oe, step s = .next { s with
          inputs := rest, answer := some ⟨false, none⟩, profs := s.profs.set p { s.profAt p with valid := true },
          cslvl := lvl, csoe := oe, trace := s.trace ++ [.cs (s.lineOf p) true, .csDir (s.lineOf p)] } ∧
        (∀ j, lvl.getLsbD j = (s.cslvl.getLsbD j || decide (j = s.lineOf p))) ∧
        (∀ j, oe.getLsbD j = (s.csoe.getLsbD j || decide (j = s.lineOf p)))) ∧
    (s.cfg.nsel ≤ s.lineOf p →
      step s = .next { s with
        inputs := rest, answer := some ⟨false, none⟩, profs := s.profs.set p { s.profAt p with valid := true } })

/-- What a host write does to an entry of a table that is not committed (R31, R32, R34 to R36): the field, or the fields of the
word, are stored; bits outside are ignored; `PCTL` with bit 0 clear has no effect; a write of all fields with `VALID` set
commits. -/
def Obligations.UncommittedEntriesStoreWrites : Prop :=
  ∀ (s : State) (off : BitVec 16) (v : Word) (rest : List Input), s.cfg.legal = true → Serves s (.write off v) rest →
    (∀ p, p < s.cfg.nprof → (s.profAt p).valid = false →
      ∀ e, e = s.profAt p →
      (off = BitVec.ofNat 16 (0x1000 + 0x20 * p) → step s = .next { s with
        inputs := rest, answer := some ⟨false, none⟩, profs := s.profs.set p { e with psel := BitVec.ofNat 5 v.toNat } }) ∧
      (off = BitVec.ofNat 16 (0x1004 + 0x20 * p) → step s = .next { s with
        inputs := rest, answer := some ⟨false, none⟩, profs := s.profs.set p { e with prate := v } }) ∧
      (off = BitVec.ofNat 16 (0x1008 + 0x20 * p) → step s = .next { s with
        inputs := rest, answer := some ⟨false, none⟩, profs := s.profs.set p { e with pmode := BitVec.ofNat 2 v.toNat } }) ∧
      (off = BitVec.ofNat 16 (0x100C + 0x20 * p) → step s = .next { s with
        inputs := rest, answer := some ⟨false, none⟩, profs := s.profs.set p { e with ppre := v } }) ∧
      (off = BitVec.ofNat 16 (0x1010 + 0x20 * p) → step s = .next { s with
        inputs := rest, answer := some ⟨false, none⟩, profs := s.profs.set p { e with pibd := v } }) ∧
      (off = BitVec.ofNat 16 (0x1014 + 0x20 * p) → step s = .next { s with
        inputs := rest, answer := some ⟨false, none⟩, profs := s.profs.set p { e with ppost := v } }) ∧
      (off = BitVec.ofNat 16 (0x1018 + 0x20 * p) → step s = .next { s with
        inputs := rest, answer := some ⟨false, none⟩, profs := s.profs.set p { e with pcool := v } }) ∧
      (off = BitVec.ofNat 16 (0x101C + 0x20 * p) → v.getLsbD 0 = false →
        step s = .next { s with inputs := rest, answer := some ⟨false, none⟩ })) ∧
    (∀ r, r < s.cfg.nreg → (s.regAt r).valid = false → off = BitVec.ofNat 16 (0x3000 + 4 * r) → step s = .next { s with
      inputs := rest, answer := some ⟨false, none⟩,
      regspecs := s.regspecs.set r
        { addr := BitVec.ofNat 8 v.toNat, width := BitVec.ofNat 6 (v.toNat / 2 ^ 8), acc := BitVec.ofNat 2 (v.toNat / 2 ^ 16),
          sgn := v.getLsbD 20, valid := v.getLsbD 31 } }) ∧
    (∀ c, c < s.cfg.nconv → (s.convAt c).valid = false →
      ∀ e, e = s.convAt c →
      (off = BitVec.ofNat 16 (0x4000 + 0x10 * c) → step s = .next { s with
        inputs := rest, answer := some ⟨false, none⟩, convs := s.convs.set c { e with csn := v } }) ∧
      (off = BitVec.ofNat 16 (0x4004 + 0x10 * c) → step s = .next { s with
        inputs := rest, answer := some ⟨false, none⟩, convs := s.convs.set c { e with csd := v } }) ∧
      (off = BitVec.ofNat 16 (0x4008 + 0x10 * c) → step s = .next { s with
        inputs := rest, answer := some ⟨false, none⟩,
        convs := s.convs.set c
          { e with width := BitVec.ofNat 6 v.toNat, rnd := BitVec.ofNat 2 (v.toNat / 2 ^ 8), valid := v.getLsbD 31 } }))

/-- R43, R260: the values of the table R43 that are not "unspecified", after the first reset and after `rst` from any idle state
(the parameters stay, the later inputs wait). -/
def Obligations.ResetLeavesTableOfResetValues : Prop :=
  ResetTable State.reset ∧
  ∀ (s : State) (rest : List Input), s.cfg.legal = true → Serves s .reset rest →
    ∃ t, step s = .next t ∧ t.cfg = s.cfg ∧ t.inputs = rest ∧ ResetTable t

/-- A step that serves no access. With no input the block holds its state (R248); a change of the input `bus_open` sets it and
nothing else (R262). An input that meets a running operation is refused, a reset under a name of its own (R261), any other as
an access the port does not take (R47), and no step is refused under these names otherwise. The refusals' names, and that
`bus_open` is refused as an access is, are the model's choice (log 10, log 11). -/
def Obligations.StepWithoutAccess : Prop :=
  (∀ s : State, s.inputs = [] → step s = .next s) ∧
  (∀ (s : State) (level : Bool) (rest : List Input), Serves s (.busOpen level) rest →
    step s = .next { s with inputs := rest, busOpen := level }) ∧
  ∀ s : State,
    (step s = .refused .resetWhileBusy ↔ s.phase ≠ .idle ∧ s.inputs.head? = some .reset) ∧
    (step s = .refused .portBusy ↔ s.phase ≠ .idle ∧ ∃ i, s.inputs.head? = some i ∧ i ≠ .reset)

end
end

