-- ==== Sys2Proof/Laws/State.lean ====
section
/-! SUPPORT. One lemma per field per named update of State, true by rfl, and the same for the table and buffer reads:
later proofs cite these by simp and unfold no record update. -/

namespace Sys2Proof.Machine.State

variable (s : State)

/-! ### emit -/

@[simp] theorem emit_cfg (e : Event) : (s.emit e).cfg = s.cfg := rfl
@[simp] theorem emit_op (e : Event) : (s.emit e).op = s.op := rfl
@[simp] theorem emit_status (e : Event) : (s.emit e).status = s.status := rfl
@[simp] theorem emit_errinfo (e : Event) : (s.emit e).errinfo = s.errinfo := rfl
@[simp] theorem emit_val (e : Event) : (s.emit e).val = s.val := rfl
@[simp] theorem emit_phy (e : Event) : (s.emit e).phy = s.phy := rfl
@[simp] theorem emit_cslvl (e : Event) : (s.emit e).cslvl = s.cslvl := rfl
@[simp] theorem emit_csoe (e : Event) : (s.emit e).csoe = s.csoe := rfl
@[simp] theorem emit_busmode (e : Event) : (s.emit e).busmode = s.busmode := rfl
@[simp] theorem emit_modev (e : Event) : (s.emit e).modev = s.modev := rfl
@[simp] theorem emit_profs (e : Event) : (s.emit e).profs = s.profs := rfl
@[simp] theorem emit_regspecs (e : Event) : (s.emit e).regspecs = s.regspecs := rfl
@[simp] theorem emit_convs (e : Event) : (s.emit e).convs = s.convs := rfl
@[simp] theorem emit_buf (e : Event) : (s.emit e).buf = s.buf := rfl
@[simp] theorem emit_phase (e : Event) : (s.emit e).phase = s.phase := rfl
@[simp] theorem emit_curp (e : Event) : (s.emit e).curp = s.curp := rfl
@[simp] theorem emit_curlen (e : Event) : (s.emit e).curlen = s.curlen := rfl
@[simp] theorem emit_idx (e : Event) : (s.emit e).idx = s.idx := rfl
@[simp] theorem emit_clkIdle (e : Event) : (s.emit e).clkIdle = s.clkIdle := rfl
@[simp] theorem emit_trace (e : Event) : (s.emit e).trace = s.trace ++ [e] := rfl
@[simp] theorem emit_answer (e : Event) : (s.emit e).answer = s.answer := rfl
@[simp] theorem emit_busOpen (e : Event) : (s.emit e).busOpen = s.busOpen := rfl
@[simp] theorem emit_inputs (e : Event) : (s.emit e).inputs = s.inputs := rfl
@[simp] theorem emit_busScript (e : Event) : (s.emit e).busScript = s.busScript := rfl
@[simp] theorem emit_timerScript (e : Event) : (s.emit e).timerScript = s.timerScript := rfl
@[simp] theorem emit_draws (e : Event) : (s.emit e).draws = s.draws := rfl
@[simp] theorem emit_resets (e : Event) : (s.emit e).resets = s.resets := rfl
@[simp] theorem emit_profAt (e : Event) (p' : Nat) : (s.emit e).profAt p' = s.profAt p' := rfl
@[simp] theorem emit_regAt (e : Event) (r' : Nat) : (s.emit e).regAt r' = s.regAt r' := rfl
@[simp] theorem emit_convAt (e : Event) (c' : Nat) : (s.emit e).convAt c' = s.convAt c' := rfl
@[simp] theorem emit_lineOf (e : Event) (p' : Nat) : (s.emit e).lineOf p' = s.lineOf p' := rfl
@[simp] theorem emit_bufGet (e : Event) (i' : Nat) : (s.emit e).bufGet i' = s.bufGet i' := rfl

/-! ### csSet -/

@[simp] theorem csSet_cfg (k : Nat) (lvl : Bool) : (s.csSet k lvl).cfg = s.cfg := rfl
@[simp] theorem csSet_op (k : Nat) (lvl : Bool) : (s.csSet k lvl).op = s.op := rfl
@[simp] theorem csSet_status (k : Nat) (lvl : Bool) : (s.csSet k lvl).status = s.status := rfl
@[simp] theorem csSet_errinfo (k : Nat) (lvl : Bool) : (s.csSet k lvl).errinfo = s.errinfo := rfl
@[simp] theorem csSet_val (k : Nat) (lvl : Bool) : (s.csSet k lvl).val = s.val := rfl
@[simp] theorem csSet_phy (k : Nat) (lvl : Bool) : (s.csSet k lvl).phy = s.phy := rfl
@[simp] theorem csSet_cslvl (k : Nat) (lvl : Bool) : (s.csSet k lvl).cslvl = setBit s.cslvl k lvl := rfl
@[simp] theorem csSet_csoe (k : Nat) (lvl : Bool) : (s.csSet k lvl).csoe = s.csoe := rfl
@[simp] theorem csSet_busmode (k : Nat) (lvl : Bool) : (s.csSet k lvl).busmode = s.busmode := rfl
@[simp] theorem csSet_modev (k : Nat) (lvl : Bool) : (s.csSet k lvl).modev = s.modev := rfl
@[simp] theorem csSet_profs (k : Nat) (lvl : Bool) : (s.csSet k lvl).profs = s.profs := rfl
@[simp] theorem csSet_regspecs (k : Nat) (lvl : Bool) : (s.csSet k lvl).regspecs = s.regspecs := rfl
@[simp] theorem csSet_convs (k : Nat) (lvl : Bool) : (s.csSet k lvl).convs = s.convs := rfl
@[simp] theorem csSet_buf (k : Nat) (lvl : Bool) : (s.csSet k lvl).buf = s.buf := rfl
@[simp] theorem csSet_phase (k : Nat) (lvl : Bool) : (s.csSet k lvl).phase = s.phase := rfl
@[simp] theorem csSet_curp (k : Nat) (lvl : Bool) : (s.csSet k lvl).curp = s.curp := rfl
@[simp] theorem csSet_curlen (k : Nat) (lvl : Bool) : (s.csSet k lvl).curlen = s.curlen := rfl
@[simp] theorem csSet_idx (k : Nat) (lvl : Bool) : (s.csSet k lvl).idx = s.idx := rfl
@[simp] theorem csSet_clkIdle (k : Nat) (lvl : Bool) : (s.csSet k lvl).clkIdle = s.clkIdle := rfl
@[simp] theorem csSet_trace (k : Nat) (lvl : Bool) : (s.csSet k lvl).trace = s.trace ++ [.cs k lvl] := rfl
@[simp] theorem csSet_answer (k : Nat) (lvl : Bool) : (s.csSet k lvl).answer = s.answer := rfl
@[simp] theorem csSet_busOpen (k : Nat) (lvl : Bool) : (s.csSet k lvl).busOpen = s.busOpen := rfl
@[simp] theorem csSet_inputs (k : Nat) (lvl : Bool) : (s.csSet k lvl).inputs = s.inputs := rfl
@[simp] theorem csSet_busScript (k : Nat) (lvl : Bool) : (s.csSet k lvl).busScript = s.busScript := rfl
@[simp] theorem csSet_timerScript (k : Nat) (lvl : Bool) : (s.csSet k lvl).timerScript = s.timerScript := rfl
@[simp] theorem csSet_draws (k : Nat) (lvl : Bool) : (s.csSet k lvl).draws = s.draws := rfl
@[simp] theorem csSet_resets (k : Nat) (lvl : Bool) : (s.csSet k lvl).resets = s.resets := rfl
@[simp] theorem csSet_profAt (k : Nat) (lvl : Bool) (p' : Nat) : (s.csSet k lvl).profAt p' = s.profAt p' := rfl
@[simp] theorem csSet_regAt (k : Nat) (lvl : Bool) (r' : Nat) : (s.csSet k lvl).regAt r' = s.regAt r' := rfl
@[simp] theorem csSet_convAt (k : Nat) (lvl : Bool) (c' : Nat) : (s.csSet k lvl).convAt c' = s.convAt c' := rfl
@[simp] theorem csSet_lineOf (k : Nat) (lvl : Bool) (p' : Nat) : (s.csSet k lvl).lineOf p' = s.lineOf p' := rfl
@[simp] theorem csSet_bufGet (k : Nat) (lvl : Bool) (i' : Nat) : (s.csSet k lvl).bufGet i' = s.bufGet i' := rfl

/-! ### csDirOut -/

@[simp] theorem csDirOut_cfg (k : Nat) : (s.csDirOut k).cfg = s.cfg := rfl
@[simp] theorem csDirOut_op (k : Nat) : (s.csDirOut k).op = s.op := rfl
@[simp] theorem csDirOut_status (k : Nat) : (s.csDirOut k).status = s.status := rfl
@[simp] theorem csDirOut_errinfo (k : Nat) : (s.csDirOut k).errinfo = s.errinfo := rfl
@[simp] theorem csDirOut_val (k : Nat) : (s.csDirOut k).val = s.val := rfl
@[simp] theorem csDirOut_phy (k : Nat) : (s.csDirOut k).phy = s.phy := rfl
@[simp] theorem csDirOut_cslvl (k : Nat) : (s.csDirOut k).cslvl = s.cslvl := rfl
@[simp] theorem csDirOut_csoe (k : Nat) : (s.csDirOut k).csoe = setBit s.csoe k true := rfl
@[simp] theorem csDirOut_busmode (k : Nat) : (s.csDirOut k).busmode = s.busmode := rfl
@[simp] theorem csDirOut_modev (k : Nat) : (s.csDirOut k).modev = s.modev := rfl
@[simp] theorem csDirOut_profs (k : Nat) : (s.csDirOut k).profs = s.profs := rfl
@[simp] theorem csDirOut_regspecs (k : Nat) : (s.csDirOut k).regspecs = s.regspecs := rfl
@[simp] theorem csDirOut_convs (k : Nat) : (s.csDirOut k).convs = s.convs := rfl
@[simp] theorem csDirOut_buf (k : Nat) : (s.csDirOut k).buf = s.buf := rfl
@[simp] theorem csDirOut_phase (k : Nat) : (s.csDirOut k).phase = s.phase := rfl
@[simp] theorem csDirOut_curp (k : Nat) : (s.csDirOut k).curp = s.curp := rfl
@[simp] theorem csDirOut_curlen (k : Nat) : (s.csDirOut k).curlen = s.curlen := rfl
@[simp] theorem csDirOut_idx (k : Nat) : (s.csDirOut k).idx = s.idx := rfl
@[simp] theorem csDirOut_clkIdle (k : Nat) : (s.csDirOut k).clkIdle = s.clkIdle := rfl
@[simp] theorem csDirOut_trace (k : Nat) : (s.csDirOut k).trace = s.trace ++ [.csDir k] := rfl
@[simp] theorem csDirOut_answer (k : Nat) : (s.csDirOut k).answer = s.answer := rfl
@[simp] theorem csDirOut_busOpen (k : Nat) : (s.csDirOut k).busOpen = s.busOpen := rfl
@[simp] theorem csDirOut_inputs (k : Nat) : (s.csDirOut k).inputs = s.inputs := rfl
@[simp] theorem csDirOut_busScript (k : Nat) : (s.csDirOut k).busScript = s.busScript := rfl
@[simp] theorem csDirOut_timerScript (k : Nat) : (s.csDirOut k).timerScript = s.timerScript := rfl
@[simp] theorem csDirOut_draws (k : Nat) : (s.csDirOut k).draws = s.draws := rfl
@[simp] theorem csDirOut_resets (k : Nat) : (s.csDirOut k).resets = s.resets := rfl
@[simp] theorem csDirOut_profAt (k : Nat) (p' : Nat) : (s.csDirOut k).profAt p' = s.profAt p' := rfl
@[simp] theorem csDirOut_regAt (k : Nat) (r' : Nat) : (s.csDirOut k).regAt r' = s.regAt r' := rfl
@[simp] theorem csDirOut_convAt (k : Nat) (c' : Nat) : (s.csDirOut k).convAt c' = s.convAt c' := rfl
@[simp] theorem csDirOut_lineOf (k : Nat) (p' : Nat) : (s.csDirOut k).lineOf p' = s.lineOf p' := rfl
@[simp] theorem csDirOut_bufGet (k : Nat) (i' : Nat) : (s.csDirOut k).bufGet i' = s.bufGet i' := rfl

/-! ### memWrite -/

@[simp] theorem memWrite_cfg (a : Nat) (bs : List Byte) : (s.memWrite a bs).cfg = s.cfg := rfl
@[simp] theorem memWrite_op (a : Nat) (bs : List Byte) : (s.memWrite a bs).op = s.op := rfl
@[simp] theorem memWrite_status (a : Nat) (bs : List Byte) : (s.memWrite a bs).status = s.status := rfl
@[simp] theorem memWrite_errinfo (a : Nat) (bs : List Byte) : (s.memWrite a bs).errinfo = s.errinfo := rfl
@[simp] theorem memWrite_val (a : Nat) (bs : List Byte) : (s.memWrite a bs).val = s.val := rfl
@[simp] theorem memWrite_phy (a : Nat) (bs : List Byte) : (s.memWrite a bs).phy = s.phy := rfl
@[simp] theorem memWrite_cslvl (a : Nat) (bs : List Byte) : (s.memWrite a bs).cslvl = s.cslvl := rfl
@[simp] theorem memWrite_csoe (a : Nat) (bs : List Byte) : (s.memWrite a bs).csoe = s.csoe := rfl
@[simp] theorem memWrite_busmode (a : Nat) (bs : List Byte) : (s.memWrite a bs).busmode = s.busmode := rfl
@[simp] theorem memWrite_modev (a : Nat) (bs : List Byte) : (s.memWrite a bs).modev = s.modev := rfl
@[simp] theorem memWrite_profs (a : Nat) (bs : List Byte) : (s.memWrite a bs).profs = s.profs := rfl
@[simp] theorem memWrite_regspecs (a : Nat) (bs : List Byte) : (s.memWrite a bs).regspecs = s.regspecs := rfl
@[simp] theorem memWrite_convs (a : Nat) (bs : List Byte) : (s.memWrite a bs).convs = s.convs := rfl
@[simp] theorem memWrite_buf (a : Nat) (bs : List Byte) : (s.memWrite a bs).buf = s.buf.writeCells a bs := rfl
@[simp] theorem memWrite_phase (a : Nat) (bs : List Byte) : (s.memWrite a bs).phase = s.phase := rfl
@[simp] theorem memWrite_curp (a : Nat) (bs : List Byte) : (s.memWrite a bs).curp = s.curp := rfl
@[simp] theorem memWrite_curlen (a : Nat) (bs : List Byte) : (s.memWrite a bs).curlen = s.curlen := rfl
@[simp] theorem memWrite_idx (a : Nat) (bs : List Byte) : (s.memWrite a bs).idx = s.idx := rfl
@[simp] theorem memWrite_clkIdle (a : Nat) (bs : List Byte) : (s.memWrite a bs).clkIdle = s.clkIdle := rfl
@[simp] theorem memWrite_trace (a : Nat) (bs : List Byte) : (s.memWrite a bs).trace = s.trace := rfl
@[simp] theorem memWrite_answer (a : Nat) (bs : List Byte) : (s.memWrite a bs).answer = s.answer := rfl
@[simp] theorem memWrite_busOpen (a : Nat) (bs : List Byte) : (s.memWrite a bs).busOpen = s.busOpen := rfl
@[simp] theorem memWrite_inputs (a : Nat) (bs : List Byte) : (s.memWrite a bs).inputs = s.inputs := rfl
@[simp] theorem memWrite_busScript (a : Nat) (bs : List Byte) : (s.memWrite a bs).busScript = s.busScript := rfl
@[simp] theorem memWrite_timerScript (a : Nat) (bs : List Byte) : (s.memWrite a bs).timerScript = s.timerScript := rfl
@[simp] theorem memWrite_draws (a : Nat) (bs : List Byte) : (s.memWrite a bs).draws = s.draws := rfl
@[simp] theorem memWrite_resets (a : Nat) (bs : List Byte) : (s.memWrite a bs).resets = s.resets := rfl
@[simp] theorem memWrite_profAt (a : Nat) (bs : List Byte) (p' : Nat) : (s.memWrite a bs).profAt p' = s.profAt p' := rfl
@[simp] theorem memWrite_regAt (a : Nat) (bs : List Byte) (r' : Nat) : (s.memWrite a bs).regAt r' = s.regAt r' := rfl
@[simp] theorem memWrite_convAt (a : Nat) (bs : List Byte) (c' : Nat) : (s.memWrite a bs).convAt c' = s.convAt c' := rfl
@[simp] theorem memWrite_lineOf (a : Nat) (bs : List Byte) (p' : Nat) : (s.memWrite a bs).lineOf p' = s.lineOf p' := rfl

/-! ### drew -/

@[simp] theorem drew_cfg (n : Nat) : (s.drew n).cfg = s.cfg := rfl
@[simp] theorem drew_op (n : Nat) : (s.drew n).op = s.op := rfl
@[simp] theorem drew_status (n : Nat) : (s.drew n).status = s.status := rfl
@[simp] theorem drew_errinfo (n : Nat) : (s.drew n).errinfo = s.errinfo := rfl
@[simp] theorem drew_val (n : Nat) : (s.drew n).val = s.val := rfl
@[simp] theorem drew_phy (n : Nat) : (s.drew n).phy = s.phy := rfl
@[simp] theorem drew_cslvl (n : Nat) : (s.drew n).cslvl = s.cslvl := rfl
@[simp] theorem drew_csoe (n : Nat) : (s.drew n).csoe = s.csoe := rfl
@[simp] theorem drew_busmode (n : Nat) : (s.drew n).busmode = s.busmode := rfl
@[simp] theorem drew_modev (n : Nat) : (s.drew n).modev = s.modev := rfl
@[simp] theorem drew_profs (n : Nat) : (s.drew n).profs = s.profs := rfl
@[simp] theorem drew_regspecs (n : Nat) : (s.drew n).regspecs = s.regspecs := rfl
@[simp] theorem drew_convs (n : Nat) : (s.drew n).convs = s.convs := rfl
@[simp] theorem drew_buf (n : Nat) : (s.drew n).buf = s.buf := rfl
@[simp] theorem drew_phase (n : Nat) : (s.drew n).phase = s.phase := rfl
@[simp] theorem drew_curp (n : Nat) : (s.drew n).curp = s.curp := rfl
@[simp] theorem drew_curlen (n : Nat) : (s.drew n).curlen = s.curlen := rfl
@[simp] theorem drew_idx (n : Nat) : (s.drew n).idx = s.idx := rfl
@[simp] theorem drew_clkIdle (n : Nat) : (s.drew n).clkIdle = s.clkIdle := rfl
@[simp] theorem drew_trace (n : Nat) : (s.drew n).trace = s.trace := rfl
@[simp] theorem drew_answer (n : Nat) : (s.drew n).answer = s.answer := rfl
@[simp] theorem drew_busOpen (n : Nat) : (s.drew n).busOpen = s.busOpen := rfl
@[simp] theorem drew_inputs (n : Nat) : (s.drew n).inputs = s.inputs := rfl
@[simp] theorem drew_busScript (n : Nat) : (s.drew n).busScript = s.busScript := rfl
@[simp] theorem drew_timerScript (n : Nat) : (s.drew n).timerScript = s.timerScript := rfl
@[simp] theorem drew_draws (n : Nat) : (s.drew n).draws = s.draws + n := rfl
@[simp] theorem drew_resets (n : Nat) : (s.drew n).resets = s.resets := rfl
@[simp] theorem drew_profAt (n : Nat) (p' : Nat) : (s.drew n).profAt p' = s.profAt p' := rfl
@[simp] theorem drew_regAt (n : Nat) (r' : Nat) : (s.drew n).regAt r' = s.regAt r' := rfl
@[simp] theorem drew_convAt (n : Nat) (c' : Nat) : (s.drew n).convAt c' = s.convAt c' := rfl
@[simp] theorem drew_lineOf (n : Nat) (p' : Nat) : (s.drew n).lineOf p' = s.lineOf p' := rfl
@[simp] theorem drew_bufGet (n : Nat) (i' : Nat) : (s.drew n).bufGet i' = s.bufGet i' := rfl

/-! ### busTaken -/

@[simp] theorem busTaken_cfg : s.busTaken.cfg = s.cfg := rfl
@[simp] theorem busTaken_op : s.busTaken.op = s.op := rfl
@[simp] theorem busTaken_status : s.busTaken.status = s.status := rfl
@[simp] theorem busTaken_errinfo : s.busTaken.errinfo = s.errinfo := rfl
@[simp] theorem busTaken_val : s.busTaken.val = s.val := rfl
@[simp] theorem busTaken_phy : s.busTaken.phy = s.phy := rfl
@[simp] theorem busTaken_cslvl : s.busTaken.cslvl = s.cslvl := rfl
@[simp] theorem busTaken_csoe : s.busTaken.csoe = s.csoe := rfl
@[simp] theorem busTaken_busmode : s.busTaken.busmode = s.busmode := rfl
@[simp] theorem busTaken_modev : s.busTaken.modev = s.modev := rfl
@[simp] theorem busTaken_profs : s.busTaken.profs = s.profs := rfl
@[simp] theorem busTaken_regspecs : s.busTaken.regspecs = s.regspecs := rfl
@[simp] theorem busTaken_convs : s.busTaken.convs = s.convs := rfl
@[simp] theorem busTaken_buf : s.busTaken.buf = s.buf := rfl
@[simp] theorem busTaken_phase : s.busTaken.phase = s.phase := rfl
@[simp] theorem busTaken_curp : s.busTaken.curp = s.curp := rfl
@[simp] theorem busTaken_curlen : s.busTaken.curlen = s.curlen := rfl
@[simp] theorem busTaken_idx : s.busTaken.idx = s.idx := rfl
@[simp] theorem busTaken_clkIdle : s.busTaken.clkIdle = s.clkIdle := rfl
@[simp] theorem busTaken_trace : s.busTaken.trace = s.trace := rfl
@[simp] theorem busTaken_answer : s.busTaken.answer = s.answer := rfl
@[simp] theorem busTaken_busOpen : s.busTaken.busOpen = s.busOpen := rfl
@[simp] theorem busTaken_inputs : s.busTaken.inputs = s.inputs := rfl
@[simp] theorem busTaken_busScript : s.busTaken.busScript = s.busScript.tail := rfl
@[simp] theorem busTaken_timerScript : s.busTaken.timerScript = s.timerScript := rfl
@[simp] theorem busTaken_draws : s.busTaken.draws = s.draws + 1 := rfl
@[simp] theorem busTaken_resets : s.busTaken.resets = s.resets := rfl
@[simp] theorem busTaken_profAt (p' : Nat) : s.busTaken.profAt p' = s.profAt p' := rfl
@[simp] theorem busTaken_regAt (r' : Nat) : s.busTaken.regAt r' = s.regAt r' := rfl
@[simp] theorem busTaken_convAt (c' : Nat) : s.busTaken.convAt c' = s.convAt c' := rfl
@[simp] theorem busTaken_lineOf (p' : Nat) : s.busTaken.lineOf p' = s.lineOf p' := rfl
@[simp] theorem busTaken_bufGet (i' : Nat) : s.busTaken.bufGet i' = s.bufGet i' := rfl

/-! ### done -/

@[simp] theorem done_cfg (sat : Bool) : (s.done sat).cfg = s.cfg := rfl
@[simp] theorem done_op (sat : Bool) : (s.done sat).op = s.op := rfl
@[simp] theorem done_status (sat : Bool) : (s.done sat).status = statusDone sat := rfl
@[simp] theorem done_errinfo (sat : Bool) : (s.done sat).errinfo = 0 := rfl
@[simp] theorem done_val (sat : Bool) : (s.done sat).val = s.val := rfl
@[simp] theorem done_phy (sat : Bool) : (s.done sat).phy = s.phy := rfl
@[simp] theorem done_cslvl (sat : Bool) : (s.done sat).cslvl = s.cslvl := rfl
@[simp] theorem done_csoe (sat : Bool) : (s.done sat).csoe = s.csoe := rfl
@[simp] theorem done_busmode (sat : Bool) : (s.done sat).busmode = s.busmode := rfl
@[simp] theorem done_modev (sat : Bool) : (s.done sat).modev = s.modev := rfl
@[simp] theorem done_profs (sat : Bool) : (s.done sat).profs = s.profs := rfl
@[simp] theorem done_regspecs (sat : Bool) : (s.done sat).regspecs = s.regspecs := rfl
@[simp] theorem done_convs (sat : Bool) : (s.done sat).convs = s.convs := rfl
@[simp] theorem done_buf (sat : Bool) : (s.done sat).buf = s.buf := rfl
@[simp] theorem done_phase (sat : Bool) : (s.done sat).phase = s.phase := rfl
@[simp] theorem done_curp (sat : Bool) : (s.done sat).curp = s.curp := rfl
@[simp] theorem done_curlen (sat : Bool) : (s.done sat).curlen = s.curlen := rfl
@[simp] theorem done_idx (sat : Bool) : (s.done sat).idx = s.idx := rfl
@[simp] theorem done_clkIdle (sat : Bool) : (s.done sat).clkIdle = s.clkIdle := rfl
@[simp] theorem done_trace (sat : Bool) : (s.done sat).trace = s.trace := rfl
@[simp] theorem done_answer (sat : Bool) : (s.done sat).answer = s.answer := rfl
@[simp] theorem done_busOpen (sat : Bool) : (s.done sat).busOpen = s.busOpen := rfl
@[simp] theorem done_inputs (sat : Bool) : (s.done sat).inputs = s.inputs := rfl
@[simp] theorem done_busScript (sat : Bool) : (s.done sat).busScript = s.busScript := rfl
@[simp] theorem done_timerScript (sat : Bool) : (s.done sat).timerScript = s.timerScript := rfl
@[simp] theorem done_draws (sat : Bool) : (s.done sat).draws = s.draws := rfl
@[simp] theorem done_resets (sat : Bool) : (s.done sat).resets = s.resets := rfl
@[simp] theorem done_profAt (sat : Bool) (p' : Nat) : (s.done sat).profAt p' = s.profAt p' := rfl
@[simp] theorem done_regAt (sat : Bool) (r' : Nat) : (s.done sat).regAt r' = s.regAt r' := rfl
@[simp] theorem done_convAt (sat : Bool) (c' : Nat) : (s.done sat).convAt c' = s.convAt c' := rfl
@[simp] theorem done_lineOf (sat : Bool) (p' : Nat) : (s.done sat).lineOf p' = s.lineOf p' := rfl
@[simp] theorem done_bufGet (sat : Bool) (i' : Nat) : (s.done sat).bufGet i' = s.bufGet i' := rfl

/-! ### raise -/

@[simp] theorem raise_cfg (e : OpError) : (s.raise e).cfg = s.cfg := rfl
@[simp] theorem raise_op (e : OpError) : (s.raise e).op = s.op := rfl
@[simp] theorem raise_status (e : OpError) : (s.raise e).status = e.status := rfl
@[simp] theorem raise_errinfo (e : OpError) : (s.raise e).errinfo = e.info := rfl
@[simp] theorem raise_val (e : OpError) : (s.raise e).val = s.val := rfl
@[simp] theorem raise_phy (e : OpError) : (s.raise e).phy = s.phy := rfl
@[simp] theorem raise_cslvl (e : OpError) : (s.raise e).cslvl = s.cslvl := rfl
@[simp] theorem raise_csoe (e : OpError) : (s.raise e).csoe = s.csoe := rfl
@[simp] theorem raise_busmode (e : OpError) : (s.raise e).busmode = s.busmode := rfl
@[simp] theorem raise_modev (e : OpError) : (s.raise e).modev = s.modev := rfl
@[simp] theorem raise_profs (e : OpError) : (s.raise e).profs = s.profs := rfl
@[simp] theorem raise_regspecs (e : OpError) : (s.raise e).regspecs = s.regspecs := rfl
@[simp] theorem raise_convs (e : OpError) : (s.raise e).convs = s.convs := rfl
@[simp] theorem raise_buf (e : OpError) : (s.raise e).buf = s.buf := rfl
@[simp] theorem raise_phase (e : OpError) : (s.raise e).phase = s.phase := rfl
@[simp] theorem raise_curp (e : OpError) : (s.raise e).curp = s.curp := rfl
@[simp] theorem raise_curlen (e : OpError) : (s.raise e).curlen = s.curlen := rfl
@[simp] theorem raise_idx (e : OpError) : (s.raise e).idx = s.idx := rfl
@[simp] theorem raise_clkIdle (e : OpError) : (s.raise e).clkIdle = s.clkIdle := rfl
@[simp] theorem raise_trace (e : OpError) : (s.raise e).trace = s.trace := rfl
@[simp] theorem raise_answer (e : OpError) : (s.raise e).answer = s.answer := rfl
@[simp] theorem raise_busOpen (e : OpError) : (s.raise e).busOpen = s.busOpen := rfl
@[simp] theorem raise_inputs (e : OpError) : (s.raise e).inputs = s.inputs := rfl
@[simp] theorem raise_busScript (e : OpError) : (s.raise e).busScript = s.busScript := rfl
@[simp] theorem raise_timerScript (e : OpError) : (s.raise e).timerScript = s.timerScript := rfl
@[simp] theorem raise_draws (e : OpError) : (s.raise e).draws = s.draws := rfl
@[simp] theorem raise_resets (e : OpError) : (s.raise e).resets = s.resets := rfl
@[simp] theorem raise_profAt (e : OpError) (p' : Nat) : (s.raise e).profAt p' = s.profAt p' := rfl
@[simp] theorem raise_regAt (e : OpError) (r' : Nat) : (s.raise e).regAt r' = s.regAt r' := rfl
@[simp] theorem raise_convAt (e : OpError) (c' : Nat) : (s.raise e).convAt c' = s.convAt c' := rfl
@[simp] theorem raise_lineOf (e : OpError) (p' : Nat) : (s.raise e).lineOf p' = s.lineOf p' := rfl
@[simp] theorem raise_bufGet (e : OpError) (i' : Nat) : (s.raise e).bufGet i' = s.bufGet i' := rfl

/-! ### raiseConfig -/

@[simp] theorem raiseConfig_cfg (c : CfgCause) : (s.raiseConfig c).cfg = s.cfg := rfl
@[simp] theorem raiseConfig_op (c : CfgCause) : (s.raiseConfig c).op = s.op := rfl
@[simp] theorem raiseConfig_status (c : CfgCause) : (s.raiseConfig c).status = (OpError.configuration c s.op).status := rfl
@[simp] theorem raiseConfig_errinfo (c : CfgCause) : (s.raiseConfig c).errinfo = s.op := rfl
@[simp] theorem raiseConfig_val (c : CfgCause) : (s.raiseConfig c).val = s.val := rfl
@[simp] theorem raiseConfig_phy (c : CfgCause) : (s.raiseConfig c).phy = s.phy := rfl
@[simp] theorem raiseConfig_cslvl (c : CfgCause) : (s.raiseConfig c).cslvl = s.cslvl := rfl
@[simp] theorem raiseConfig_csoe (c : CfgCause) : (s.raiseConfig c).csoe = s.csoe := rfl
@[simp] theorem raiseConfig_busmode (c : CfgCause) : (s.raiseConfig c).busmode = s.busmode := rfl
@[simp] theorem raiseConfig_modev (c : CfgCause) : (s.raiseConfig c).modev = s.modev := rfl
@[simp] theorem raiseConfig_profs (c : CfgCause) : (s.raiseConfig c).profs = s.profs := rfl
@[simp] theorem raiseConfig_regspecs (c : CfgCause) : (s.raiseConfig c).regspecs = s.regspecs := rfl
@[simp] theorem raiseConfig_convs (c : CfgCause) : (s.raiseConfig c).convs = s.convs := rfl
@[simp] theorem raiseConfig_buf (c : CfgCause) : (s.raiseConfig c).buf = s.buf := rfl
@[simp] theorem raiseConfig_phase (c : CfgCause) : (s.raiseConfig c).phase = s.phase := rfl
@[simp] theorem raiseConfig_curp (c : CfgCause) : (s.raiseConfig c).curp = s.curp := rfl
@[simp] theorem raiseConfig_curlen (c : CfgCause) : (s.raiseConfig c).curlen = s.curlen := rfl
@[simp] theorem raiseConfig_idx (c : CfgCause) : (s.raiseConfig c).idx = s.idx := rfl
@[simp] theorem raiseConfig_clkIdle (c : CfgCause) : (s.raiseConfig c).clkIdle = s.clkIdle := rfl
@[simp] theorem raiseConfig_trace (c : CfgCause) : (s.raiseConfig c).trace = s.trace := rfl
@[simp] theorem raiseConfig_answer (c : CfgCause) : (s.raiseConfig c).answer = s.answer := rfl
@[simp] theorem raiseConfig_busOpen (c : CfgCause) : (s.raiseConfig c).busOpen = s.busOpen := rfl
@[simp] theorem raiseConfig_inputs (c : CfgCause) : (s.raiseConfig c).inputs = s.inputs := rfl
@[simp] theorem raiseConfig_busScript (c : CfgCause) : (s.raiseConfig c).busScript = s.busScript := rfl
@[simp] theorem raiseConfig_timerScript (c : CfgCause) : (s.raiseConfig c).timerScript = s.timerScript := rfl
@[simp] theorem raiseConfig_draws (c : CfgCause) : (s.raiseConfig c).draws = s.draws := rfl
@[simp] theorem raiseConfig_resets (c : CfgCause) : (s.raiseConfig c).resets = s.resets := rfl
@[simp] theorem raiseConfig_profAt (c : CfgCause) (p' : Nat) : (s.raiseConfig c).profAt p' = s.profAt p' := rfl
@[simp] theorem raiseConfig_regAt (c : CfgCause) (r' : Nat) : (s.raiseConfig c).regAt r' = s.regAt r' := rfl
@[simp] theorem raiseConfig_convAt (c : CfgCause) (c' : Nat) : (s.raiseConfig c).convAt c' = s.convAt c' := rfl
@[simp] theorem raiseConfig_lineOf (c : CfgCause) (p' : Nat) : (s.raiseConfig c).lineOf p' = s.lineOf p' := rfl
@[simp] theorem raiseConfig_bufGet (c : CfgCause) (i' : Nat) : (s.raiseConfig c).bufGet i' = s.bufGet i' := rfl

/-! ### beginTx -/

@[simp] theorem beginTx_cfg (prof len : Nat) : (s.beginTx prof len).cfg = s.cfg := rfl
@[simp] theorem beginTx_op (prof len : Nat) : (s.beginTx prof len).op = s.op := rfl
@[simp] theorem beginTx_status (prof len : Nat) : (s.beginTx prof len).status = s.status := rfl
@[simp] theorem beginTx_errinfo (prof len : Nat) : (s.beginTx prof len).errinfo = s.errinfo := rfl
@[simp] theorem beginTx_val (prof len : Nat) : (s.beginTx prof len).val = s.val := rfl
@[simp] theorem beginTx_phy (prof len : Nat) : (s.beginTx prof len).phy = s.phy := rfl
@[simp] theorem beginTx_cslvl (prof len : Nat) : (s.beginTx prof len).cslvl = s.cslvl := rfl
@[simp] theorem beginTx_csoe (prof len : Nat) : (s.beginTx prof len).csoe = s.csoe := rfl
@[simp] theorem beginTx_busmode (prof len : Nat) : (s.beginTx prof len).busmode = s.busmode := rfl
@[simp] theorem beginTx_modev (prof len : Nat) : (s.beginTx prof len).modev = s.modev := rfl
@[simp] theorem beginTx_profs (prof len : Nat) : (s.beginTx prof len).profs = s.profs := rfl
@[simp] theorem beginTx_regspecs (prof len : Nat) : (s.beginTx prof len).regspecs = s.regspecs := rfl
@[simp] theorem beginTx_convs (prof len : Nat) : (s.beginTx prof len).convs = s.convs := rfl
@[simp] theorem beginTx_buf (prof len : Nat) : (s.beginTx prof len).buf = s.buf := rfl
@[simp] theorem beginTx_phase (prof len : Nat) : (s.beginTx prof len).phase = .modeSet := rfl
@[simp] theorem beginTx_curp (prof len : Nat) : (s.beginTx prof len).curp = BitVec.ofNat 8 prof := rfl
@[simp] theorem beginTx_curlen (prof len : Nat) : (s.beginTx prof len).curlen = BitVec.ofNat 9 len := rfl
@[simp] theorem beginTx_idx (prof len : Nat) : (s.beginTx prof len).idx = 0 := rfl
@[simp] theorem beginTx_clkIdle (prof len : Nat) : (s.beginTx prof len).clkIdle = s.clkIdle := rfl
@[simp] theorem beginTx_trace (prof len : Nat) : (s.beginTx prof len).trace = s.trace := rfl
@[simp] theorem beginTx_answer (prof len : Nat) : (s.beginTx prof len).answer = s.answer := rfl
@[simp] theorem beginTx_busOpen (prof len : Nat) : (s.beginTx prof len).busOpen = s.busOpen := rfl
@[simp] theorem beginTx_inputs (prof len : Nat) : (s.beginTx prof len).inputs = s.inputs := rfl
@[simp] theorem beginTx_busScript (prof len : Nat) : (s.beginTx prof len).busScript = s.busScript := rfl
@[simp] theorem beginTx_timerScript (prof len : Nat) : (s.beginTx prof len).timerScript = s.timerScript := rfl
@[simp] theorem beginTx_draws (prof len : Nat) : (s.beginTx prof len).draws = s.draws := rfl
@[simp] theorem beginTx_resets (prof len : Nat) : (s.beginTx prof len).resets = s.resets := rfl
@[simp] theorem beginTx_profAt (prof len : Nat) (p' : Nat) : (s.beginTx prof len).profAt p' = s.profAt p' := rfl
@[simp] theorem beginTx_regAt (prof len : Nat) (r' : Nat) : (s.beginTx prof len).regAt r' = s.regAt r' := rfl
@[simp] theorem beginTx_convAt (prof len : Nat) (c' : Nat) : (s.beginTx prof len).convAt c' = s.convAt c' := rfl
@[simp] theorem beginTx_lineOf (prof len : Nat) (p' : Nat) : (s.beginTx prof len).lineOf p' = s.lineOf p' := rfl
@[simp] theorem beginTx_bufGet (prof len : Nat) (i' : Nat) : (s.beginTx prof len).bufGet i' = s.bufGet i' := rfl

/-! ### endTx -/

@[simp] theorem endTx_cfg : s.endTx.cfg = s.cfg := rfl
@[simp] theorem endTx_op : s.endTx.op = s.op := rfl
@[simp] theorem endTx_status : s.endTx.status = s.status := rfl
@[simp] theorem endTx_errinfo : s.endTx.errinfo = s.errinfo := rfl
@[simp] theorem endTx_val : s.endTx.val = s.val := rfl
@[simp] theorem endTx_phy : s.endTx.phy = s.phy := rfl
@[simp] theorem endTx_cslvl : s.endTx.cslvl = s.cslvl := rfl
@[simp] theorem endTx_csoe : s.endTx.csoe = s.csoe := rfl
@[simp] theorem endTx_busmode : s.endTx.busmode = s.busmode := rfl
@[simp] theorem endTx_modev : s.endTx.modev = s.modev := rfl
@[simp] theorem endTx_profs : s.endTx.profs = s.profs := rfl
@[simp] theorem endTx_regspecs : s.endTx.regspecs = s.regspecs := rfl
@[simp] theorem endTx_convs : s.endTx.convs = s.convs := rfl
@[simp] theorem endTx_buf : s.endTx.buf = s.buf := rfl
@[simp] theorem endTx_phase : s.endTx.phase = .idle := rfl
@[simp] theorem endTx_curp : s.endTx.curp = Config.freeBits 8 s.draws := rfl
@[simp] theorem endTx_curlen : s.endTx.curlen = Config.freeBits 9 (s.draws + 1) := rfl
@[simp] theorem endTx_idx : s.endTx.idx = Config.freeBits 9 (s.draws + 2) := rfl
@[simp] theorem endTx_clkIdle : s.endTx.clkIdle = s.clkIdle := rfl
@[simp] theorem endTx_trace : s.endTx.trace = s.trace := rfl
@[simp] theorem endTx_answer : s.endTx.answer = s.answer := rfl
@[simp] theorem endTx_busOpen : s.endTx.busOpen = s.busOpen := rfl
@[simp] theorem endTx_inputs : s.endTx.inputs = s.inputs := rfl
@[simp] theorem endTx_busScript : s.endTx.busScript = s.busScript := rfl
@[simp] theorem endTx_timerScript : s.endTx.timerScript = s.timerScript := rfl
@[simp] theorem endTx_draws : s.endTx.draws = s.draws + 3 := rfl
@[simp] theorem endTx_resets : s.endTx.resets = s.resets := rfl
@[simp] theorem endTx_profAt (p' : Nat) : s.endTx.profAt p' = s.profAt p' := rfl
@[simp] theorem endTx_regAt (r' : Nat) : s.endTx.regAt r' = s.regAt r' := rfl
@[simp] theorem endTx_convAt (c' : Nat) : s.endTx.convAt c' = s.convAt c' := rfl
@[simp] theorem endTx_lineOf (p' : Nat) : s.endTx.lineOf p' = s.lineOf p' := rfl
@[simp] theorem endTx_bufGet (i' : Nat) : s.endTx.bufGet i' = s.bufGet i' := rfl

/-! ### ack -/

@[simp] theorem ack_cfg (v : Option Word) : (s.ack v).cfg = s.cfg := rfl
@[simp] theorem ack_op (v : Option Word) : (s.ack v).op = s.op := rfl
@[simp] theorem ack_status (v : Option Word) : (s.ack v).status = s.status := rfl
@[simp] theorem ack_errinfo (v : Option Word) : (s.ack v).errinfo = s.errinfo := rfl
@[simp] theorem ack_val (v : Option Word) : (s.ack v).val = s.val := rfl
@[simp] theorem ack_phy (v : Option Word) : (s.ack v).phy = s.phy := rfl
@[simp] theorem ack_cslvl (v : Option Word) : (s.ack v).cslvl = s.cslvl := rfl
@[simp] theorem ack_csoe (v : Option Word) : (s.ack v).csoe = s.csoe := rfl
@[simp] theorem ack_busmode (v : Option Word) : (s.ack v).busmode = s.busmode := rfl
@[simp] theorem ack_modev (v : Option Word) : (s.ack v).modev = s.modev := rfl
@[simp] theorem ack_profs (v : Option Word) : (s.ack v).profs = s.profs := rfl
@[simp] theorem ack_regspecs (v : Option Word) : (s.ack v).regspecs = s.regspecs := rfl
@[simp] theorem ack_convs (v : Option Word) : (s.ack v).convs = s.convs := rfl
@[simp] theorem ack_buf (v : Option Word) : (s.ack v).buf = s.buf := rfl
@[simp] theorem ack_phase (v : Option Word) : (s.ack v).phase = s.phase := rfl
@[simp] theorem ack_curp (v : Option Word) : (s.ack v).curp = s.curp := rfl
@[simp] theorem ack_curlen (v : Option Word) : (s.ack v).curlen = s.curlen := rfl
@[simp] theorem ack_idx (v : Option Word) : (s.ack v).idx = s.idx := rfl
@[simp] theorem ack_clkIdle (v : Option Word) : (s.ack v).clkIdle = s.clkIdle := rfl
@[simp] theorem ack_trace (v : Option Word) : (s.ack v).trace = s.trace := rfl
@[simp] theorem ack_answer (v : Option Word) : (s.ack v).answer = some ⟨false, v⟩ := rfl
@[simp] theorem ack_busOpen (v : Option Word) : (s.ack v).busOpen = s.busOpen := rfl
@[simp] theorem ack_inputs (v : Option Word) : (s.ack v).inputs = s.inputs := rfl
@[simp] theorem ack_busScript (v : Option Word) : (s.ack v).busScript = s.busScript := rfl
@[simp] theorem ack_timerScript (v : Option Word) : (s.ack v).timerScript = s.timerScript := rfl
@[simp] theorem ack_draws (v : Option Word) : (s.ack v).draws = s.draws := rfl
@[simp] theorem ack_resets (v : Option Word) : (s.ack v).resets = s.resets := rfl
@[simp] theorem ack_profAt (v : Option Word) (p' : Nat) : (s.ack v).profAt p' = s.profAt p' := rfl
@[simp] theorem ack_regAt (v : Option Word) (r' : Nat) : (s.ack v).regAt r' = s.regAt r' := rfl
@[simp] theorem ack_convAt (v : Option Word) (c' : Nat) : (s.ack v).convAt c' = s.convAt c' := rfl
@[simp] theorem ack_lineOf (v : Option Word) (p' : Nat) : (s.ack v).lineOf p' = s.lineOf p' := rfl
@[simp] theorem ack_bufGet (v : Option Word) (i' : Nat) : (s.ack v).bufGet i' = s.bufGet i' := rfl

/-! ### nack -/

@[simp] theorem nack_cfg (v : Option Word) : (s.nack v).cfg = s.cfg := rfl
@[simp] theorem nack_op (v : Option Word) : (s.nack v).op = s.op := rfl
@[simp] theorem nack_status (v : Option Word) : (s.nack v).status = s.status := rfl
@[simp] theorem nack_errinfo (v : Option Word) : (s.nack v).errinfo = s.errinfo := rfl
@[simp] theorem nack_val (v : Option Word) : (s.nack v).val = s.val := rfl
@[simp] theorem nack_phy (v : Option Word) : (s.nack v).phy = s.phy := rfl
@[simp] theorem nack_cslvl (v : Option Word) : (s.nack v).cslvl = s.cslvl := rfl
@[simp] theorem nack_csoe (v : Option Word) : (s.nack v).csoe = s.csoe := rfl
@[simp] theorem nack_busmode (v : Option Word) : (s.nack v).busmode = s.busmode := rfl
@[simp] theorem nack_modev (v : Option Word) : (s.nack v).modev = s.modev := rfl
@[simp] theorem nack_profs (v : Option Word) : (s.nack v).profs = s.profs := rfl
@[simp] theorem nack_regspecs (v : Option Word) : (s.nack v).regspecs = s.regspecs := rfl
@[simp] theorem nack_convs (v : Option Word) : (s.nack v).convs = s.convs := rfl
@[simp] theorem nack_buf (v : Option Word) : (s.nack v).buf = s.buf := rfl
@[simp] theorem nack_phase (v : Option Word) : (s.nack v).phase = s.phase := rfl
@[simp] theorem nack_curp (v : Option Word) : (s.nack v).curp = s.curp := rfl
@[simp] theorem nack_curlen (v : Option Word) : (s.nack v).curlen = s.curlen := rfl
@[simp] theorem nack_idx (v : Option Word) : (s.nack v).idx = s.idx := rfl
@[simp] theorem nack_clkIdle (v : Option Word) : (s.nack v).clkIdle = s.clkIdle := rfl
@[simp] theorem nack_trace (v : Option Word) : (s.nack v).trace = s.trace := rfl
@[simp] theorem nack_answer (v : Option Word) : (s.nack v).answer = some ⟨true, v⟩ := rfl
@[simp] theorem nack_busOpen (v : Option Word) : (s.nack v).busOpen = s.busOpen := rfl
@[simp] theorem nack_inputs (v : Option Word) : (s.nack v).inputs = s.inputs := rfl
@[simp] theorem nack_busScript (v : Option Word) : (s.nack v).busScript = s.busScript := rfl
@[simp] theorem nack_timerScript (v : Option Word) : (s.nack v).timerScript = s.timerScript := rfl
@[simp] theorem nack_draws (v : Option Word) : (s.nack v).draws = s.draws := rfl
@[simp] theorem nack_resets (v : Option Word) : (s.nack v).resets = s.resets := rfl
@[simp] theorem nack_profAt (v : Option Word) (p' : Nat) : (s.nack v).profAt p' = s.profAt p' := rfl
@[simp] theorem nack_regAt (v : Option Word) (r' : Nat) : (s.nack v).regAt r' = s.regAt r' := rfl
@[simp] theorem nack_convAt (v : Option Word) (c' : Nat) : (s.nack v).convAt c' = s.convAt c' := rfl
@[simp] theorem nack_lineOf (v : Option Word) (p' : Nat) : (s.nack v).lineOf p' = s.lineOf p' := rfl
@[simp] theorem nack_bufGet (v : Option Word) (i' : Nat) : (s.nack v).bufGet i' = s.bufGet i' := rfl

end Sys2Proof.Machine.State
end

