-- ==== Sys2Proof/Laws/Memory.lean ====
section
/-! SUPPORT. The laws of the buffer: read after write, the canonical form is kept by every write, and reset's buffer has it. -/

namespace Sys2Proof.Machine

/-! ### One cell -/

@[simp] theorem Memory.readCell_nil (a : Nat) : Memory.readCell [] a = none := rfl

theorem Memory.readCell_cons (c : Host.Cell) (m : Memory) (a : Nat) :
    Memory.readCell (c :: m) a = if c.1 = a then some c.2 else Memory.readCell m a := rfl

theorem Memory.writeCell_cons (c : Host.Cell) (m : Memory) (a : Nat) (b : Byte) :
    Memory.writeCell (c :: m) a b =
      if a < c.1 then (a, b) :: c :: m else if a = c.1 then (a, b) :: m else c :: Memory.writeCell m a b := rfl

/-- A read at the written address gives the written byte. -/
@[simp] theorem Memory.readCell_writeCell_same (m : Memory) (a : Nat) (b : Byte) :
    (m.writeCell a b).readCell a = some b := by
  induction m with
  | nil => simp [Memory.writeCell, Memory.readCell_cons]
  | cons c m ih =>
    rw [Memory.writeCell_cons]
    split
    · simp [Memory.readCell_cons]
    · split
      · simp [Memory.readCell_cons]
      · rename_i h1 h2
        rw [Memory.readCell_cons, if_neg (by omega), ih]

/-- A write leaves every other address alone. -/
theorem Memory.readCell_writeCell_other (m : Memory) {a k : Nat} (b : Byte) (h : k ≠ a) :
    (m.writeCell a b).readCell k = m.readCell k := by
  induction m with
  | nil => simp [Memory.writeCell, Memory.readCell_cons, Ne.symm h]
  | cons c m ih =>
    rw [Memory.writeCell_cons]
    split
    · rw [Memory.readCell_cons, if_neg (Ne.symm h)]
    · split
      · rename_i h1 h2
        rw [Memory.readCell_cons, if_neg (Ne.symm h), Memory.readCell_cons, if_neg (by omega)]
      · rw [Memory.readCell_cons, ih, Memory.readCell_cons]

/-! ### The canonical form -/

theorem Memory.wf_cons {c : Host.Cell} {m : Memory} :
    Memory.wf (c :: m) = true ↔ (∀ d ∈ m.head?, c.1 < d.1) ∧ m.wf = true := by
  cases m with
  | nil => simp [Memory.wf]
  | cons d m => simp [Memory.wf]

theorem Memory.head_writeCell (m : Memory) (a : Nat) (b : Byte) :
    ∀ d ∈ (m.writeCell a b).head?, d.1 = a ∨ d ∈ m.head? := by
  intro d hd
  cases m with
  | nil => simp [Memory.writeCell] at hd; simp [← hd]
  | cons c m =>
    rw [Memory.writeCell_cons] at hd
    split at hd
    · simp at hd; simp [← hd]
    · split at hd
      · simp at hd; simp [← hd]
      · simp at hd; simp [hd]

/-- A write keeps the addresses strictly rising. -/
theorem Memory.wf_writeCell (m : Memory) (a : Nat) (b : Byte) (h : m.wf = true) : (m.writeCell a b).wf = true := by
  induction m with
  | nil => rfl
  | cons c m ih =>
    have hc := Memory.wf_cons.mp h
    rw [Memory.writeCell_cons]
    split
    · exact Memory.wf_cons.mpr ⟨by simpa, h⟩
    · split
      · rename_i h1 h2
        exact Memory.wf_cons.mpr ⟨fun d hd => h2 ▸ hc.1 d hd, hc.2⟩
      · refine Memory.wf_cons.mpr ⟨fun d hd => ?_, ih hc.2⟩
        rcases Memory.head_writeCell m a b d hd with e | e
        · omega
        · exact hc.1 d e

/-- A write in range keeps every address in range. -/
theorem Memory.within_writeCell (n : Nat) (m : Memory) (a : Nat) (b : Byte) (ha : a < n) (h : m.within n = true) :
    (m.writeCell a b).within n = true := by
  induction m with
  | nil => simp [Memory.writeCell, Memory.within, ha]
  | cons c m ih =>
    simp only [Memory.within, List.all_cons, Bool.and_eq_true] at h ih ⊢
    rw [Memory.writeCell_cons]
    split
    · simp [ha, h.1, h.2]
    · split
      · simp [ha, h.2]
      · simp [h.1, ih h.2]

/-! ### Consecutive cells -/

@[simp] theorem Memory.writeCells_nil (m : Memory) (a : Nat) : m.writeCells a [] = m := rfl

theorem Memory.writeCells_cons (m : Memory) (a : Nat) (b : Byte) (bs : List Byte) :
    m.writeCells a (b :: bs) = (m.writeCell a b).writeCells (a + 1) bs := rfl

/-- What a read gives after bytes were written at `a`: the written byte inside, the old content outside. -/
theorem Memory.readCell_writeCells (bs : List Byte) (m : Memory) (a k : Nat) :
    (m.writeCells a bs).readCell k = if a ≤ k then (bs[k - a]?).or (m.readCell k) else m.readCell k := by
  induction bs generalizing m a with
  | nil => simp
  | cons b bs ih =>
    rw [Memory.writeCells_cons, ih]
    by_cases h : a + 1 ≤ k
    · rw [if_pos h, if_pos (by omega), show k - a = (k - (a + 1)) + 1 by omega, List.getElem?_cons_succ,
        Memory.readCell_writeCell_other _ _ (by omega)]
    · rw [if_neg h]
      by_cases e : k = a
      · subst e; simp
      · rw [if_neg (by omega), Memory.readCell_writeCell_other _ _ e]

theorem Memory.wf_writeCells (bs : List Byte) (m : Memory) (a : Nat) (h : m.wf = true) : (m.writeCells a bs).wf = true := by
  induction bs generalizing m a with
  | nil => exact h
  | cons b bs ih => exact ih _ _ (Memory.wf_writeCell m a b h)

theorem Memory.within_writeCells (n : Nat) (bs : List Byte) (m : Memory) (a : Nat) (ha : a + bs.length ≤ n)
    (h : m.within n = true) : (m.writeCells a bs).within n = true := by
  induction bs generalizing m a with
  | nil => exact h
  | cons b bs ih =>
    simp only [List.length_cons] at ha
    exact ih _ _ (by omega) (Memory.within_writeCell n m a b (by omega) h)

/-! ### The buffer of a state -/

/-- What `BUF[k]` is after `MemWrite(a, bs)`: the written byte inside, as before outside. -/
theorem State.bufGet_memWrite (s : State) (a k : Nat) (bs : List Byte) :
    (s.memWrite a bs).bufGet k = if a ≤ k then (bs[k - a]?).getD (s.bufGet k) else s.bufGet k := by
  unfold State.bufGet
  rw [State.memWrite_buf, State.memWrite_resets, Memory.readCell_writeCells]
  split
  · cases bs[k - a]? <;> rfl
  · rfl

/-- `BUF[k]` depends on the buffer and the reset count alone. -/
theorem State.bufGet_congr {s t : State} (hb : t.buf = s.buf) (hr : t.resets = s.resets) (k : Nat) :
    t.bufGet k = s.bufGet k := by
  simp [State.bufGet, hb, hr]

@[simp] theorem State.length_memRead (s : State) (a n : Nat) : (s.memRead a n).length = n := by
  simp [State.memRead]

theorem State.getElem?_memRead (s : State) (a n i : Nat) :
    (s.memRead a n)[i]? = if i < n then some (s.bufGet (a + i)) else none := by
  simp only [State.memRead, List.getElem?_map]
  split
  · rename_i h; simp [List.getElem?_range h]
  · rename_i h; simp [List.getElem?_eq_none (l := List.range n) (by simpa using h)]

/-- Two buffers that agree on the cells read give the same bytes. -/
theorem State.memRead_congr {s t : State} (a n : Nat) (h : ∀ k, a ≤ k → k < a + n → t.bufGet k = s.bufGet k) :
    t.memRead a n = s.memRead a n := by
  apply List.map_congr_left
  intro i hi
  exact h _ (by omega) (by have := List.mem_range.mp hi; omega)

/-- Reading back the bytes just written. -/
theorem State.memRead_memWrite_same (s : State) (a : Nat) (bs : List Byte) :
    (s.memWrite a bs).memRead a bs.length = bs := by
  apply List.ext_getElem?
  intro i
  rw [State.getElem?_memRead]
  split
  · rename_i h
    rw [State.bufGet_memWrite, if_pos (by omega), Nat.add_sub_cancel_left, List.getElem?_eq_getElem h, Option.getD_some]
  · rename_i h; rw [List.getElem?_eq_none (by omega)]

/-- Reset's buffer is canonical: nothing is listed. -/
theorem State.atReset_buf_wf (c : Params) (epoch : Nat) : (State.atReset c epoch).buf.wf = true := rfl

theorem State.reset_buf_wf : State.reset.buf.wf = true := rfl

/-- The buffer write keeps the canonical form. -/
theorem State.memWrite_wf (s : State) (a : Nat) (bs : List Byte) (h : s.buf.wf = true) : (s.memWrite a bs).buf.wf = true :=
  Memory.wf_writeCells bs s.buf a h

end Sys2Proof.Machine
end

