-- ==== Sys2Proof/Laws/Ops.lean ====
section
/-! SUPPORT. One lemma per shared operation: what a request to the environment can answer, what launch checks decide, what a
select pad write does. Later proofs cite these and do not unfold the operations. -/

namespace Sys2Proof.Machine

/-! ### Pads -/

/-- A pad write changes its own line alone. -/
theorem getLsbD_setBit (v : Word) (k j : Nat) (b : Bool) :
    (setBit v k b).getLsbD j = if j = k ∧ j < 32 then b else v.getLsbD j := by
  unfold setBit
  by_cases hj : j < 32
  · by_cases e : j = k
    · subst e
      cases b <;> simp [hj]
    · cases b <;> simp [hj, e] <;> omega
  · have e1 : ∀ w : Word, w.getLsbD j = false := fun w => BitVec.getLsbD_of_ge _ _ (by omega)
    simp [e1, hj]

theorem getLsbD_allHigh (n j : Nat) (hn : n ≤ 32) : (allHigh n).getLsbD j = decide (j < n) := by
  simp only [allHigh, BitVec.getLsbD_ofNat, Nat.testBit_two_pow_sub_one]
  by_cases h : j < n
  · simp [h]; omega
  · simp [h]

/-! ### The environment -/

/-- The cases of `BusSetMode`: an answer with its event, or none for ever. -/
theorem State.busSetMode_eq (s : State) (m : BitVec 2) :
    s.busSetMode m = s.busReply.map fun
      | .ok _ => (.ok, s.busTaken.emit (.modeSet m .ok))
      | .fail e => (.fail e, s.busTaken.emit (.modeSet m (.fail e))) := by
  unfold State.busSetMode
  cases s.busReply with
  | none => rfl
  | some r => cases r <;> rfl

@[simp] theorem State.length_received (s : State) (n : Nat) (rx : List Byte) : (s.received n rx).length = n := by
  simp [State.received]

/-- A scripted answer of the requested length is received as it is. -/
theorem State.received_eq (s : State) (n : Nat) (rx : List Byte) (h : rx.length = n) : s.received n rx = rx := by
  apply List.ext_getElem?
  intro i
  simp only [State.received, List.getElem?_map]
  by_cases hi : i < n
  · have : i < rx.length := by omega
    simp [List.getElem?_range hi, this]
  · rw [List.getElem?_eq_none (by simpa using Nat.le_of_not_lt hi), List.getElem?_eq_none (by omega)]
    rfl

/-- The cases of `BusTransfer`. -/
theorem State.busTransfer_eq (s : State) (m : BitVec 2) (hz : Word) (tx : List Byte) :
    s.busTransfer m hz tx = s.busReply.map fun
      | .ok rx => (.ok (s.busTaken.received tx.length rx),
          (s.busTaken.drew tx.length).emit (.xfer m hz tx (.ok (s.busTaken.received tx.length rx))))
      | .fail e => (.fail e, s.busTaken.emit (.xfer m hz tx (.fail e))) := by
  unfold State.busTransfer
  cases s.busReply with
  | none => rfl
  | some r => cases r <;> rfl

/-- The Bus Channel never answers only if its script says so. -/
theorem State.busReply_none {s : State} (h : s.busReply = none) : ∃ l, s.busScript = none :: l := by
  unfold State.busReply at h
  split at h
  · rename_i a l e; exact ⟨l, by rw [e, h]⟩
  · split at h <;> simp at h

theorem State.busReply_cons {s : State} {a : Option Reply} {l : List (Option Reply)} (h : s.busScript = a :: l) :
    s.busReply = a := by
  unfold State.busReply; rw [h]

/-- The cases of `Sleep`: it ends unless the timer script says it never does. -/
theorem State.sleep_cases (s : State) (n : Word) :
    (s.sleep n = none ∧ false ∈ s.timerScript) ∨
      s.sleep n = some ({ s with timerScript := s.timerScript.tail }.emit (.sleep n)) := by
  unfold State.sleep
  split
  · rename_i l e; left; simp [e]
  · right; rfl

theorem State.sleep_of_answers {s : State} (n : Word) (h : TimerAnswers s) :
    s.sleep n = some ({ s with timerScript := s.timerScript.tail }.emit (.sleep n)) := by
  rcases s.sleep_cases n with e | e
  · exact absurd (h _ e.2) (by simp)
  · exact e

theorem TimerAnswers.tail {s t : State} (h : TimerAnswers s) (e : t.timerScript = s.timerScript.tail) : TimerAnswers t := by
  intro b hb; rw [e] at hb; exact h b (List.mem_of_mem_tail hb)

/-! ### Launch checks -/

@[simp] theorem firstFailure_nil : firstFailure [] = none := rfl

theorem firstFailure_cons (ok : Bool) (c : CfgCause) (l : List (Bool × CfgCause)) :
    firstFailure ((ok, c) :: l) = if ok then firstFailure l else some c := rfl

/-- Launch checks pass iff every condition holds. -/
theorem firstFailure_eq_none (l : List (Bool × CfgCause)) : firstFailure l = none ↔ ∀ p ∈ l, p.1 = true := by
  induction l with
  | nil => simp
  | cons p l ih =>
    obtain ⟨ok, c⟩ := p
    rw [firstFailure_cons]
    cases ok <;> simp [ih]

/-- A reported cause stands in the list of checks. -/
theorem firstFailure_mem {l : List (Bool × CfgCause)} {c : CfgCause} (h : firstFailure l = some c) : (false, c) ∈ l := by
  induction l with
  | nil => simp at h
  | cons p l ih =>
    obtain ⟨ok, d⟩ := p
    rw [firstFailure_cons] at h
    cases ok
    · simp at h; simp [h]
    · simp at h; simp [ih h]

theorem State.launchWith_pass {s : State} {l : List (Bool × CfgCause)} (run : Host.Outcome State Fault Refusal)
    (h : ∀ p ∈ l, p.1 = true) : s.launchWith l run = run := by
  simp [State.launchWith, (firstFailure_eq_none l).mpr h]

theorem State.launchWith_fail {s : State} {l : List (Bool × CfgCause)} {c : CfgCause}
    (run : Host.Outcome State Fault Refusal) (h : firstFailure l = some c) :
    s.launchWith l run = .next (s.raiseConfig c) := by
  simp [State.launchWith, h]

/-- Everything an operation with launch checks can do: report the first failing check, or run. -/
theorem State.launchWith_cases (s : State) (l : List (Bool × CfgCause)) (run : Host.Outcome State Fault Refusal) :
    (∃ c, firstFailure l = some c ∧ s.launchWith l run = .next (s.raiseConfig c)) ∨
      (∀ p ∈ l, p.1 = true) ∧ s.launchWith l run = run := by
  cases h : firstFailure l with
  | some c => exact .inl ⟨c, rfl, s.launchWith_fail run h⟩
  | none =>
    have h' := (firstFailure_eq_none l).mp h
    exact .inr ⟨h', s.launchWith_pass run h'⟩

/-! ### Status words -/

@[simp] theorem OpError.status_modeSetFailed (e : Word) : (OpError.modeSetFailed e).status = 0x003 := by
  simp [OpError.status, OpError.kind, OpError.cfgc]

@[simp] theorem OpError.status_transferFailed (e : Word) : (OpError.transferFailed e).status = 0x005 := by
  simp [OpError.status, OpError.kind, OpError.cfgc]

@[simp] theorem OpError.status_checksum (hi lo : Byte) : (OpError.checksum hi lo).status = 0x007 := by
  simp [OpError.status, OpError.kind, OpError.cfgc]

/-- `STATUS` = 0x00000n09 for a `ConfigurationError` with sub-code n (R236). -/
theorem OpError.status_configuration (c : CfgCause) (w : Word) :
    (OpError.configuration c w).status = BitVec.ofNat 32 (0x009 + 0x100 * c.code.toNat) := by
  cases c <;> simp [OpError.status, OpError.kind, OpError.cfgc, CfgCause.code]

/-- The configuration error of the running operation, as R236 tabulates it. -/
theorem State.raiseConfig_eq (s : State) (c : CfgCause) : s.raiseConfig c = s.configError c.code.toNat := by
  simp only [State.raiseConfig, State.raise, State.configError, OpError.status_configuration, OpError.info]

/-- `STATUS` after each way an operation ends is one of the legal words (60_exceptions.md R231 to R236). -/
theorem legalStatus_done (sat : Bool) : legalStatus (statusDone sat) = true := by cases sat <;> decide

theorem legalStatus_error (e : OpError) : legalStatus e.status = true := by
  cases e with
  | configuration c w => cases c <;> simp [OpError.status, OpError.kind, OpError.cfgc, CfgCause.code, legalStatus]
  | _ => simp [OpError.status, OpError.kind, OpError.cfgc, legalStatus]

end Sys2Proof.Machine
end

