-- ==== Sys2Proof/Laws/Codec.lean ====
section
/-! SUPPORT. The codec and the parity check as arithmetic: masks are remainders, the accumulator is a big-endian number, sign
extension is the two's-complement reading (42_codec.md R150 to R158, 45_encoder.md R211, R213). -/

namespace Sys2Proof.Machine

theorem toNat_maskBits {w : Nat} (h : w ≤ 32) : (maskBits w).toNat = 2 ^ w - 1 := by
  rw [maskBits, BitVec.toNat_ofNat, Nat.mod_eq_of_lt]
  have : 2 ^ w ≤ 2 ^ 32 := Nat.pow_le_pow_right (by omega) h
  have := Nat.two_pow_pos w
  omega

/-- A mask is a remainder. -/
theorem toNat_and_maskBits (v : Word) {w : Nat} (h : w ≤ 32) : (v &&& maskBits w).toNat = v.toNat % 2 ^ w := by
  rw [BitVec.toNat_and, toNat_maskBits h, Nat.and_two_pow_sub_one_eq_mod]

theorem getLsbD_maskBits (w j : Nat) : (maskBits w).getLsbD j = (decide (j < w) && decide (j < 32)) := by
  rw [maskBits, BitVec.getLsbD_ofNat, Nat.testBit_two_pow_sub_one, Bool.and_comm]

/-! ### Big-endian numbers -/

theorem bigEndian_nil : bigEndian [] = 0 := rfl

theorem foldl_bigEndian (bs : List Byte) (n : Nat) :
    bs.foldl (fun acc b => acc * 256 + b.toNat) n = n * 256 ^ bs.length + bigEndian bs := by
  unfold bigEndian
  induction bs generalizing n with
  | nil => simp
  | cons b bs ih =>
    rw [List.foldl_cons, ih, List.foldl_cons, ih (0 * 256 + b.toNat), List.length_cons, Nat.pow_succ]
    ring

theorem bigEndian_cons (b : Byte) (bs : List Byte) : bigEndian (b :: bs) = b.toNat * 256 ^ bs.length + bigEndian bs := by
  rw [bigEndian, List.foldl_cons, foldl_bigEndian]
  simp

theorem bigEndian_lt (bs : List Byte) : bigEndian bs < 256 ^ bs.length := by
  induction bs with
  | nil => simp [bigEndian]
  | cons b bs ih =>
    rw [bigEndian_cons, List.length_cons, Nat.pow_succ]
    have := b.isLt
    have h : (b.toNat + 1) * 256 ^ bs.length ≤ 256 * 256 ^ bs.length := Nat.mul_le_mul_right _ (by omega)
    rw [Nat.add_mul] at h
    omega

/-- One turn of the accumulator (R153). -/
theorem toNat_accumulate_step (acc : Word) (b : Byte) :
    (acc <<< 8 ||| b.setWidth 32).toNat = (acc.toNat * 256 + b.toNat) % 2 ^ 32 := by
  have hb := b.isLt
  rw [BitVec.toNat_or, BitVec.toNat_shiftLeft, BitVec.toNat_setWidth, Nat.mod_eq_of_lt (a := b.toNat) (by omega),
    Nat.shiftLeft_eq]
  have h1 : acc.toNat * 2 ^ 8 % 2 ^ 32 = (acc.toNat % 2 ^ 24) <<< 8 := by rw [Nat.shiftLeft_eq]; omega
  rw [h1, ← Nat.shiftLeft_add_eq_or_of_lt hb, Nat.shiftLeft_eq]
  omega

theorem toNat_accumulate (bs : List Byte) : (accumulate bs).toNat = bigEndian bs % 2 ^ 32 := by
  have : ∀ (bs : List Byte) (acc : Word) (n : Nat), acc.toNat = n % 2 ^ 32 →
      (bs.foldl (fun (acc : Word) (b : Byte) => acc <<< 8 ||| b.setWidth 32) acc).toNat =
        (bs.foldl (fun acc b => acc * 256 + b.toNat) n) % 2 ^ 32 := by
    intro bs
    induction bs with
    | nil => intro acc n h; exact h
    | cons b bs ih =>
      intro acc n h
      rw [List.foldl_cons, List.foldl_cons]
      apply ih
      rw [toNat_accumulate_step, h]
      omega
  exact this bs 0#32 0 rfl

/-- `Unpack` is the big-endian number modulo 2^w (R153). -/
theorem toNat_unpackBytes (bs : List Byte) {w : Nat} (h : w ≤ 32) : (unpackBytes bs w).toNat = bigEndian bs % 2 ^ w := by
  rw [unpackBytes, toNat_and_maskBits _ h, toNat_accumulate, Nat.mod_mod_of_dvd]
  exact Nat.pow_dvd_pow 2 h

/-! ### Extension -/

theorem toNat_zextWord (v : Word) {w : Nat} (h : w ≤ 32) : (zextWord w v).toNat = v.toNat % 2 ^ w := toNat_and_maskBits v h

/-- The sign bit of the low `w` bits. -/
theorem getLsbD_sign (v : Word) {w : Nat} (h1 : 1 ≤ w) : v.getLsbD (w - 1) = decide (2 ^ (w - 1) ≤ v.toNat % 2 ^ w) := by
  have hp : 2 ^ w = 2 * 2 ^ (w - 1) := by rw [← Nat.pow_succ']; congr 1; omega
  have hpos := Nat.two_pow_pos (w - 1)
  rw [BitVec.getLsbD, Nat.testBit_eq_decide_div_mod_eq, hp, Nat.mul_comm 2, Nat.mod_mul]
  have := Nat.mod_lt v.toNat hpos
  have h2 : v.toNat / 2 ^ (w - 1) % 2 = 0 ∨ v.toNat / 2 ^ (w - 1) % 2 = 1 := by omega
  rcases h2 with h2 | h2
  · rw [h2]; simp; exact Nat.mod_lt _ hpos
  · rw [h2]; simp

/-- `sext_w` is the two's-complement reading of the low `w` bits (00_scope.md R8). -/
theorem sextWord_eq (v : Word) {w : Nat} (h1 : 1 ≤ w) (h2 : w ≤ 32) :
    sextWord w v =
      if 2 ^ (w - 1) ≤ v.toNat % 2 ^ w then BitVec.ofInt 32 ((v.toNat % 2 ^ w : Nat) - 2 ^ w : Int)
      else BitVec.ofNat 32 (v.toNat % 2 ^ w) := by
  have hle : 2 ^ w ≤ 2 ^ 32 := Nat.pow_le_pow_right (by omega) h2
  have hlt := Nat.mod_lt v.toNat (Nat.two_pow_pos w)
  unfold sextWord
  rw [getLsbD_sign v h1]
  simp only [decide_eq_true_eq]
  split
  · apply BitVec.eq_of_toNat_eq
    rw [BitVec.toNat_or, toNat_and_maskBits v h2, BitVec.toNat_not, toNat_maskBits h2]
    have e : 2 ^ 32 - 1 - (2 ^ w - 1) = (2 ^ (32 - w) - 1) <<< w := by
      rw [Nat.shiftLeft_eq, Nat.sub_mul, ← Nat.pow_add, show 32 - w + w = 32 by omega]
      have := Nat.two_pow_pos w
      omega
    rw [e, Nat.or_comm, ← Nat.shiftLeft_add_eq_or_of_lt hlt, ← e, BitVec.toNat_ofInt]
    have := Nat.two_pow_pos w
    have e2 : (((v.toNat % 2 ^ w : Nat) : Int) - 2 ^ w) % ((2 ^ 32 : Nat) : Int) =
        ((v.toNat % 2 ^ w : Nat) : Int) - 2 ^ w + 2 ^ 32 := by
      have hle' : (2 : Int) ^ w ≤ 2 ^ 32 := by exact_mod_cast hle
      have hlt' : ((v.toNat % 2 ^ w : Nat) : Int) < 2 ^ w := by exact_mod_cast hlt
      have : (0 : Int) < 2 ^ w := by positivity
      rw [← Int.add_emod_right]
      apply Int.emod_eq_of_lt <;> push_cast <;> push_cast at hlt' <;> omega
    rw [e2]
    have hle' : (2 : Int) ^ w ≤ 2 ^ 32 := by exact_mod_cast hle
    have hc : ((2 ^ w : Nat) : Int) = 2 ^ w := by push_cast; rfl
    omega
  · apply BitVec.eq_of_toNat_eq
    rw [toNat_and_maskBits v h2, BitVec.toNat_ofNat, Nat.mod_eq_of_lt (Nat.lt_of_lt_of_le hlt hle)]

/-- SEXT bit by bit (R155). -/
theorem getLsbD_orSignBits (w : Nat) (v : Word) (j : Nat) (hj : j < 32) :
    (orSignBits w v).getLsbD j = (v.getLsbD j || (decide (w ≤ j) && v.getLsbD (w - 1))) := by
  unfold orSignBits
  split
  · rename_i h
    rw [BitVec.getLsbD_or, BitVec.getLsbD_not, getLsbD_maskBits, h]
    by_cases hw : w ≤ j
    · simp [hj, hw]
    · simp [hj, hw]
  · rename_i h
    simp [h]

/-! ### Packed bytes -/

theorem getElem?_packBytes (v : Word) {w i : Nat} (h : i < byteLength w) :
    (packBytes v w)[i]? = some (BitVec.ofNat 8 (v.toNat / 2 ^ (8 * (byteLength w - i - 1)))) := by
  rw [packBytes, List.getElem?_map, List.getElem?_range h, Option.map_some]
  congr 1
  apply BitVec.eq_of_toNat_eq
  rw [BitVec.toNat_setWidth, BitVec.toNat_ushiftRight, Nat.shiftRight_eq_div_pow, BitVec.toNat_ofNat, Nat.mul_comm]

/-- `Pack` keeps the low bits of the value, most significant byte first (R151). -/
theorem bigEndian_packBytes (v : Word) (w : Nat) : bigEndian (packBytes v w) = v.toNat % 2 ^ (8 * byteLength w) := by
  have key : ∀ n, bigEndian ((List.range n).map fun i => (v >>> ((n - i - 1) * 8)).setWidth 8) = v.toNat % 2 ^ (8 * n) := by
    intro n
    induction n with
    | zero => simp [bigEndian, Nat.mod_one]
    | succ n ih =>
      rw [List.range_succ_eq_map, List.map_cons, List.map_map, bigEndian_cons]
      have e : (List.range n).map ((fun i => (v >>> ((n + 1 - i - 1) * 8)).setWidth 8) ∘ Nat.succ) =
          (List.range n).map fun i => (v >>> ((n - i - 1) * 8)).setWidth 8 := by
        apply List.map_congr_left
        intro i _
        show (v >>> ((n + 1 - (i + 1) - 1) * 8)).setWidth 8 = _
        rw [show n + 1 - (i + 1) - 1 = n - i - 1 by omega]
      rw [e, ih, List.length_map, List.length_range, BitVec.toNat_setWidth, BitVec.toNat_ushiftRight,
        Nat.shiftRight_eq_div_pow, show (256 : Nat) ^ n = 2 ^ (8 * n) by rw [Nat.pow_mul],
        show (n + 1 - 0 - 1) * 8 = 8 * n by omega, show 8 * (n + 1) = 8 * n + 8 by omega, Nat.pow_add, Nat.mod_mul]
      ring
  exact key (byteLength w)

theorem le_byteLength (w : Nat) : w ≤ 8 * byteLength w := by unfold byteLength; omega

/-- Packing and unpacking is the remainder modulo 2^w (R157). -/
theorem toNat_unpack_pack (v : Word) {w : Nat} (h : w ≤ 32) : (unpackBytes (packBytes v w) w).toNat = v.toNat % 2 ^ w := by
  rw [toNat_unpackBytes _ h, bigEndian_packBytes, Nat.mod_mod_of_dvd]
  exact Nat.pow_dvd_pow 2 (le_byteLength w)

/-- The launch checks of PACK, UNPACK and UNPACKS pass (R152, R154, R156). -/
theorem State.codecChecks_pass {s : State} {w off : Nat} (h1 : 1 ≤ w) (h2 : w ≤ 32) (h3 : off + byteLength w ≤ s.cfg.bufsz) :
    ∀ p ∈ s.codecChecks w off, p.1 = true := by
  simp [State.codecChecks, legalWidth, State.inBuffer, h1, h2, h3]

/-- The launch check of SEXT passes (R155). -/
theorem sextChecks_pass {w : Nat} (h1 : 1 ≤ w) (h2 : w ≤ 32) : ∀ p ∈ sextChecks w, p.1 = true := by
  simp [sextChecks, legalWidth, h1, h2]

/-! ### The encoder frame -/

theorem parityPass_eq_framePasses (o : KBitOrder) (hi lo : Byte) : parityPass o hi lo = framePasses o hi lo := by
  have h1 : (!oddParity hi lo) = decide ((onesOf hi [5, 3, 1] + onesOf lo [7, 5, 3, 1]) % 2 = 0) := by
    simp only [oddParity, onesOf, List.countP_cons, List.countP_nil]
    cases hi.getLsbD 5 <;> cases hi.getLsbD 3 <;> cases hi.getLsbD 1 <;> cases lo.getLsbD 7 <;> cases lo.getLsbD 5 <;>
      cases lo.getLsbD 3 <;> cases lo.getLsbD 1 <;> rfl
  have h2 : (!evenParity hi lo) = decide ((onesOf hi [4, 2, 0] + onesOf lo [6, 4, 2, 0]) % 2 = 0) := by
    simp only [evenParity, onesOf, List.countP_cons, List.countP_nil]
    cases hi.getLsbD 4 <;> cases hi.getLsbD 2 <;> cases hi.getLsbD 0 <;> cases lo.getLsbD 6 <;> cases lo.getLsbD 4 <;>
      cases lo.getLsbD 2 <;> cases lo.getLsbD 0 <;> rfl
  unfold parityPass framePasses
  rw [h1, h2]
  cases o <;> rfl

theorem toNat_pos14 (hi lo : Byte) : (pos14 hi lo).toNat = hi.toNat % 64 * 256 + lo.toNat := by
  have h1 := hi.isLt
  have h2 := lo.isLt
  have e : (hi &&& 0x3F#8).toNat = hi.toNat % 64 := by
    rw [BitVec.toNat_and]
    exact Nat.and_two_pow_sub_one_eq_mod hi.toNat 6
  rw [pos14, BitVec.toNat_or, BitVec.toNat_shiftLeft, BitVec.toNat_setWidth, BitVec.toNat_setWidth, e,
    Nat.mod_eq_of_lt (a := hi.toNat % 64) (by omega), Nat.mod_eq_of_lt (a := lo.toNat) (by omega), Nat.mod_eq_of_lt,
    ← Nat.shiftLeft_add_eq_or_of_lt h2, Nat.shiftLeft_eq]
  rw [Nat.shiftLeft_eq]
  omega

/-- The position as a number (R213). -/
theorem position_eq (r12 : Bool) (hi lo : Byte) :
    position r12 hi lo = BitVec.ofNat 32 ((hi.toNat % 64 * 256 + lo.toNat) / (if r12 then 4 else 1)) := by
  have h1 := hi.isLt
  have h2 := lo.isLt
  apply BitVec.eq_of_toNat_eq
  rw [BitVec.toNat_ofNat]
  cases r12
  · simp only [position, Bool.false_eq_true, if_false, toNat_pos14]
    omega
  · simp only [position, if_true, BitVec.toNat_ushiftRight, toNat_pos14, Nat.shiftRight_eq_div_pow]
    omega

/-- `ERRINFO` of a checksum error as a number (R235). -/
theorem checksum_info_eq (hi lo : Byte) : (OpError.checksum hi lo).info = BitVec.ofNat 32 (hi.toNat * 256 + lo.toNat) := by
  have h1 := hi.isLt
  have h2 := lo.isLt
  apply BitVec.eq_of_toNat_eq
  simp only [OpError.info]
  rw [BitVec.toNat_or, BitVec.toNat_shiftLeft, BitVec.toNat_setWidth, BitVec.toNat_setWidth, BitVec.toNat_ofNat,
    Nat.mod_eq_of_lt (a := hi.toNat) (by omega), Nat.mod_eq_of_lt (a := lo.toNat) (by omega), Nat.mod_eq_of_lt,
    ← Nat.shiftLeft_add_eq_or_of_lt h2, Nat.shiftLeft_eq]
  · omega
  · rw [Nat.shiftLeft_eq]; omega

end Sys2Proof.Machine
end

