-- ==== Sys2Proof/Laws/Convert.lean ====
section
/-! SUPPORT. The unit converter's integer forms are the rational ones of 43_convert.md R171 to R175. -/

namespace Sys2Proof.Machine

theorem floor_div_int (n : Int) {d : Int} (h : 0 < d) : ⌊((n : ℚ) / d)⌋ = n / d := by
  obtain ⟨k, rfl⟩ := Int.eq_ofNat_of_zero_le h.le
  exact_mod_cast Rat.floor_intCast_div_natCast n k

/-- The ceiling of a quotient as a floor division (R172, the integer form of CEIL). -/
theorem ceil_div_int (n : Int) {d : Int} (h : 0 < d) : ⌈((n : ℚ) / d)⌉ = -Int.fdiv (-n) d := by
  rw [Int.fdiv_eq_ediv_of_nonneg _ h.le, ← floor_div_int (-n) h]
  push_cast
  rw [neg_div, Int.floor_neg, neg_neg]

/-- Division toward zero is `trunc` of the quotient (00_scope.md R9). -/
theorem tdiv_eq_truncate (n : Int) {d : Int} (h : 0 < d) : Int.tdiv n d = truncate ((n : ℚ) / d) := by
  have hd : (0 : ℚ) < d := by exact_mod_cast h
  unfold truncate
  by_cases hn : 0 ≤ n
  · have hq : (0 : ℚ) ≤ n := by exact_mod_cast hn
    rw [if_pos (div_nonneg hq hd.le), Int.tdiv_eq_ediv_of_nonneg hn, floor_div_int n h]
  · have hq : (n : ℚ) < 0 := by exact_mod_cast not_le.mp hn
    rw [if_neg (not_le.mpr (div_neg_of_neg_of_pos hq hd)), ceil_div_int n h, Int.fdiv_eq_ediv_of_nonneg _ h.le,
      ← Int.tdiv_eq_ediv_of_nonneg (by omega), Int.neg_tdiv, neg_neg]

theorem scaledDen_pos {sd : Word} (h : sd ≠ 0) : 0 < scaledDen sd := by
  unfold scaledDen
  have : 0 < sd.toNat := Nat.pos_of_ne_zero fun e => h (BitVec.eq_of_toNat_eq e)
  positivity

/-- The exact product is N / D (R172). -/
theorem scaledQuantity_eq (s : State) (conv : Nat) :
    scaledQuantity s conv = (scaledNum s.phy (s.convAt conv).csn : ℚ) / (scaledDen (s.convAt conv).csd : ℚ) := by
  unfold scaledQuantity scaledNum scaledDen Config.phyFraction
  push_cast
  rw [div_mul_eq_mul_div, div_div]
  norm_num

/-- The rounded encoding is r of R171. -/
theorem encodedValue_eq (s : State) (conv : Nat) (h : (s.convAt conv).csd ≠ 0) :
    encodedValue (s.convAt conv) s.phy = roundedQuantity s conv := by
  have hd := scaledDen_pos h
  have hq : (0 : ℚ) < (scaledDen (s.convAt conv).csd : ℚ) := by exact_mod_cast hd
  unfold encodedValue roundedQuantity roundRule
  rw [scaledQuantity_eq]
  split
  · exact tdiv_eq_truncate _ hd
  · split
    · exact (ceil_div_int _ hd).symm
    · rw [tdiv_eq_truncate _ (by omega)]
      congr 1
      push_cast
      field_simp

/-- The clamp of R172 over the integers. -/
theorem clampEnc_eq (w : Nat) (r : Int) : clampEnc w r = BitVec.ofNat 32 (max 0 (min r (2 ^ w - 1))).toNat := by
  unfold clampEnc maxEnc
  congr 1
  have := Nat.two_pow_pos w
  have e : ((2 ^ w - 1 : Nat) : Int) = 2 ^ w - 1 := by
    rw [Nat.cast_sub (by omega)]; push_cast; rfl
  omega

theorem maxEnc_eq (w : Nat) : (maxEnc w : Int) = 2 ^ w - 1 := by
  unfold maxEnc
  rw [Nat.cast_sub (Nat.two_pow_pos w)]; push_cast; rfl

/-- The decoded quantity is q of R175. -/
theorem decodedQuantity_eq (s : State) (conv : Nat) (hw : (s.convAt conv).width.toNat ≤ 32) (h : (s.convAt conv).csn ≠ 0) :
    (decodedQuantity (s.convAt conv) s.val : Int) = dividedQuantity s conv := by
  have hp : 0 < (s.convAt conv).csn.toNat := Nat.pos_of_ne_zero fun e => h (BitVec.eq_of_toNat_eq e)
  unfold decodedQuantity dividedQuantity Config.phyFraction
  rw [toNat_and_maskBits _ hw]
  have := floor_div_int (((s.val.toNat % 2 ^ (s.convAt conv).width.toNat) * (s.convAt conv).csd.toNat * 2 ^ 32 : Nat) : Int)
    (d := ((s.convAt conv).csn.toNat : Int)) (by exact_mod_cast hp)
  push_cast at this ⊢
  exact this.symm

/-- The launch checks of UENC and UDEC pass (R172, R175). -/
theorem Convertible.checks {s : State} {conv : Nat} (h : Convertible s conv) : ∀ p ∈ s.convChecks conv, p.1 = true := by
  have h1 := h.csn
  have h2 := h.csd
  have h3 := h.rnd
  simp only [State.convChecks, List.mem_cons, List.not_mem_nil, or_false, forall_eq_or_imp, forall_eq, decide_eq_true_eq]
  exact ⟨h.index, h.valid, by simp [legalWidth, h.low, h.high], h1, h2, h3⟩

end Sys2Proof.Machine
end

