-- ==== Sys2Proof/Laws/HostPort.lean ====
section
/-! SUPPORT. The host register port: what a step does for each kind of input, and which register each offset of the map
names (10_state.md R46). Claims about host accesses cite these and do not unfold `regAtOffset`. -/

namespace Sys2Proof.Machine

/-! ### A step -/

/-- A step serves the oldest input. -/
theorem Serves.step_eq {s : State} {i : Input} {rest : List Input} (h : Serves s i rest) :
    step s = ({ s with inputs := rest } : State).serve i := by
  obtain ⟨h1, h2⟩ := h
  simp only [step, State.turn, h2, h1, if_true]

/-- What a step can be: nothing to do, an input served, or a refusal while the sequencer runs. -/
theorem step_cases (s : State) :
    step s = .next s ∨ (∃ i rest, Serves s i rest ∧ step s = ({ s with inputs := rest } : State).serve i) ∨
      ∃ r, step s = .refused r := by
  rcases h : s.inputs with _ | ⟨i, rest⟩
  · exact .inl (by simp only [step, State.turn, h])
  · by_cases hp : s.phase = .idle
    · exact .inr (.inl ⟨i, rest, ⟨hp, h⟩, Serves.step_eq ⟨hp, h⟩⟩)
    · exact .inr (.inr ⟨busyRefusal i, by simp only [step, State.turn, h, hp, if_false]⟩)

/-! ### The register map -/

/-- An offset names a register exactly if it is in the map. -/
theorem regAtOffset_isSome {c : Params} (hl : c.legal = true) (off : BitVec 16) :
    (regAtOffset c off).isSome = mappedOffset c off.toNat := by
  have hl : c.nprof ≤ 256 ∧ c.nreg ≤ 256 ∧ c.nconv ≤ 256 := by simp [Params.legal] at hl; omega
  unfold regAtOffset mappedOffset
  generalize off.toNat = o
  by_cases h4 : o % 4 = 0
  swap
  · simp [h4]
  simp only [h4, ne_eq, not_true_eq_false, if_false, true_and]
  by_cases h1 : o < 0x1000
  · rw [if_pos h1]
    by_cases hc : o ≤ 0x28
    · rw [(show ∀ n < 11, (controlReg n).isSome = true by decide) _ (by omega)]
      simp [hc]
    · have hx : ∀ n, 11 ≤ n → (controlReg n).isSome = false := by
        intro n hn
        unfold controlReg
        split <;> first | omega | rfl
      rw [hx _ (by omega)]
      simp only [Bool.false_eq, decide_eq_false_iff_not]
      omega
  have pick : ∀ (b : Prop) [Decidable b] (r : HostReg), (if b then some r else none).isSome = decide b := by
    intro b _ r; by_cases h : b <;> simp [h]
  rw [if_neg h1]
  by_cases h3 : o < 0x3000
  · rw [if_pos h3, pick, decide_eq_decide]; omega
  rw [if_neg h3]
  by_cases h4 : o < 0x4000
  · rw [if_pos h4, pick, decide_eq_decide]; omega
  rw [if_neg h4]
  by_cases h5 : o < 0x5000
  · rw [if_pos h5, pick, decide_eq_decide]; omega
  · rw [if_neg h5, pick, decide_eq_decide]; omega

/-- The control registers' offsets. -/
theorem regAtOffset_control (c : Params) (n : Nat) (h : n ≤ 10) : regAtOffset c (BitVec.ofNat 16 (4 * n)) = controlReg n := by
  have e : (BitVec.ofNat 16 (4 * n)).toNat = 4 * n := by simp; omega
  unfold regAtOffset
  rw [e, if_neg (by omega), if_pos (by omega), show 4 * n / 4 = n by omega]

/-- The offset of word `n` of profile entry `p` (R31). -/
theorem regAtOffset_prof {c : Params} (hl : c.legal = true) {p n : Nat} (hp : p < c.nprof) (hn : n < 8) :
    regAtOffset c (BitVec.ofNat 16 (0x1000 + 4 * n + 0x20 * p)) = some (.prof p (profWord n)) := by
  have hl : c.nprof ≤ 256 := by simp [Params.legal] at hl; omega
  have e : (BitVec.ofNat 16 (0x1000 + 4 * n + 0x20 * p)).toNat = 0x1000 + 4 * n + 0x20 * p := by simp; omega
  unfold regAtOffset
  rw [e, if_neg (by omega), if_neg (by omega), if_pos (by omega),
    show (0x1000 + 4 * n + 0x20 * p - 0x1000) / 0x20 = p by omega,
    show (0x1000 + 4 * n + 0x20 * p - 0x1000) % 0x20 / 4 = n by omega, if_pos hp]

/-- The offset of a register-spec entry (R34). -/
theorem regAtOffset_regspec {c : Params} (hl : c.legal = true) {r : Nat} (hr : r < c.nreg) :
    regAtOffset c (BitVec.ofNat 16 (0x3000 + 4 * r)) = some (.regspec r) := by
  have hl : c.nreg ≤ 256 := by simp [Params.legal] at hl; omega
  have e : (BitVec.ofNat 16 (0x3000 + 4 * r)).toNat = 0x3000 + 4 * r := by simp; omega
  unfold regAtOffset
  rw [e, if_neg (by omega), if_neg (by omega), if_neg (by omega), if_pos (by omega),
    show (0x3000 + 4 * r - 0x3000) / 4 = r by omega, if_pos hr]

/-- The offset of word `n` of conversion entry `k` (R36). -/
theorem regAtOffset_conv {c : Params} (hl : c.legal = true) {k n : Nat} (hk : k < c.nconv) (hn : n < 4) :
    regAtOffset c (BitVec.ofNat 16 (0x4000 + 4 * n + 0x10 * k)) = some (.conv k (convWord n)) := by
  have hl : c.nconv ≤ 256 := by simp [Params.legal] at hl; omega
  have e : (BitVec.ofNat 16 (0x4000 + 4 * n + 0x10 * k)).toNat = 0x4000 + 4 * n + 0x10 * k := by simp; omega
  unfold regAtOffset
  rw [e, if_neg (by omega), if_neg (by omega), if_neg (by omega), if_neg (by omega), if_pos (by omega),
    show (0x4000 + 4 * n + 0x10 * k - 0x4000) / 0x10 = k by omega,
    show (0x4000 + 4 * n + 0x10 * k - 0x4000) % 0x10 / 4 = n by omega, if_pos hk]

/-- The offset of buffer cell `i` (R37). -/
theorem regAtOffset_buf {c : Params} (hl : c.legal = true) {i : Nat} (hi : i < c.bufsz) :
    regAtOffset c (BitVec.ofNat 16 (0x5000 + 4 * i)) = some (.buf i) := by
  have hl : c.bufsz ≤ 256 := by simp [Params.legal] at hl; omega
  have e : (BitVec.ofNat 16 (0x5000 + 4 * i)).toNat = 0x5000 + 4 * i := by simp; omega
  unfold regAtOffset
  rw [e, if_neg (by omega), if_neg (by omega), if_neg (by omega), if_neg (by omega), if_neg (by omega),
    show (0x5000 + 4 * i - 0x5000) / 4 = i by omega, if_pos hi]

/-! ### What a host access does -/

/-- A write that the map refuses (20_memory.md R63). -/
theorem Serves.write_unmapped {s : State} {off : BitVec 16} {v : Word} {rest : List Input}
    (h : Serves s (.write off v) rest) (hr : regAtOffset s.cfg off = none) :
    step s = .next { s with inputs := rest, answer := some ⟨true, none⟩ } := by
  rw [h.step_eq]
  simp only [State.serve, State.hostWrite, hr, State.nack]

/-- A write to a register other than `OP`. -/
theorem Serves.write_reg {s : State} {off : BitVec 16} {v : Word} {rest : List Input} {r : HostReg}
    (h : Serves s (.write off v) rest) (hr : regAtOffset s.cfg off = some r) (ho : r ≠ .op) :
    step s = .next ((({ s with inputs := rest } : State).writeReg r v).ack none) := by
  rw [h.step_eq]
  simp only [State.serve, State.hostWrite, hr]

/-- A write to `OP`. -/
theorem Serves.write_op {s : State} {v : Word} {rest : List Input} (h : Serves s (.write 0x0000 v) rest) :
    step s = ackLaunch (({ s with inputs := rest } : State).launch v) := by
  have e : regAtOffset s.cfg (0x0000 : BitVec 16) = some .op := rfl
  rw [h.step_eq]
  simp only [State.serve, State.hostWrite, e]

/-- A read. -/
theorem Serves.read_eq {s : State} {off : BitVec 16} {rest : List Input} (h : Serves s (.read off) rest) :
    step s = .next { s with
      inputs := rest, draws := s.draws + 1,
      answer := match regAtOffset s.cfg off with
        | none => some ⟨true, some (s.any 32)⟩
        | some r => some ⟨false, some (s.readReg r)⟩ } := by
  rw [h.step_eq]
  simp only [State.serve, State.hostRead]
  cases regAtOffset s.cfg off with
  | none => rfl
  | some r => cases r <;> rfl

/-- No control register is a table entry or a buffer cell. -/
theorem controlReg_eq {n : Nat} {r : HostReg} (h : controlReg n = some r) :
    (∀ p w, r ≠ .prof p w) ∧ (∀ k, r ≠ .regspec k) ∧ (∀ k w, r ≠ .conv k w) ∧ (∀ i, r ≠ .buf i) ∧ (r = .op → n = 0) := by
  unfold controlReg at h
  split at h <;> cases h <;> simp

/-- The index an offset names is within its table; `OP` stands at 0 alone (R46). -/
theorem regAtOffset_bounds {c : Params} {off : BitVec 16} {r : HostReg} (h : regAtOffset c off = some r) :
    (∀ p w, r = .prof p w → p < c.nprof) ∧ (∀ k, r = .regspec k → k < c.nreg) ∧ (∀ k w, r = .conv k w → k < c.nconv) ∧
      (∀ i, r = .buf i → i < c.bufsz) ∧ (r = .op → off = 0x0000) := by
  unfold regAtOffset at h
  simp only at h
  split at h
  · cases h
  rename_i h4
  split at h
  · rename_i h1
    obtain ⟨k1, k2, k3, k4, k5⟩ := controlReg_eq h
    refine ⟨fun p w e => absurd e (k1 p w), fun k e => absurd e (k2 k), fun k w e => absurd e (k3 k w),
      fun i e => absurd e (k4 i), fun e => BitVec.eq_of_toNat_eq ?_⟩
    have := k5 e
    show off.toNat = 0
    omega
  split at h
  · split at h
    · rename_i hp; cases h; simpa using hp
    · cases h
  split at h
  · split at h
    · rename_i hp; cases h; simpa using hp
    · cases h
  split at h
  · split at h
    · rename_i hp; cases h; simpa using hp
    · cases h
  · split at h
    · rename_i hp; cases h; simpa using hp
    · cases h

/-- Which offset is `OP`'s. -/
theorem regAtOffset_op {c : Params} {off : BitVec 16} (h : regAtOffset c off = some .op) : off = 0x0000 :=
  (regAtOffset_bounds h).2.2.2.2 rfl

end Sys2Proof.Machine
end

