-- ==== Sys2Proof/Laws/Sequencer.lean ====
section
/-! SUPPORT. The transaction engine, said once: what each phase and each part of a transaction can answer
(41_transaction.md R125 to R138). Claims about EXEC, SETP, GETP, CMD and ENCRD rest on `State.transact_spec`. -/

namespace Sys2Proof.Machine

theorem bind_ok {ε α β : Type} (a : α) (f : α → Except ε β) : (Except.ok a >>= f) = f a := rfl

theorem bind_error {ε α β : Type} (e : ε) (f : α → Except ε β) :
    ((Except.error e : Except ε α) >>= f) = Except.error e := rfl

theorem State.inPhase_pos {s : State} {p : Phase} (f : State → Except TxStop State) (h : s.phase = p) :
    s.inPhase p f = f s := if_pos h

theorem State.inPhase_neg {s : State} {p : Phase} (f : State → Except TxStop State) (h : s.phase ≠ p) :
    s.inPhase p f = .ok s := if_neg h

/-- The environment keeps silent somewhere. -/
def Silent (s : State) : Prop := none ∈ s.busScript ∨ false ∈ s.timerScript

theorem Silent.mono {s t : State} (h : Silent t) (hb : ∀ a ∈ t.busScript, a ∈ s.busScript)
    (ht : ∀ a ∈ t.timerScript, a ∈ s.timerScript) : Silent s :=
  h.imp (hb _) (ht _)

/-! ### Single phases -/

/-- What phase `MODESET` can answer (R126). -/
theorem State.modeSetPhase_spec (s : State) :
    (s.modeSetPhase = .error (.stuck .modeSet) ∧ ∃ l, s.busScript = none :: l) ∨
    (∃ e b d cp cl ix, s.modeSetPhase = .error (.modeSetFailed { s with
        modev := false, busmode := b, trace := s.trace ++ [.modeSet s.curProfile.pmode (.fail e)],
        busScript := s.busScript.tail, draws := d, phase := .idle, curp := cp, curlen := cl, idx := ix } e) ∧
      (∀ m l, s.busScript ≠ some (.ok m) :: l) ∧ (∀ e' l, s.busScript = some (.fail e') :: l → e = e') ∧
      (∀ l, s.busScript ≠ none :: l)) ∨
    (∃ d, s.modeSetPhase = .ok { s with
        busmode := s.curProfile.pmode, modev := true, trace := s.trace ++ [.modeSet s.curProfile.pmode .ok],
        phase := .fixup, busScript := s.busScript.tail, draws := d } ∧
      (∀ e l, s.busScript ≠ some (.fail e) :: l) ∧ (∀ l, s.busScript ≠ none :: l)) := by
  unfold State.modeSetPhase
  rw [State.busSetMode_eq]
  cases hr : s.busReply with
  | none => exact .inl ⟨rfl, State.busReply_none hr⟩
  | some r =>
    cases r with
    | fail e =>
      refine .inr (.inl ⟨e, _, _, _, _, _, rfl, fun m l h => ?_, fun e' l h => ?_, fun l h => ?_⟩) <;>
        rw [State.busReply_cons h] at hr
      · simp at hr
      · simpa using hr.symm
      · simp at hr
    | ok m0 =>
      refine .inr (.inr ⟨_, rfl, fun e l h => ?_, fun l h => ?_⟩) <;>
      · rw [State.busReply_cons h] at hr; simp at hr

/-- What phase `FIXUP` can answer (R127): it never fails. -/
theorem State.fixupPhase_spec (s : State) :
    (s.fixupPhase = .error (.stuck .fixup) ∧ ∃ l, s.busScript = none :: l) ∨
    (∃ fa c d, s.fixupPhase = .ok { s with
        clkIdle := c, phase := .select, busScript := s.busScript.tail, draws := d,
        trace := s.trace ++ [.xfer s.curProfile.pmode s.curProfile.prate [Config.fixupByte] fa] } ∧
      fixupLegal fa = true ∧
      (∀ rx, fa = .ok rx → c = cpol s.curProfile.pmode) ∧
      (∀ fb l, s.busScript = some (fixupReply fb) :: l → fixupLegal fb = true → fa = fb) ∧
      (∀ l, s.busScript ≠ none :: l)) := by
  unfold State.fixupPhase
  rw [State.busTransfer_eq]
  cases hr : s.busReply with
  | none => exact .inl ⟨rfl, State.busReply_none hr⟩
  | some r =>
    cases r with
    | fail e =>
      refine .inr ⟨.fail e, _, _, rfl, rfl, by simp, fun fb l h _ => ?_, fun l h => ?_⟩ <;>
        rw [State.busReply_cons h] at hr
      · cases fb <;> simp [fixupReply] at hr
        rw [hr]
      · simp at hr
    | ok rx =>
      refine .inr ⟨.ok (s.busTaken.received 1 rx), _, _, rfl, by simp [fixupLegal], fun _ _ => rfl, fun fb l h h2 => ?_,
        fun l h => by rw [State.busReply_cons h] at hr; simp at hr⟩
      rw [State.busReply_cons h] at hr
      cases fb with
      | fail e => simp [fixupReply] at hr
      | ok ry =>
        simp only [fixupReply, Option.some.injEq, Reply.ok.injEq] at hr
        subst hr
        rw [State.received_eq]
        simpa [fixupLegal] using h2

/-- A sleep: it ends and emits its event, or the timer is silent. -/
theorem State.sleep_spec (s : State) (n : Word) :
    (s.sleep n = none ∧ false ∈ s.timerScript) ∨
    s.sleep n = some { s with trace := s.trace ++ [.sleep n], timerScript := s.timerScript.tail } := by
  rcases s.sleep_cases n with ⟨h, h'⟩ | h
  · exact .inl ⟨h, h'⟩
  · exact .inr h

/-- Phases `SELECT` and, when `PPRE > 0`, `PREDELAY` (R128, R129). -/
theorem State.selectPre_spec (s : State) :
    (∃ p, (s.selectPhase >>= fun s => s.inPhase .preDelay State.preDelayPhase) = .error (.stuck p) ∧
      false ∈ s.timerScript) ∨
    (∃ ts, (s.selectPhase >>= fun s => s.inPhase .preDelay State.preDelayPhase) = .ok { s with
        cslvl := setBit s.cslvl s.curProfile.psel.toNat false, phase := .xfer,
        trace := s.trace ++ ([.cs s.curProfile.psel.toNat false] ++ optSleep s.curProfile.ppre), timerScript := ts } ∧
      ∀ a ∈ ts, a ∈ s.timerScript) := by
  unfold State.selectPhase
  rw [bind_ok]
  by_cases hp : s.curProfile.ppre = 0
  · rw [State.inPhase_neg _ (by rw [if_pos hp]; simp)]
    refine .inr ⟨s.timerScript, ?_, fun a h => h⟩
    rw [if_pos hp, optSleep, if_pos hp]
    rfl
  · rw [State.inPhase_pos _ (by rw [if_neg hp]), if_neg hp, optSleep, if_neg hp]
    unfold State.preDelayPhase
    rcases State.sleep_spec { s.csSet s.curProfile.psel.toNat false with phase := .preDelay } s.curProfile.ppre
      with ⟨h, h'⟩ | h
    · exact .inl ⟨.preDelay, by
        show (match State.sleep { s.csSet s.curProfile.psel.toNat false with phase := .preDelay } s.curProfile.ppre with
          | none => _ | some t => _) = _
        rw [h], h'⟩
    · refine .inr ⟨s.timerScript.tail, ?_, fun a ha => List.mem_of_mem_tail ha⟩
      show (match State.sleep { s.csSet s.curProfile.psel.toNat false with phase := .preDelay } s.curProfile.ppre with
          | none => _ | some t => _) = _
      rw [h]
      simp [State.csSet]

/-! ### Steps 1 to 4 -/

/-- What steps 1 to 4 can answer (R126 to R129). -/
theorem State.openTx_spec (s : State) :
    (∃ p, s.openTx = .error (.stuck p) ∧ Silent s ∧ (∀ e l, s.busScript ≠ some (.fail e) :: l) ∧
      (TimerAnswers s → ∀ m fb l, s.busScript ≠ some (.ok m) :: some (fixupReply fb) :: l) ∧
      (∀ l, s.busScript = none :: l → p = .modeSet) ∧ (∀ a l, s.busScript = some a :: none :: l → p = .fixup)) ∨
    (∃ e b d cp cl ix, s.openTx = .error (.modeSetFailed { s with
        modev := false, busmode := b, trace := s.trace ++ [.modeSet s.curProfile.pmode (.fail e)],
        busScript := s.busScript.tail, draws := d, phase := .idle, curp := cp, curlen := cl, idx := ix } e) ∧
      (∀ m l, s.busScript ≠ some (.ok m) :: l) ∧ (∀ e' l, s.busScript = some (.fail e') :: l → e = e') ∧
      (∀ l, s.busScript ≠ none :: l)) ∨
    (∃ fa c ts d, s.openTx = .ok { s with
        busmode := s.curProfile.pmode, modev := true, clkIdle := c,
        cslvl := setBit s.cslvl s.curProfile.psel.toNat false,
        trace := s.trace ++ openingEvents s.curProfile fa, phase := .xfer,
        busScript := s.busScript.tail.tail, timerScript := ts, draws := d } ∧
      fixupLegal fa = true ∧ (∀ a ∈ ts, a ∈ s.timerScript) ∧
      (∀ e l, s.busScript ≠ some (.fail e) :: l) ∧
      (∀ m fb rest, s.busScript = some (.ok m) :: some (fixupReply fb) :: rest → fixupLegal fb = true → fa = fb) ∧
      (∀ l, s.busScript ≠ none :: l) ∧ (∀ a l, s.busScript ≠ some a :: none :: l)) := by
  unfold State.openTx
  rcases s.modeSetPhase_spec with ⟨h, l, hs⟩ | ⟨e, b, d, cp, cl, ix, h, ht⟩ | ⟨d, h, hm, hm2⟩
  · rw [h]
    refine .inl ⟨_, rfl, .inl (by simp [hs]), ?_, ?_, fun _ _ => rfl, ?_⟩ <;> simp [hs]
  · rw [h]; exact .inr (.inl ⟨e, b, d, cp, cl, ix, rfl, ht⟩)
  rw [h, bind_ok]
  generalize hu : ({ s with
        busmode := s.curProfile.pmode, modev := true, trace := s.trace ++ [.modeSet s.curProfile.pmode .ok],
        phase := .fixup, busScript := s.busScript.tail, draws := d } : State) = u
  rcases u.fixupPhase_spec with ⟨h, l, hs⟩ | ⟨fa, c, d, h, hfa, -, hf, hf2⟩
  · rw [h]
    have hs : s.busScript.tail = none :: l := by subst hu; exact hs
    refine .inl ⟨_, rfl, .inl (List.mem_of_mem_tail (by simp [hs])), hm, fun _ m fb r e => ?_, ?_, fun _ _ _ => rfl⟩
    · simp [e] at hs
    · exact fun l e => absurd e (hm2 l)
  rw [h, bind_ok]
  generalize hv : ({ u with
        clkIdle := c, phase := .select, busScript := u.busScript.tail, draws := d,
        trace := u.trace ++ [.xfer u.curProfile.pmode u.curProfile.prate [Config.fixupByte] fa] } : State) = v
  rcases v.selectPre_spec with ⟨p, h, hs⟩ | ⟨ts, h, hts⟩
  · rw [h]
    have hs : false ∈ s.timerScript := by subst hv hu; exact hs
    refine .inl ⟨p, rfl, .inr hs, hm, fun ha => absurd (ha _ hs) (by simp), fun l e => absurd e (hm2 l), fun a l e => ?_⟩
    exact absurd (show u.busScript = none :: l by subst hu; show s.busScript.tail = _; rw [e]; rfl) (hf2 l)
  · rw [h]
    subst hv hu
    refine .inr (.inr ⟨fa, c, ts, d, ?_, hfa, hts, hm, fun m fb rest hb h2 => hf fb rest ?_ h2, hm2, fun a l hb => ?_⟩)
    · simp [State.curProfile, State.profAt, openingEvents]
    · show s.busScript.tail = _
      rw [hb]; rfl
    · refine absurd ?_ (hf2 l)
      show s.busScript.tail = _
      rw [hb]; rfl

/-! ### Step 5 -/

/-- What a transfer request can answer (00_scope.md R8). -/
theorem State.busTransfer_spec (s : State) (m : BitVec 2) (hz : Word) (tx : List Byte) :
    (s.busTransfer m hz tx = none ∧ ∃ l, s.busScript = none :: l) ∨
    (∃ e d, s.busTransfer m hz tx = some (.fail e, { s with
        trace := s.trace ++ [.xfer m hz tx (.fail e)], busScript := s.busScript.tail, draws := d }) ∧
      (∀ r l, s.busScript ≠ some (.ok r) :: l) ∧ (∀ e' l, s.busScript = some (.fail e') :: l → e = e')) ∨
    (∃ rx d, s.busTransfer m hz tx = some (.ok rx, { s with
        trace := s.trace ++ [.xfer m hz tx (.ok rx)], busScript := s.busScript.tail, draws := d }) ∧
      rx.length = tx.length ∧ (∀ e l, s.busScript ≠ some (.fail e) :: l) ∧
      (∀ r l, s.busScript = some (.ok r) :: l → r.length = tx.length → rx = r)) := by
  rw [State.busTransfer_eq]
  cases hr : s.busReply with
  | none => exact .inl ⟨rfl, State.busReply_none hr⟩
  | some r =>
    cases r with
    | fail e =>
      refine .inr (.inl ⟨e, _, rfl, fun r l h => ?_, fun e' l h => ?_⟩)
      · rw [State.busReply_cons h] at hr; simp at hr
      · rw [State.busReply_cons h] at hr; simpa using hr.symm
    | ok rx =>
      refine .inr (.inr ⟨s.busTaken.received tx.length rx, _, rfl, by simp, fun e l h => ?_, fun r l h h2 => ?_⟩)
      · rw [State.busReply_cons h] at hr; simp at hr
      · rw [State.busReply_cons h] at hr
        simp only [Option.some.injEq, Reply.ok.injEq] at hr
        subst hr
        exact State.received_eq _ _ _ h2

/-- Once the phase has left `XFER` the remaining turns do nothing. -/
theorem State.payload_left (n : Nat) (s : State) (h1 : s.phase ≠ .xfer) (h2 : s.phase ≠ .ibDelay) :
    s.payload n = .ok s := by
  induction n with
  | zero => rfl
  | succ n ih =>
    unfold State.payload
    rw [State.inPhase_neg _ h1, bind_ok, State.inPhase_neg _ h2, bind_ok, ih]

theorem State.afterPayload_cases (s : State) : s.afterPayload = .deselect ∨ s.afterPayload = .postDelay := by
  unfold State.afterPayload; split <;> simp

theorem State.memRead_succ (s : State) (a n : Nat) : s.memRead a (n + 1) = s.bufGet a :: s.memRead (a + 1) n := by
  simp only [State.memRead, List.range_succ_eq_map, List.map_cons, List.map_map, Nat.add_zero]
  congr 1
  apply List.map_congr_left
  intro i _
  simp [Nat.add_assoc, Nat.add_comm 1]

theorem sentEvents_cons (p : Profile) (b : Byte × Byte) (bs : List (Byte × Byte)) :
    sentEvents p (b :: bs) = [.xfer p.pmode p.prate [b.1] (.ok [b.2]), .sleep p.pibd] ++ sentEvents p bs := by
  simp [sentEvents]

theorem byteEvents_cons (p : Profile) (b : Byte × Byte) (bs : List (Byte × Byte)) (h : bs ≠ []) :
    byteEvents p (b :: bs) = [.xfer p.pmode p.prate [b.1] (.ok [b.2]), .sleep p.pibd] ++ byteEvents p bs := by
  cases bs with
  | nil => exact absurd rfl h
  | cons c bs => rfl

/-- What the exchange of one byte can answer (R131). -/
theorem State.byteXfer_spec (s : State) :
    (∃ p, s.byteXfer = .error (.stuck p) ∧ ∃ l, s.busScript = none :: l) ∨
    (∃ e d, s.byteXfer = .error (.aborting { s with
        trace := s.trace ++ [.xfer s.curProfile.pmode s.curProfile.prate [s.bufGet s.idx.toNat] (.fail e)],
        busScript := s.busScript.tail, draws := d, phase := .abort } e) ∧
      (∀ r l, s.busScript ≠ some (.ok r) :: l) ∧ (∀ e' l, s.busScript = some (.fail e') :: l → e = e')) ∨
    (∃ b d, s.byteXfer = .ok { s with
        trace := s.trace ++ [.xfer s.curProfile.pmode s.curProfile.prate [s.bufGet s.idx.toNat] (.ok [b])],
        buf := s.buf.writeCell s.idx.toNat b, clkIdle := cpol s.curProfile.pmode,
        busScript := s.busScript.tail, draws := d,
        phase := if s.idx.toNat + 1 < s.curlen.toNat then .ibDelay else s.afterPayload } ∧
      (∀ e l, s.busScript ≠ some (.fail e) :: l) ∧
      (∀ c l, s.busScript = some (.ok [c]) :: l → b = c)) := by
  unfold State.byteXfer
  rcases s.busTransfer_spec s.curProfile.pmode s.curProfile.prate [s.bufGet s.idx.toNat] with
    ⟨h, hs⟩ | ⟨e, d, h, h1, h2⟩ | ⟨rx, d, h, hl, h1, h2⟩
  · rw [h]; exact .inl ⟨_, rfl, hs⟩
  · rw [h]; exact .inr (.inl ⟨e, d, rfl, h1, h2⟩)
  · rw [h]
    match rx, hl with
    | [b], _ =>
      refine .inr (.inr ⟨b, d, rfl, h1, fun c l hc => ?_⟩)
      simpa using h2 [c] l hc rfl

/-- What the per-byte payload can answer from index `i`, with `n` bytes left (R131). -/
theorem State.bytePayload_spec (n : Nat) : ∀ (s : State) (i : Nat), 1 ≤ n → s.phase = .xfer → s.curProfile.pibd ≠ 0 →
    s.idx.toNat = i → s.curlen.toNat = i + n →
    (∃ p, s.payload n = .error (.stuck p) ∧ Silent s ∧ (TimerAnswers s →
      (∀ (rxs : List Byte) (rest : List (Option Reply)), rxs.length = n →
        s.busScript ≠ rxs.map (fun b => some (.ok [b])) ++ rest) ∧
      (∀ (rxs : List Byte) e' (rest : List (Option Reply)), rxs.length < n →
        s.busScript ≠ rxs.map (fun b => some (.ok [b])) ++ some (.fail e') :: rest))) ∨
    (∃ rx b e c ts d ix, s.payload n = .error (.aborting { s with
        trace := s.trace ++ (sentEvents s.curProfile (((s.memRead i n).take rx.length).zip rx) ++
          [.xfer s.curProfile.pmode s.curProfile.prate [b] (.fail e)]),
        buf := s.buf.writeCells i rx, clkIdle := c, busScript := s.busScript.drop (rx.length + 1), timerScript := ts,
        draws := d, idx := ix, phase := .abort } e) ∧
      rx.length < n ∧ (s.memRead i n)[rx.length]? = some b ∧
      (∀ (rxs : List Byte) (rest : List (Option Reply)), rxs.length = n → s.busScript ≠ rxs.map (fun b => some (.ok [b])) ++ rest) ∧
      (∀ (rxs : List Byte) e' (rest : List (Option Reply)), s.busScript = rxs.map (fun b => some (.ok [b])) ++ some (.fail e') :: rest → rxs.length < n →
        rx = rxs ∧ e = e')) ∨
    (∃ rx ts d ix, s.payload n = .ok { s with
        trace := s.trace ++ byteEvents s.curProfile ((s.memRead i n).zip rx), buf := s.buf.writeCells i rx,
        clkIdle := cpol s.curProfile.pmode, busScript := s.busScript.drop n, timerScript := ts, draws := d, idx := ix,
        phase := s.afterPayload } ∧
      rx.length = n ∧ (∀ a ∈ ts, a ∈ s.timerScript) ∧
      (∀ (rxs : List Byte) (rest : List (Option Reply)), rxs.length = n → s.busScript = rxs.map (fun b => some (.ok [b])) ++ rest → rx = rxs) ∧
      (∀ (rxs : List Byte) e' (rest : List (Option Reply)), rxs.length < n → s.busScript ≠ rxs.map (fun b => some (.ok [b])) ++ some (.fail e') :: rest)) := by
  induction n with
  | zero => intro s i h; omega
  | succ n ih =>
    intro s i _ hph hib hidx hlen
    unfold State.payload
    rw [State.inPhase_pos _ hph]
    unfold State.xferPhase
    rw [if_neg hib]
    rcases s.byteXfer_spec with ⟨p, h, hs⟩ | ⟨e, d, h, h1, h2⟩ | ⟨b, d, h, h1, h2⟩
    · rw [h]
      obtain ⟨l, hs⟩ := hs
      refine .inl ⟨p, rfl, .inl (by simp [hs]), fun _ => ⟨fun rxs rest hl hb => ?_, fun rxs e' rest hl hb => ?_⟩⟩
      · match rxs, hl with
        | r :: rxs, _ => simp [hs] at hb
      · match rxs with
        | [] => simp [hs] at hb
        | r :: rxs => simp [hs] at hb
    · rw [h]
      refine .inr (.inl ⟨[], s.bufGet i, e, s.clkIdle, s.timerScript, d, s.idx, ?_, by simp, ?_, ?_, ?_⟩)
      · simp [bind_error, sentEvents, hidx]
      · simp [State.memRead_succ]
      · intro rxs rest hl hb
        match rxs, hl with
        | r :: rxs, _ => exact h1 [r] _ hb
      · intro rxs e' rest hb _
        match rxs with
        | [] => exact ⟨rfl, h2 _ _ hb⟩
        | r :: rxs => exact absurd hb (h1 [r] _)
    · rw [h, bind_ok]
      by_cases hn : n = 0
      · subst hn
        rw [if_neg (by omega), State.inPhase_neg, bind_ok]
        · refine .inr (.inr ⟨[b], s.timerScript, d, s.idx, ?_, rfl, fun a h => h, ?_, ?_⟩)
          · simp only [State.payload, State.memRead_succ, hidx]
            simp [State.memRead, byteEvents, Memory.writeCells_cons]
          · intro rxs rest hl hb
            match rxs, hl with
            | [r], _ => rw [h2 r _ hb]
          · intro rxs e' rest hl hb
            match rxs, hl with
            | [], _ => exact h1 e' rest hb
        · rcases s.afterPayload_cases with e | e <;> simp [e]
      · rw [if_pos (by omega), State.inPhase_pos _ rfl]
        generalize hu : ({ s with
            trace := s.trace ++ [.xfer s.curProfile.pmode s.curProfile.prate [s.bufGet s.idx.toNat] (.ok [b])],
            buf := s.buf.writeCell s.idx.toNat b, clkIdle := cpol s.curProfile.pmode,
            busScript := s.busScript.tail, draws := d, phase := .ibDelay } : State) = u
        unfold State.ibDelayPhase
        rcases u.sleep_spec u.curProfile.pibd with ⟨h, hs⟩ | h
        · rw [h]
          have hs : false ∈ s.timerScript := by subst hu; exact hs
          exact .inl ⟨_, rfl, .inr hs, fun ha => absurd (ha _ hs) (by simp)⟩
        · rw [h]
          simp only [bind_ok]
          generalize hv : ({ u with
              trace := u.trace ++ [.sleep u.curProfile.pibd],
              timerScript := u.timerScript.tail, idx := u.idx + 1, phase := .xfer } : State) = v
          have hvp : v.curProfile = s.curProfile := by subst hv hu; rfl
          have hix : v.idx.toNat = i + 1 := by
            subst hv hu
            show (s.idx + 1).toNat = i + 1
            have := s.curlen.isLt
            rw [BitVec.toNat_add, hidx]
            show (i + 1) % 512 = i + 1
            omega
          have hvl : v.curlen.toNat = (i + 1) + n := by
            subst hv hu
            show s.curlen.toNat = _
            omega
          have hread : v.memRead (i + 1) n = s.memRead (i + 1) n := by
            apply State.memRead_congr
            intro k hk _
            subst hv hu
            unfold State.bufGet
            show ((s.buf.writeCell s.idx.toNat b).readCell k).getD _ = _
            rw [Memory.readCell_writeCell_other _ _ (by omega)]
          have hvb : v.busScript = s.busScript.tail := by subst hv hu; rfl
          have hvt : v.timerScript = s.timerScript.tail := by subst hv hu; rfl
          rcases ih v (i + 1) (by omega) (by subst hv; rfl) (by rw [hvp]; exact hib) hix hvl with
            ⟨p, h, hs, hn2⟩ | ⟨rx, c, e, cl, ts, d', ix, h, hl, hb, h3, h4⟩ | ⟨rx, ts, d', ix, h, hl, hts, h3, h4⟩
          · rw [h]
            refine .inl ⟨p, rfl, hs.mono (fun a ha => List.mem_of_mem_tail (hvb ▸ ha))
              (fun a ha => List.mem_of_mem_tail (hvt ▸ ha)), fun ha => ?_⟩
            obtain ⟨n1, n2⟩ := hn2 (ha.tail hvt)
            refine ⟨fun rxs rest hl hb => ?_, fun rxs e' rest hl hb => ?_⟩
            · match rxs, hl with
              | r :: rxs, hl => exact n1 rxs rest (by simpa using hl) (by rw [hvb, hb]; rfl)
            · match rxs, hl with
              | [], _ => exact h1 e' rest hb
              | r :: rxs, hl => exact n2 rxs e' rest (by simpa using hl) (by rw [hvb, hb]; rfl)
          · rw [h]
            refine .inr (.inl ⟨b :: rx, c, e, cl, ts, d', ix, ?_, by simpa using hl, ?_, ?_, ?_⟩)
            · rw [hread, hvp, hvb]
              subst hv hu
              simp [State.memRead_succ, sentEvents_cons, hidx, Memory.writeCells_cons, State.curProfile, State.profAt,
                List.append_assoc]
            · rw [hread] at hb
              simpa [State.memRead_succ] using hb
            · intro rxs rest hl2 hb2
              match rxs, hl2 with
              | r :: rxs, hl2 => exact h3 rxs rest (by simpa using hl2) (by rw [hvb, hb2]; rfl)
            · intro rxs e' rest hb2 hl2
              match rxs with
              | [] => exact absurd hb2 (h1 _ _)
              | r :: rxs =>
                obtain ⟨e1, e2⟩ := h4 rxs e' rest (by rw [hvb, hb2]; rfl) (by simpa using hl2)
                exact ⟨by rw [h2 r _ hb2, e1], e2⟩
          · rw [h]
            have hne : rx ≠ [] := by intro e; subst e; simp at hl; omega
            have hne2 : (s.memRead (i + 1) n).zip rx ≠ [] := by
              intro e
              have := congrArg List.length e
              simp [hl] at this; omega
            refine .inr (.inr ⟨b :: rx, ts, d', ix, ?_, by simp [hl], fun a ha => List.mem_of_mem_tail (hvt ▸ hts a ha),
              ?_, ?_⟩)
            · rw [hread, hvp, hvb, State.memRead_succ, List.zip_cons_cons, byteEvents_cons _ _ _ hne2]
              subst hv hu
              simp [hidx, Memory.writeCells_cons, State.curProfile, State.profAt, State.afterPayload, List.append_assoc]
            · intro rxs rest hl2 hb2
              match rxs, hl2 with
              | r :: rxs, hl2 => rw [h2 r _ hb2, h3 rxs rest (by simpa using hl2) (by rw [hvb, hb2]; rfl)]
            · intro rxs e' rest hl2 hb2
              match rxs, hl2 with
              | [], _ => exact h1 e' rest hb2
              | r :: rxs, hl2 => exact h4 rxs e' rest (by simpa using hl2) (by rw [hvb, hb2]; rfl)

theorem drop_append_eq {α : Type} (l r : List α) (n : Nat) (h : l.length = n) : (l ++ r).drop n = r := by
  subst h; simp

/-- What the payload can answer, by the profile's strategy (R124, R130, R131). -/
theorem State.payload_spec (n : Nat) (s : State) (hn : 1 ≤ n) (hph : s.phase = .xfer) (hidx : s.idx.toNat = 0)
    (hlen : s.curlen.toNat = n) :
    (∃ p, s.payload n = .error (.stuck p) ∧ Silent s ∧ (TimerAnswers s →
      (∀ rxs rest, rxs.length = n → s.busScript ≠ payloadReplies s.curProfile rxs ++ rest) ∧
      (∀ rxs e' rest, rxs.length < n → s.busScript ≠ failingReplies s.curProfile rxs e' ++ rest))) ∨
    (∃ rx wr e c bs ts d ix, s.payload n = .error (.aborting { s with
        trace := s.trace ++ failingEvents s.curProfile (s.memRead 0 n) rx e,
        buf := s.buf.writeCells 0 wr, clkIdle := c, busScript := bs, timerScript := ts, draws := d, idx := ix,
        phase := .abort } e) ∧
      rx.length < n ∧ wr.length ≤ n ∧
      (∀ rxs rest, rxs.length = n → s.busScript ≠ payloadReplies s.curProfile rxs ++ rest) ∧
      (∀ rxs e' rest, rxs.length < n → s.busScript = failingReplies s.curProfile rxs e' ++ rest →
        e = e' ∧ bs = rest ∧ (s.curProfile.pibd ≠ 0 → rx = rxs))) ∨
    (∃ rx bs ts d ix, s.payload n = .ok { s with
        trace := s.trace ++ payloadEvents s.curProfile (s.memRead 0 n) rx, buf := s.buf.writeCells 0 rx,
        clkIdle := cpol s.curProfile.pmode, busScript := bs, timerScript := ts, draws := d, idx := ix,
        phase := s.afterPayload } ∧
      rx.length = n ∧ (∀ a ∈ bs, a ∈ s.busScript) ∧ (∀ a ∈ ts, a ∈ s.timerScript) ∧
      (∀ rxs rest, rxs.length = n → s.busScript = payloadReplies s.curProfile rxs ++ rest → rx = rxs ∧ bs = rest) ∧
      (∀ rxs e' rest, rxs.length < n → s.busScript ≠ failingReplies s.curProfile rxs e' ++ rest)) := by
  by_cases hib : s.curProfile.pibd = 0
  · match n, hn with
    | n + 1, _ =>
    unfold State.payload
    rw [State.inPhase_pos _ hph]
    unfold State.xferPhase
    rw [if_pos hib]
    unfold State.bulkXfer
    rcases s.busTransfer_spec s.curProfile.pmode s.curProfile.prate (s.memRead 0 s.curlen.toNat) with
      ⟨h, hs⟩ | ⟨e, d, h, h1, h2⟩ | ⟨rx, d, h, hl, h1, h2⟩
    · rw [h]
      obtain ⟨l, hs⟩ := hs
      refine .inl ⟨_, rfl, .inl (by simp [hs]), fun _ => ⟨fun rxs rest hl hb => ?_, fun rxs e' rest hl hb => ?_⟩⟩
      · simp [payloadReplies, hib, hs] at hb
      · simp [failingReplies, hib, hs] at hb
    · rw [h]
      refine .inr (.inl ⟨[], [], e, s.clkIdle, s.busScript.tail, s.timerScript, d, s.idx, ?_, by simp, by simp, ?_, ?_⟩)
      · simp [bind_error, failingEvents, hib, hlen]
      · intro rxs rest _ hb
        simp only [payloadReplies, hib, if_true] at hb
        exact h1 _ _ hb
      · intro rxs e' rest _ hb
        simp only [failingReplies, hib, if_true] at hb
        exact ⟨h2 _ _ hb, by rw [hb]; rfl, fun h => absurd hib h⟩
    · rw [h]
      simp only [bind_ok]
      rw [State.inPhase_neg, bind_ok, State.payload_left]
      · rw [hlen, State.length_memRead] at hl h2
        refine .inr (.inr ⟨rx, s.busScript.tail, s.timerScript, d, s.idx, ?_, hl,
          fun a h => List.mem_of_mem_tail h, fun a h => h, ?_, ?_⟩)
        · simp [payloadEvents, hib, hlen, State.memWrite]
        · intro rxs rest hl2 hb
          simp only [payloadReplies, hib, if_true] at hb
          exact ⟨h2 _ _ hb hl2, by rw [hb]; rfl⟩
        · intro rxs e' rest _ hb
          simp only [failingReplies, hib, if_true] at hb
          exact h1 _ _ hb
      all_goals rcases s.afterPayload_cases with e | e <;> simp [e]
  · rcases s.bytePayload_spec n 0 hn hph hib hidx (by omega) with
      ⟨p, h, hs, hn⟩ | ⟨rx, b, e, c, ts, d, ix, h, hl, hb, h1, h2⟩ | ⟨rx, ts, d, ix, h, hl, hts, h1, h2⟩
    · refine .inl ⟨p, h, hs, fun ha => ⟨fun rxs rest hl2 hb2 => ?_, fun rxs e' rest hl2 hb2 => ?_⟩⟩
      · rw [payloadReplies, if_neg hib] at hb2
        exact (hn ha).1 rxs rest hl2 hb2
      · rw [failingReplies, if_neg hib, List.append_assoc] at hb2
        exact (hn ha).2 rxs e' rest hl2 hb2
    · refine .inr (.inl ⟨rx, rx, e, c, s.busScript.drop (rx.length + 1), ts, d, ix, ?_, hl, by omega, ?_, ?_⟩)
      · rw [h, failingEvents, if_neg hib, List.getD_eq_getElem?_getD, hb]; rfl
      · intro rxs rest hl2 hb2
        rw [payloadReplies, if_neg hib] at hb2
        exact h1 rxs rest hl2 hb2
      · intro rxs e' rest hl2 hb2
        rw [failingReplies, if_neg hib, List.append_assoc] at hb2
        obtain ⟨e1, e2⟩ := h2 rxs e' rest hb2 hl2
        refine ⟨e2, ?_, fun _ => e1⟩
        rw [hb2, e1, ← List.append_assoc]
        exact drop_append_eq _ _ _ (by simp)
    · refine .inr (.inr ⟨rx, s.busScript.drop n, ts, d, ix, ?_, hl, fun a h => List.mem_of_mem_drop h, hts, ?_, ?_⟩)
      · rw [h, payloadEvents, if_neg hib]
      · intro rxs rest hl2 hb2
        rw [payloadReplies, if_neg hib] at hb2
        refine ⟨h1 rxs rest hl2 hb2, ?_⟩
        rw [hb2]
        exact drop_append_eq _ _ _ (by simpa using hl2)
      · intro rxs e' rest hl2 hb2
        rw [failingReplies, if_neg hib, List.append_assoc] at hb2
        exact h2 rxs e' rest hl2 hb2

/-! ### Step 7 -/

/-- The end of a transaction: the phase is `IDLE`, the latches hold free values (10_state.md R25). -/
theorem State.endTx_spec (s : State) :
    ∃ d cp cl ix, s.endTx = { s with phase := .idle, curp := cp, curlen := cl, idx := ix, draws := d } :=
  ⟨_, _, _, _, rfl⟩


/-- What steps 7 (post-delay, deselect, cooldown) can answer (R133). -/
theorem State.closeTx_spec (s : State) (hph : s.phase = s.afterPayload) :
    (∃ p, s.closeTx = .error (.stuck p) ∧ false ∈ s.timerScript) ∨
    (∃ ts d cp cl ix, s.closeTx = .ok { s with
        cslvl := setBit s.cslvl s.curProfile.psel.toNat true, trace := s.trace ++ closingEvents s.curProfile,
        phase := .idle, curp := cp, curlen := cl, idx := ix, timerScript := ts, draws := d } ∧
      ∀ a ∈ ts, a ∈ s.timerScript) := by
  have first : (∃ p, s.inPhase .postDelay State.postDelayPhase = .error (.stuck p) ∧ false ∈ s.timerScript) ∨
      (∃ ts, s.inPhase .postDelay State.postDelayPhase = .ok { s with
          trace := s.trace ++ optSleep s.curProfile.ppost, phase := .deselect, timerScript := ts } ∧
        ∀ a ∈ ts, a ∈ s.timerScript) := by
    by_cases hp : s.curProfile.ppost = 0
    · have : s.phase = .deselect := by rw [hph, State.afterPayload, if_pos hp]
      rw [State.inPhase_neg _ (by rw [this]; simp)]
      refine .inr ⟨s.timerScript, ?_, fun a h => h⟩
      rw [optSleep, if_pos hp, List.append_nil, ← this]
    · have : s.phase = .postDelay := by rw [hph, State.afterPayload, if_neg hp]
      rw [State.inPhase_pos _ this]
      unfold State.postDelayPhase
      rcases s.sleep_spec s.curProfile.ppost with ⟨h, hs⟩ | h
      · rw [h]; exact .inl ⟨_, rfl, hs⟩
      · rw [h]
        refine .inr ⟨s.timerScript.tail, ?_, fun a ha => List.mem_of_mem_tail ha⟩
        rw [optSleep, if_neg hp]
  unfold State.closeTx
  rcases first with ⟨p, h, hs⟩ | ⟨ts, h, hts⟩
  · rw [h]; exact .inl ⟨p, rfl, hs⟩
  rw [h, bind_ok]
  unfold State.deselectPhase
  generalize hu : ({ s with
    trace := s.trace ++ optSleep s.curProfile.ppost, phase := .deselect, timerScript := ts } : State) = u
  have hup : u.curProfile = s.curProfile := by subst hu; rfl
  by_cases hc : u.curProfile.pcool = 0
  · rw [if_pos hc, bind_ok, State.inPhase_neg _ (by simp [State.endTx])]
    obtain ⟨d, cp, cl, ix, he⟩ := (u.csSet u.curProfile.psel.toNat true).endTx_spec
    refine .inr ⟨ts, d, cp, cl, ix, ?_, hts⟩
    rw [he, closingEvents, ← hup, optSleep.eq_1 u.curProfile.pcool, if_pos hc]
    subst hu
    simp only [State.csSet, List.append_assoc, List.append_nil]
    rfl
  · rw [if_neg hc, bind_ok, State.inPhase_pos _ rfl]
    unfold State.coolDownPhase
    generalize hv : ({ u.csSet u.curProfile.psel.toNat true with phase := .coolDown } : State) = v
    have hvp : v.curProfile = s.curProfile := by subst hv hu; rfl
    rcases v.sleep_spec v.curProfile.pcool with ⟨h, hs⟩ | h
    · rw [h]
      exact .inl ⟨_, rfl, hts _ (by subst hv hu; exact hs)⟩
    · rw [h]
      obtain ⟨d, cp, cl, ix, he⟩ := State.endTx_spec { v with
        trace := v.trace ++ [.sleep v.curProfile.pcool], timerScript := v.timerScript.tail }
      refine .inr ⟨ts.tail, d, cp, cl, ix, ?_, fun a ha => hts a (List.mem_of_mem_tail ha)⟩
      simp only [he]
      rw [closingEvents, hvp, optSleep.eq_1 s.curProfile.pcool, if_neg (hup ▸ hc)]
      subst hv hu
      simp only [State.csSet, List.append_assoc]
      rfl

/-! ### The whole transaction -/

/-- What phase `ABORT` does (R132). -/
theorem State.abortPhase_spec (s : State) :
    ∃ xs c d cp cl ix, s.abortPhase = { s with
        cslvl := setBit s.cslvl s.curProfile.psel.toNat true,
        trace := s.trace ++ [.cs s.curProfile.psel.toNat true], buf := s.buf.writeCells 0 xs, clkIdle := c,
        phase := .idle, curp := cp, curlen := cl, idx := ix, draws := d } ∧ xs.length = s.curlen.toNat := by
  refine ⟨_, _, _, _, _, _, rfl, ?_⟩
  simp [State.anyBytes]

/-- Everything `Transact(prof, n)` can answer (R125 to R138), the frame in `BUF[0..n-1]`. -/
theorem State.transact_spec (s : State) (prof n : Nat) (hprof : prof < 256) (hn : 1 ≤ n) (hn2 : n < 512) :
    (∃ p, s.transact prof n = .error (.stuck p) ∧ Silent s ∧ (∀ e l, s.busScript ≠ some (.fail e) :: l) ∧
      (∀ l, s.busScript = none :: l → p = .modeSet) ∧ (∀ a l, s.busScript = some a :: none :: l → p = .fixup) ∧
      (TimerAnswers s → ∀ m fb rxs rest,
        (rxs.length = n →
          s.busScript ≠ some (.ok m) :: some (fixupReply fb) :: (payloadReplies (s.profAt prof) rxs ++ rest)) ∧
        ∀ e', rxs.length < n →
          s.busScript ≠ some (.ok m) :: some (fixupReply fb) :: (failingReplies (s.profAt prof) rxs e' ++ rest))) ∨
    (∃ e b d cp cl ix, s.transact prof n = .error (.modeSetFailed { s with
        modev := false, busmode := b, trace := s.trace ++ [.modeSet (s.profAt prof).pmode (.fail e)],
        busScript := s.busScript.tail, draws := d, phase := .idle, curp := cp, curlen := cl, idx := ix } e) ∧
      (∀ m l, s.busScript ≠ some (.ok m) :: l) ∧ (∀ e' l, s.busScript = some (.fail e') :: l → e = e') ∧
      (∀ l, s.busScript ≠ none :: l)) ∨
    (∃ fa rx wr xs e u c bs ts d cp cl ix, s.transact prof n = .error (.aborting u e) ∧ u.abortPhase = { s with
        cslvl := setBit (setBit s.cslvl (s.lineOf prof) false) (s.lineOf prof) true,
        busmode := (s.profAt prof).pmode, modev := true, clkIdle := c, buf := (s.buf.writeCells 0 wr).writeCells 0 xs,
        trace := s.trace ++ (openingEvents (s.profAt prof) fa ++
          failingEvents (s.profAt prof) (s.memRead 0 n) rx e ++ [.cs (s.lineOf prof) true]),
        busScript := bs, timerScript := ts, draws := d, phase := .idle, curp := cp, curlen := cl, idx := ix } ∧
      fixupLegal fa = true ∧ rx.length < n ∧ wr.length ≤ n ∧ xs.length = n ∧
      (∀ e' l, s.busScript ≠ some (.fail e') :: l) ∧ (∀ l, s.busScript ≠ none :: l) ∧
      (∀ a l, s.busScript ≠ some a :: none :: l) ∧
      (∀ m fb rxs rest, fixupLegal fb = true → rxs.length = n →
        s.busScript ≠ some (.ok m) :: some (fixupReply fb) :: (payloadReplies (s.profAt prof) rxs ++ rest)) ∧
      (∀ m fb rxs e' rest, fixupLegal fb = true → rxs.length < n →
        s.busScript = some (.ok m) :: some (fixupReply fb) :: (failingReplies (s.profAt prof) rxs e' ++ rest) →
        fa = fb ∧ e = e' ∧ bs = rest ∧ ((s.profAt prof).pibd ≠ 0 → rx = rxs))) ∨
    (∃ fa rx bs ts d cp cl ix, s.transact prof n = .ok { s with
        cslvl := setBit (setBit s.cslvl (s.lineOf prof) false) (s.lineOf prof) true,
        busmode := (s.profAt prof).pmode, modev := true, clkIdle := cpol (s.profAt prof).pmode,
        buf := s.buf.writeCells 0 rx,
        trace := s.trace ++ (openingEvents (s.profAt prof) fa ++
          payloadEvents (s.profAt prof) (s.memRead 0 n) rx ++ closingEvents (s.profAt prof)),
        busScript := bs, timerScript := ts, draws := d, phase := .idle, curp := cp, curlen := cl, idx := ix } ∧
      fixupLegal fa = true ∧ rx.length = n ∧
      (∀ e' l, s.busScript ≠ some (.fail e') :: l) ∧ (∀ l, s.busScript ≠ none :: l) ∧
      (∀ a l, s.busScript ≠ some a :: none :: l) ∧
      (∀ m fb rxs rest, fixupLegal fb = true → rxs.length = n →
        s.busScript = some (.ok m) :: some (fixupReply fb) :: (payloadReplies (s.profAt prof) rxs ++ rest) →
        fa = fb ∧ rx = rxs ∧ bs = rest) ∧
      (∀ m fb rxs e' rest, fixupLegal fb = true → rxs.length < n →
        s.busScript ≠ some (.ok m) :: some (fixupReply fb) :: (failingReplies (s.profAt prof) rxs e' ++ rest))) := by
  unfold State.transact
  generalize hb : s.beginTx prof n = b
  have hcp : b.curProfile = s.profAt prof := by
    subst hb
    show s.profAt (BitVec.ofNat 8 prof).toNat = _
    rw [BitVec.toNat_ofNat, Nat.mod_eq_of_lt hprof]
  have hcl : b.curlen.toNat = n := by
    subst hb
    show (BitVec.ofNat 9 n).toNat = _
    rw [BitVec.toNat_ofNat, Nat.mod_eq_of_lt hn2]
  have hix : b.idx.toNat = 0 := by subst hb; rfl
  have hbus : b.busScript = s.busScript := by subst hb; rfl
  have htim : b.timerScript = s.timerScript := by subst hb; rfl
  have hsil : Silent b → Silent s := fun h => h.mono (by rw [hbus]; exact fun _ h => h) (by rw [htim]; exact fun _ h => h)
  rcases b.openTx_spec with ⟨p, h, hs, q1, q2, q3, q4⟩ | ⟨e, x, d, cp, cl, ix, h, h1, h2, h3⟩ |
    ⟨fa, c, ts, d, h, hfa, hts, h1, h2, g1, g2⟩
  · rw [h]
    rw [hbus] at q1 q2 q3 q4
    refine .inl ⟨p, rfl, hsil hs, q1, q3, q4, fun ha m fb rxs rest => ⟨fun _ => ?_, fun e' _ => ?_⟩⟩
    · exact q2 (fun x hx => ha x (htim ▸ hx)) m fb _
    · exact q2 (fun x hx => ha x (htim ▸ hx)) m fb _
  · rw [h]
    refine .inr (.inl ⟨e, x, d, cp, cl, ix, ?_, hbus ▸ h1, hbus ▸ h2, hbus ▸ h3⟩)
    rw [hcp]
    subst hb
    rfl
  rw [h, bind_ok]
  generalize hu : ({ b with
        busmode := b.curProfile.pmode, modev := true, clkIdle := c,
        cslvl := setBit b.cslvl b.curProfile.psel.toNat false,
        trace := b.trace ++ openingEvents b.curProfile fa, phase := .xfer,
        busScript := b.busScript.tail.tail, timerScript := ts, draws := d } : State) = u
  have hup : u.curProfile = s.profAt prof := by subst hu; exact hcp
  have hread : u.memRead 0 n = s.memRead 0 n := by subst hu hb; rfl
  have hub : u.busScript = s.busScript.tail.tail := by subst hu; show b.busScript.tail.tail = _; rw [hbus]
  have hsil2 : Silent u → Silent s := fun h => h.mono
    (fun a ha => List.mem_of_mem_tail (List.mem_of_mem_tail (hub ▸ ha)))
    (by subst hu; rw [← htim]; exact hts)
  have hut : ∀ a ∈ u.timerScript, a ∈ s.timerScript := by subst hu; rw [← htim]; exact hts
  rw [hbus] at h1 h2 g1 g2
  rcases u.payload_spec n hn (by subst hu; rfl) (by subst hu; exact hix) (by subst hu; exact hcl) with
    ⟨p, h, hs, hsl⟩ | ⟨rx, wr, e, c2, bs, ts2, d2, ix, h, hl, hw, h3, h4⟩ | ⟨rx, bs, ts2, d2, ix, h, hl, hbs, hts2, h3, h4⟩
  · rw [h]
    refine .inl ⟨p, rfl, hsil2 hs, h1, fun l e => absurd e (g1 l), fun a l e => absurd e (g2 a l),
      fun ha m fb rxs rest => ⟨fun hr hb2 => ?_, fun e' hr hb2 => ?_⟩⟩
    · exact (hsl fun x hx => ha x (hut x hx)).1 rxs rest hr (by rw [hub, hup, hb2]; rfl)
    · exact (hsl fun x hx => ha x (hut x hx)).2 rxs e' rest hr (by rw [hub, hup, hb2]; rfl)
  · rw [h]
    generalize hv : ({ u with
        trace := u.trace ++ failingEvents u.curProfile (u.memRead 0 n) rx e,
        buf := u.buf.writeCells 0 wr, clkIdle := c2, busScript := bs, timerScript := ts2, draws := d2, idx := ix,
        phase := .abort } : State) = v
    obtain ⟨xs, c3, d3, cp, cl, ix3, hab, hxs⟩ := v.abortPhase_spec
    have hvp : v.curProfile = s.profAt prof := by subst hv; exact hup
    have hvl : v.curlen.toNat = n := by subst hv hu; exact hcl
    rw [hvl] at hxs
    refine .inr (.inr (.inl ⟨fa, rx, wr, xs, e, v, c3, bs, ts2, d3, cp, cl, ix3, rfl, ?_, hfa, hl, hw, hxs, h1,
      g1, g2, ?_, ?_⟩))
    · rw [hab, hvp]
      subst hv
      rw [hup, hread]
      subst hu
      rw [hcp]
      subst hb
      simp [State.lineOf, State.beginTx, List.append_assoc]
    · intro m fb rxs rest hfb hr hb2
      exact h3 rxs rest hr (by rw [hub, hup, hb2]; rfl)
    · intro m fb rxs e' rest hfb hr hb2
      obtain ⟨e1, e2, e3⟩ := h4 rxs e' rest hr (by rw [hub, hup, hb2]; rfl)
      exact ⟨h2 m fb _ hb2 hfb, e1, e2, hup ▸ e3⟩
  · rw [h, bind_ok]
    generalize hv : ({ u with
        trace := u.trace ++ payloadEvents u.curProfile (u.memRead 0 n) rx, buf := u.buf.writeCells 0 rx,
        clkIdle := cpol u.curProfile.pmode, busScript := bs, timerScript := ts2, draws := d2, idx := ix,
        phase := u.afterPayload } : State) = v
    have hvp : v.curProfile = s.profAt prof := by subst hv; exact hup
    rcases v.closeTx_spec (by subst hv; rfl) with ⟨p, h, hs⟩ | ⟨ts3, d3, cp, cl, ix3, h, hts3⟩
    · rw [h]
      have hs : false ∈ s.timerScript := hut _ (hts2 _ (by subst hv; exact hs))
      exact .inl ⟨p, rfl, .inr hs, h1, fun l e => absurd e (g1 l), fun a l e => absurd e (g2 a l),
        fun ha => absurd (ha _ hs) (by simp)⟩
    · rw [h]
      refine .inr (.inr (.inr ⟨fa, rx, bs, ts3, d3, cp, cl, ix3, ?_, hfa, hl, h1, g1, g2, ?_, ?_⟩))
      · rw [hvp]
        subst hv
        rw [hup, hread]
        subst hu
        rw [hcp]
        subst hb
        simp [State.lineOf, State.beginTx, List.append_assoc]
      · intro m fb rxs rest hfb hr hb2
        obtain ⟨e1, e2⟩ := h3 rxs rest hr (by rw [hub, hup, hb2]; rfl)
        exact ⟨h2 m fb _ hb2 hfb, e1, e2⟩
      · intro m fb rxs e' rest hfb hr hb2
        exact h4 rxs e' rest hr (by rw [hub, hup, hb2]; rfl)

end Sys2Proof.Machine
end

