-- ==== Sys2Proof/Laws/Operations.lean ====
section
/-! SUPPORT. The five transaction operations as one: launch checks, a frame in the buffer, one transaction, and what is made of
its result. A claim about EXEC, SETP, GETP, CMD and ENCRD cites `exec_family` with `State.transact_spec`. -/

namespace Sys2Proof.Machine

/-! ### Legal parameters -/

theorem Params.legal_iff (c : Params) : c.legal = true ↔
    1 ≤ c.nsel ∧ c.nsel ≤ 32 ∧ 1 ≤ c.nprof ∧ c.nprof ≤ 256 ∧ 1 ≤ c.nreg ∧ c.nreg ≤ 256 ∧
      1 ≤ c.nconv ∧ c.nconv ≤ 256 ∧ 5 ≤ c.bufsz ∧ c.bufsz ≤ 256 := by
  simp [Params.legal]

@[simp] theorem length_packBytes (v : Word) (w : Nat) : (packBytes v w).length = byteLength w := by simp [packBytes]

theorem byteLength_le {w : Nat} (h : w ≤ 32) : byteLength w ≤ 4 := by unfold byteLength; omega

theorem byteLength_pos {w : Nat} (h : 1 ≤ w) : 1 ≤ byteLength w := by unfold byteLength; omega

theorem legalWidth_iff (w : Nat) : legalWidth w = true ↔ 1 ≤ w ∧ w ≤ 32 := by simp [legalWidth]

theorem settable_iff (a : BitVec 2) : settable a = true ↔ a = 2 ∨ a = 3 := by simp [settable]

theorem gettable_iff (a : BitVec 2) : gettable a = true ↔ a = 1 ∨ a = 3 := by simp [gettable]

/-! ### Frames -/

@[simp] theorem State.length_setFrame (s : State) (r : Nat) :
    (s.setFrame r).length = 1 + byteLength (s.regAt r).width.toNat := by
  simp [State.setFrame, Nat.add_comm]

@[simp] theorem State.length_getFrame (s : State) (r : Nat) :
    (s.getFrame r).length = 1 + byteLength (s.regAt r).width.toNat := by
  simp [State.getFrame, Nat.add_comm]

@[simp] theorem State.length_cmdFrame (s : State) (c : Byte) (d : Bool) (aw : Nat) :
    (s.cmdFrame c d aw).length = 1 + argBytes aw := by
  unfold State.cmdFrame argBytes
  by_cases h : aw = 0 <;> simp [h, Nat.add_comm]

@[simp] theorem State.length_encFrame (s : State) : s.encFrame.length = 2 := rfl

theorem argBytes_le {aw : Nat} (h : aw ≤ 32) : argBytes aw ≤ 4 := by
  unfold argBytes
  split
  · omega
  · exact byteLength_le h

/-! ### The family -/

/-- What an operation of the family makes of a successful transaction's state `t` (R122, R192, R194, R196, R212). -/
def AfterTx (i : Instr) (t u : State) : Prop :=
  (writesVal i = false ∧ u = t.done false) ∨
  (∃ prof reg, i = .getp prof reg ∧ u = ({ t with val := t.response (t.regAt reg) } : State).done false) ∨
  (∃ prof r12, i = .encrd prof r12 ∧ u = t.encCheck r12)

/-- The causes SETP and GETP can report under legal parameters: the length check never fails (R236, code 4). -/
theorem registerChecks_causes {s : State} {allowed : BitVec 2 → Bool} {p r : Nat} {c : CfgCause}
    (hl : s.cfg.legal = true) (h : firstFailure (s.registerChecks allowed p r) = some c) :
    c = .badIndex ∨ c = .notValid ∨ c = .badAccess ∨ c = .badWidth := by
  have hl := (Params.legal_iff _).mp hl
  simp only [State.registerChecks, firstFailure_cons, firstFailure_nil] at h
  split at h
  swap; · simp_all
  split at h
  swap; · simp_all
  split at h
  swap; · simp_all
  split at h
  swap; · simp_all
  split at h
  swap; · simp_all
  split at h
  swap; · simp_all
  split at h
  swap; · simp_all
  split at h
  · simp at h
  · rename_i hw hb
    have h1 := byteLength_le ((legalWidth_iff _).mp hw).2
    simp only [State.inBuffer, decide_eq_true_eq] at hb
    omega

/-- The causes CMD can report under legal parameters: the length check never fails (R236, code 4). -/
theorem cmdChecks_causes {s : State} {p aw : Nat} {c : CfgCause} (hl : s.cfg.legal = true)
    (h : firstFailure (s.cmdChecks p aw) = some c) : c = .badIndex ∨ c = .notValid ∨ c = .badWidth := by
  have hl := (Params.legal_iff _).mp hl
  simp only [State.cmdChecks, firstFailure_cons, firstFailure_nil] at h
  split at h
  swap; · simp_all
  split at h
  swap; · simp_all
  split at h
  swap; · simp_all
  split at h
  swap; · simp_all
  split at h
  · simp at h
  · rename_i hw hb
    have h1 := argBytes_le (by simpa using hw)
    simp only [State.inBuffer, decide_eq_true_eq] at hb
    omega

/-- Everything an operation of the transaction family does, said once. -/
theorem exec_family {s : State} {i : Instr} {prof : Nat} {tx : List Byte} (h : txOf s i = some (prof, tx)) :
    ∃ checks b after, exec i s = s.launchWith checks (b.runTx prof tx.length after) ∧
      b.memRead 0 tx.length = tx ∧ (b = s ∨ b = s.memWrite 0 tx) ∧
      (s.cfg.legal = true → (∀ p ∈ checks, p.1 = true) →
        prof < s.cfg.nprof ∧ 1 ≤ tx.length ∧ tx.length ≤ s.cfg.bufsz ∧ (s.profAt prof).valid = true ∧
          s.lineOf prof < s.cfg.nsel) ∧
      (Launches s i → (∀ p ∈ checks, p.1 = true) ∧ Ready s prof) ∧
      (s.cfg.legal = true → ∀ c, firstFailure checks = some c →
        (s.raiseConfig c).status ∈ outcomes i) ∧
      (∀ t, AfterTx i t (after t)) := by
  cases i with
  | exec p ib len =>
    simp only [txOf, Option.some.injEq, Prod.mk.injEq] at h
    obtain ⟨rfl, rfl⟩ := h
    refine ⟨s.execChecks p len, s, fun t => t.done false, ?_, by simp, .inl rfl, ?_, ?_, ?_, fun t => .inl ⟨rfl, rfl⟩⟩
    · simp [exec, execExec]
    · intro _ hc
      simp [State.execChecks] at hc
      exact ⟨hc.1, by simpa using hc.2.2.2.1, by simpa using hc.2.2.2.2, hc.2.1, hc.2.2.1⟩
    · rintro ⟨hr, h1, h2⟩
      refine ⟨?_, hr⟩
      simp [State.execChecks, hr.index, hr.valid, hr.line, h1, h2]
    · intro _ c hc
      have := firstFailure_mem hc
      simp only [State.execChecks, List.mem_cons, Prod.mk.injEq, List.not_mem_nil, or_false] at this
      rcases this with ⟨-, rfl⟩ | ⟨-, rfl⟩ | ⟨-, rfl⟩ | ⟨-, rfl⟩ <;>
        simp [State.raiseConfig, State.raise, OpError.status, OpError.kind, OpError.cfgc, CfgCause.code, outcomes]
  | setp p r =>
    simp only [txOf, Option.some.injEq, Prod.mk.injEq] at h
    obtain ⟨rfl, rfl⟩ := h
    refine ⟨s.registerChecks settable p r, s.memWrite 0 (s.setFrame r), fun t => t.done false, ?_,
      State.memRead_memWrite_same _ _ _, .inr rfl, ?_, ?_, ?_, fun t => .inl ⟨rfl, rfl⟩⟩
    · simp [exec, execSetp]
    · intro _ hc
      simp [State.registerChecks, State.inBuffer] at hc
      exact ⟨hc.1, by simp, by simpa using hc.2.2.2.2.2.2.2, hc.2.2.1, hc.2.2.2.2.1⟩
    · rintro ⟨hr, h1, h2, h3, h4, h5⟩
      refine ⟨?_, hr⟩
      have hb := byteLength_le h5
      have hl := (Params.legal_iff _).mp hr.legal
      have : 1 + byteLength (s.regAt r).width.toNat ≤ s.cfg.bufsz := by omega
      simp [State.registerChecks, State.inBuffer, hr.index, hr.valid, hr.line, h1, h2, (settable_iff _).mpr h3,
        (legalWidth_iff _).mpr ⟨h4, h5⟩, this]
    · intro hlg c hc
      rcases registerChecks_causes hlg hc with rfl | rfl | rfl | rfl <;>
        simp [State.raiseConfig, State.raise, OpError.status, OpError.kind, OpError.cfgc, CfgCause.code, outcomes]
  | getp p r =>
    simp only [txOf, Option.some.injEq, Prod.mk.injEq] at h
    obtain ⟨rfl, rfl⟩ := h
    refine ⟨s.registerChecks gettable p r, s.memWrite 0 (s.getFrame r), _, by simp only [exec, execGetp, State.length_getFrame],
      State.memRead_memWrite_same _ _ _, .inr rfl, ?_, ?_, ?_, fun t => .inr (.inl ⟨p, r, rfl, rfl⟩)⟩
    · intro _ hc
      simp [State.registerChecks, State.inBuffer] at hc
      exact ⟨hc.1, by simp, by simpa using hc.2.2.2.2.2.2.2, hc.2.2.1, hc.2.2.2.2.1⟩
    · rintro ⟨hr, h1, h2, h3, h4, h5⟩
      refine ⟨?_, hr⟩
      have hb := byteLength_le h5
      have hl := (Params.legal_iff _).mp hr.legal
      have : 1 + byteLength (s.regAt r).width.toNat ≤ s.cfg.bufsz := by omega
      simp [State.registerChecks, State.inBuffer, hr.index, hr.valid, hr.line, h1, h2, (gettable_iff _).mpr h3,
        (legalWidth_iff _).mpr ⟨h4, h5⟩, this]
    · intro hlg c hc
      rcases registerChecks_causes hlg hc with rfl | rfl | rfl | rfl <;>
        simp [State.raiseConfig, State.raise, OpError.status, OpError.kind, OpError.cfgc, CfgCause.code, outcomes]
  | cmd p c d aw =>
    simp only [txOf, Option.some.injEq, Prod.mk.injEq] at h
    obtain ⟨rfl, rfl⟩ := h
    refine ⟨s.cmdChecks p aw, s.memWrite 0 (s.cmdFrame c d aw), _, by simp only [exec, execCmd, State.length_cmdFrame],
      State.memRead_memWrite_same _ _ _, .inr rfl, ?_, ?_, ?_, fun t => .inl ⟨rfl, rfl⟩⟩
    · intro _ hc
      simp [State.cmdChecks, State.inBuffer] at hc
      exact ⟨hc.1, by simp, by simpa using hc.2.2.2.2, hc.2.1, hc.2.2.1⟩
    · rintro ⟨hr, h1⟩
      refine ⟨?_, hr⟩
      have hb := argBytes_le h1
      have hl := (Params.legal_iff _).mp hr.legal
      have : 1 + argBytes aw ≤ s.cfg.bufsz := by omega
      simp [State.cmdChecks, State.inBuffer, hr.index, hr.valid, hr.line, h1, this]
    · intro hlg c hc
      rcases cmdChecks_causes hlg hc with rfl | rfl | rfl <;>
        simp [State.raiseConfig, State.raise, OpError.status, OpError.kind, OpError.cfgc, CfgCause.code, outcomes]
  | encrd p r12 =>
    simp only [txOf, Option.some.injEq, Prod.mk.injEq] at h
    obtain ⟨rfl, rfl⟩ := h
    refine ⟨s.encChecks p, s.memWrite 0 s.encFrame, _, by simp only [exec, execEncrd, State.length_encFrame],
      State.memRead_memWrite_same _ _ _, .inr rfl, ?_, ?_, ?_, fun t => .inr (.inr ⟨p, r12, rfl, rfl⟩)⟩
    · intro hl hc
      have hl := (Params.legal_iff _).mp hl
      simp [State.encChecks] at hc
      exact ⟨hc.1, by simp, by simp; omega, hc.2.1, hc.2.2⟩
    · intro hr
      refine ⟨?_, hr⟩
      simp [State.encChecks, hr.index, hr.valid, hr.line]
    · intro _ c hc
      have := firstFailure_mem hc
      simp only [State.encChecks, List.mem_cons, Prod.mk.injEq, List.not_mem_nil, or_false] at this
      rcases this with ⟨-, rfl⟩ | ⟨-, rfl⟩ | ⟨-, rfl⟩ <;>
        simp [State.raiseConfig, State.raise, OpError.status, OpError.kind, OpError.cfgc, CfgCause.code, outcomes]
  | _ => simp [txOf] at h

/-- Everything an operation of the family can do, under legal parameters: stop at a launch check, be refused by a closed bus,
wait for ever on a silent environment, or run one transaction and end in one of its three ways. `bb` is the buffer with the
frame in it, `u` the state of the successful transaction. -/
theorem exec_tx_cases {s : State} {i : Instr} {prof : Nat} {tx : List Byte} (hl : s.cfg.legal = true)
    (h : txOf s i = some (prof, tx)) :
    (∃ c, exec i s = .next (s.raiseConfig c) ∧ (s.raiseConfig c).status ∈ outcomes i ∧ ¬ Launches s i) ∨
    (exec i s = .refused .busNotOpen ∧ s.busOpen = false) ∨
    (∃ p, exec i s = .fault (.unanswered p) ∧ Silent s ∧ (∀ e l, s.busScript ≠ some (.fail e) :: l) ∧
      (∀ l, s.busScript = none :: l → p = .modeSet) ∧ (∀ a l, s.busScript = some a :: none :: l → p = .fixup) ∧
      (TimerAnswers s → ∀ m fb rxs rest,
        (rxs.length = tx.length →
          s.busScript ≠ some (.ok m) :: some (fixupReply fb) :: (payloadReplies (s.profAt prof) rxs ++ rest)) ∧
        ∀ e', rxs.length < tx.length →
          s.busScript ≠ some (.ok m) :: some (fixupReply fb) :: (failingReplies (s.profAt prof) rxs e' ++ rest))) ∨
    (∃ bb, (bb = s.buf ∨ bb = s.buf.writeCells 0 tx) ∧ ({ s with buf := bb } : State).memRead 0 tx.length = tx ∧
      Ready s prof ∧ 1 ≤ tx.length ∧ tx.length ≤ s.cfg.bufsz ∧
      ((∃ e b d cp cl ix, exec i s = .next { s with
          buf := bb, status := 0x003, errinfo := e, modev := false, busmode := b,
          trace := s.trace ++ [.modeSet (s.profAt prof).pmode (.fail e)],
          busScript := s.busScript.tail, draws := d, phase := .idle, curp := cp, curlen := cl, idx := ix } ∧
        (∀ m l, s.busScript ≠ some (.ok m) :: l) ∧ (∀ e' l, s.busScript = some (.fail e') :: l → e = e') ∧
        (∀ l, s.busScript ≠ none :: l)) ∨
      (∃ fa rx wr xs e c bs ts d cp cl ix, exec i s = .next { s with
          cslvl := setBit (setBit s.cslvl (s.lineOf prof) false) (s.lineOf prof) true,
          status := 0x005, errinfo := e,
          busmode := (s.profAt prof).pmode, modev := true, clkIdle := c, buf := (bb.writeCells 0 wr).writeCells 0 xs,
          trace := s.trace ++ (openingEvents (s.profAt prof) fa ++
            failingEvents (s.profAt prof) tx rx e ++ [.cs (s.lineOf prof) true]),
          busScript := bs, timerScript := ts, draws := d, phase := .idle, curp := cp, curlen := cl, idx := ix } ∧
        fixupLegal fa = true ∧ rx.length < tx.length ∧ wr.length ≤ tx.length ∧ xs.length = tx.length ∧
        (∀ e' l, s.busScript ≠ some (.fail e') :: l) ∧ (∀ l, s.busScript ≠ none :: l) ∧
        (∀ a l, s.busScript ≠ some a :: none :: l) ∧
        (∀ m fb rxs rest, fixupLegal fb = true → rxs.length = tx.length →
          s.busScript ≠ some (.ok m) :: some (fixupReply fb) :: (payloadReplies (s.profAt prof) rxs ++ rest)) ∧
        (∀ m fb rxs e' rest, fixupLegal fb = true → rxs.length < tx.length →
          s.busScript = some (.ok m) :: some (fixupReply fb) :: (failingReplies (s.profAt prof) rxs e' ++ rest) →
          fa = fb ∧ e = e' ∧ bs = rest ∧ ((s.profAt prof).pibd ≠ 0 → rx = rxs))) ∨
      (∃ fa rx bs ts d cp cl ix t u, exec i s = .next t ∧ AfterTx i u t ∧ u = { s with
          cslvl := setBit (setBit s.cslvl (s.lineOf prof) false) (s.lineOf prof) true,
          busmode := (s.profAt prof).pmode, modev := true, clkIdle := cpol (s.profAt prof).pmode,
          buf := bb.writeCells 0 rx,
          trace := s.trace ++ (openingEvents (s.profAt prof) fa ++
            payloadEvents (s.profAt prof) tx rx ++ closingEvents (s.profAt prof)),
          busScript := bs, timerScript := ts, draws := d, phase := .idle, curp := cp, curlen := cl, idx := ix } ∧
        fixupLegal fa = true ∧ rx.length = tx.length ∧
        (∀ e' l, s.busScript ≠ some (.fail e') :: l) ∧ (∀ l, s.busScript ≠ none :: l) ∧
        (∀ a l, s.busScript ≠ some a :: none :: l) ∧
        (∀ m fb rxs rest, fixupLegal fb = true → rxs.length = tx.length →
          s.busScript = some (.ok m) :: some (fixupReply fb) :: (payloadReplies (s.profAt prof) rxs ++ rest) →
          fa = fb ∧ rx = rxs ∧ bs = rest) ∧
        (∀ m fb rxs e' rest, fixupLegal fb = true → rxs.length < tx.length →
          s.busScript ≠ some (.ok m) :: some (fixupReply fb) ::
            (failingReplies (s.profAt prof) rxs e' ++ rest))))) := by
  obtain ⟨checks, b, after, he, hr, hb, hpass, hlaunch, hout, haft⟩ := exec_family h
  rw [he]
  rcases s.launchWith_cases checks (b.runTx prof tx.length after) with ⟨c, hc, hx⟩ | ⟨hp, hx⟩
  · refine .inl ⟨c, hx, hout hl c hc, fun hL => ?_⟩
    rw [(firstFailure_eq_none checks).mpr (hlaunch hL).1] at hc
    simp at hc
  rw [hx]
  obtain ⟨h1, h2, h3, h4, h5⟩ := hpass hl hp
  have hlg := (Params.legal_iff _).mp hl
  obtain ⟨bb, rfl, hbb⟩ : ∃ bb, b = { s with buf := bb } ∧ (bb = s.buf ∨ bb = s.buf.writeCells 0 tx) := by
    rcases hb with rfl | rfl
    · exact ⟨_, rfl, .inl rfl⟩
    · exact ⟨_, rfl, .inr rfl⟩
  unfold State.runTx
  by_cases ho : s.busOpen = true
  swap
  · rw [if_neg ho]
    exact .inr (.inl ⟨rfl, by simpa using ho⟩)
  rw [if_pos ho]
  refine .inr (.inr ?_)
  rcases State.transact_spec { s with buf := bb } prof tx.length (by omega) h2 (by omega) with
    ⟨p, h, hs⟩ | ⟨e, x, d, cp, cl, ix, h, k⟩ | ⟨fa, rx, wr, xs, e, u, c, bs, ts, d, cp, cl, ix, h, hu, k⟩ |
      ⟨fa, rx, bs, ts, d, cp, cl, ix, h, k⟩
  · exact .inl ⟨p, by rw [h]; rfl, hs⟩
  · refine .inr ⟨bb, hbb, hr, ⟨hl, h1, h4, h5, ho⟩, h2, h3, .inl ⟨e, x, d, cp, cl, ix, ?_, k⟩⟩
    rw [h]
    simp only [finishTx, State.raise, OpError.status_modeSetFailed, OpError.info]
    rfl
  · refine .inr ⟨bb, hbb, hr, ⟨hl, h1, h4, h5, ho⟩, h2, h3, .inr (.inl ⟨fa, rx, wr, xs, e, c, bs, ts, d, cp, cl, ix, ?_, k⟩)⟩
    rw [h]
    simp only [finishTx, State.raise, OpError.status_transferFailed, OpError.info]
    rw [hu, hr]
    rfl
  · rw [hr] at h
    rw [h]
    exact .inr ⟨bb, hbb, hr, ⟨hl, h1, h4, h5, ho⟩, h2, h3, .inr (.inr
      ⟨fa, rx, bs, ts, d, cp, cl, ix, _, _, rfl, haft _, rfl, k⟩)⟩

/-! ### Reading the cases -/

theorem Launches.legal {s : State} {i : Instr} (h : Launches s i) : s.cfg.legal = true := by
  cases i <;> simp only [Launches] at h
  · exact h.1.legal
  · exact h.1.legal
  · exact h.1.legal
  · exact h.1.legal
  · exact h.legal

theorem Launches.ready {s : State} {i : Instr} {prof : Nat} {tx : List Byte} (h : Launches s i)
    (h2 : txOf s i = some (prof, tx)) : Ready s prof := by
  obtain ⟨_, _, _, _, _, _, _, hl, _⟩ := exec_family h2
  exact (hl h).2

/-- An operation that launches runs a transaction. -/
theorem Launches.txOf {s : State} {i : Instr} (h : Launches s i) : ∃ prof tx, txOf s i = some (prof, tx) := by
  cases i <;> simp only [Launches] at h <;> exact ⟨_, _, rfl⟩

/-- A line driven low and high again. -/
theorem getLsbD_setBit_pair (v : Word) (k j : Nat) :
    (setBit (setBit v k false) k true).getLsbD j = (v.getLsbD j || (decide (j = k) && decide (j < 32))) := by
  rw [getLsbD_setBit, getLsbD_setBit]
  by_cases h : j = k ∧ j < 32
  · rw [if_pos h]; simp [h.1, h.1 ▸ h.2]
  · have : (decide (j = k) && decide (j < 32)) = false := by simpa using h
    rw [if_neg h, if_neg h, this, Bool.or_false]

/-- The encoder check writes `VAL`, `STATUS` and `ERRINFO`, and may draw a free value (R214). -/
theorem State.encCheck_spec (u : State) (r12 : Bool) :
    ∃ v d st e, u.encCheck r12 = { u with val := v, draws := d, status := st, errinfo := e } ∧
      (st = 0 ∧ e = 0 ∨ st = 0x007) := by
  unfold State.encCheck
  split
  · exact ⟨_, _, _, _, rfl, by simp [statusDone]⟩
  · exact ⟨_, _, _, _, rfl, .inr (by simp)⟩

/-- What follows a successful transaction writes `VAL` (GETP, ENCRD only), `STATUS` and `ERRINFO`. -/
theorem AfterTx.spec {i : Instr} {u t : State} (h : AfterTx i u t) :
    ∃ v d st e, t = { u with val := v, draws := d, status := st, errinfo := e } ∧
      (writesVal i = false → v = u.val) ∧ (st = 0 ∧ e = 0 ∨ st = 0x007 ∧ ∃ p r12, i = .encrd p r12) := by
  rcases h with ⟨h, rfl⟩ | ⟨p, r, rfl, rfl⟩ | ⟨p, r, rfl, rfl⟩
  · exact ⟨_, _, _, _, rfl, fun _ => rfl, .inl ⟨rfl, rfl⟩⟩
  · exact ⟨_, _, _, _, rfl, by simp [writesVal], .inl ⟨rfl, rfl⟩⟩
  · obtain ⟨v, d, st, e, h, h2⟩ := u.encCheck_spec r
    exact ⟨v, d, st, e, h, by simp [writesVal], h2.imp_right fun h2 => ⟨h2, _, _, rfl⟩⟩

/-- A cell beyond the bytes written from 0 is as before. -/
theorem bufGet_writeCells_beyond (s : State) (m : Memory) (bs : List Byte) {a : Nat} (h : bs.length ≤ a) :
    ({ s with buf := m.writeCells 0 bs } : State).bufGet a = ({ s with buf := m } : State).bufGet a := by
  have := State.bufGet_memWrite { s with buf := m } 0 a bs
  simp only [State.memWrite, Nat.zero_le, if_true, Nat.sub_zero, List.getElem?_eq_none h, Option.getD_none] at this
  exact this

/-- Building the frame changes no cell beyond it. -/
theorem bufGet_frame_beyond {s : State} {bb : Memory} {tx : List Byte} (h : bb = s.buf ∨ bb = s.buf.writeCells 0 tx)
    {a : Nat} (ha : tx.length ≤ a) : ({ s with buf := bb } : State).bufGet a = s.bufGet a := by
  rcases h with rfl | rfl
  · rfl
  · exact bufGet_writeCells_beyond s _ _ ha

/-- The bytes written from 0 are read back. -/
theorem memRead_writeCells (s : State) (m : Memory) (bs : List Byte) :
    ({ s with buf := m.writeCells 0 bs } : State).memRead 0 bs.length = bs :=
  State.memRead_memWrite_same { s with buf := m } 0 bs

/-! ### An answered transaction -/

/-- What a success leaves does not depend on `VAL`, `STATUS`, `ERRINFO` and the count of free values. -/
theorem TxDone.withResult {s u : State} {prof : Nat} {tx : List Byte} {fa : XferAnswer} {rx : List Byte}
    {rest : List (Option Reply)} (h : TxDone s u prof tx fa rx rest) (v : Word) (d : Nat) (st e : Word) :
    TxDone s { u with val := v, draws := d, status := st, errinfo := e } prof tx fa rx rest := by
  obtain ⟨⟨h1, h2, h3, h4, h5, h6, h7, h8, h9, h10, h11, h12, h13⟩, k1, k2, k3, k4, k5, k6, k7, k8⟩ := h
  exact ⟨⟨h1, h2, h3, h4, h5, h6, h7, h8, h9, h10, h11, h12, h13⟩, k1, k2, k3, k4, k5, k6, k7, k8⟩


/-- A launched operation whose environment answers completes, from the state `u` of a successful transaction. -/
theorem exec_answered {s : State} {i : Instr} {prof : Nat} {tx : List Byte} {fa : XferAnswer} {rx : List Byte}
    {rest : List (Option Reply)} (hL : Launches s i) (h : txOf s i = some (prof, tx))
    (hA : Answered s (s.profAt prof) fa rx rest) (hlen : rx.length = tx.length) :
    ∃ t u, exec i s = .next t ∧ AfterTx i u t ∧ TxDone s u prof tx fa rx rest ∧ u.val = s.val := by
  have hl := hL.legal
  have hlg := (Params.legal_iff _).mp hl
  obtain ⟨m, hb⟩ := hA.script
  rcases exec_tx_cases hl h with ⟨c, hx, -, k⟩ | ⟨hx, ho⟩ | ⟨p, hx, -, -, -, -, k⟩ | ⟨bb, hbb, hr, hrd, h1, h2, hx⟩
  · exact absurd hL k
  · rw [(hL.ready h).busOpen] at ho; cases ho
  · exact absurd hb ((k hA.timer _ _ _ _).1 hlen)
  rcases hx with ⟨e, b, d, cp, cl, ix, hx, k1, -⟩ | ⟨fb, ry, wr, xs, e, c, bs, ts, d, cp, cl, ix, hx, -, -, -, -, -, -, -, k, -⟩ |
    ⟨fb, ry, bs, ts, d, cp, cl, ix, t, u, hx, ha, hu, k1, k2, -, -, -, k, -⟩
  · exact absurd hb (k1 _ _)
  · exact absurd hb (k _ _ _ _ hA.fixup hlen)
  · obtain ⟨rfl, rfl, rfl⟩ := k _ _ _ _ hA.fixup hlen hb
    refine ⟨t, u, hx, ha, ?_, by subst hu; rfl⟩
    subst hu
    have := hrd.line
    refine ⟨⟨rfl, rfl, rfl, rfl, rfl, rfl, rfl, rfl, rfl, rfl, rfl, fun j hj => ?_, fun a ha => ?_⟩, rfl, ?_, ?_, rfl, rfl,
      rfl, rfl, rfl⟩
    · show (setBit (setBit s.cslvl (s.lineOf prof) false) (s.lineOf prof) true).getLsbD j = _
      simp [getLsbD_setBit_pair, hj]
    · exact (bufGet_writeCells_beyond s _ _ (by omega)).trans (bufGet_frame_beyond hbb ha)
    · rw [← hlen]; exact memRead_writeCells s _ _
    · show (setBit (setBit s.cslvl (s.lineOf prof) false) (s.lineOf prof) true).getLsbD _ = _
      rw [getLsbD_setBit_pair]
      have : s.lineOf prof < 32 := by omega
      simp [this]

end Sys2Proof.Machine
end

