-- ==== Sys2Proof/Laws/PerInstr.lean ====
section
/-! SUPPORT. Statements proved per instruction: the encoder's word matches the operation's own row of the opcode map
(30_encoding.md R91, R100). -/

namespace Sys2Proof.Laws

/-- The row of the opcode map of an operation (R100). -/
def rowOf : Instr → OpcodeRow
  | .nop => rowNop
  | .exec _ _ _ => rowExec
  | .pack _ _ => rowPack
  | .unpack _ _ => rowUnpack
  | .unpacks _ _ => rowUnpacks
  | .sext _ => rowSext
  | .uenc _ => rowUenc
  | .udec _ => rowUdec
  | .setp _ _ => rowSetp
  | .getp _ _ => rowGetp
  | .cmd _ _ _ _ => rowCmd
  | .encrd _ _ => rowEncrd
  | .encchk _ => rowEncchk

namespace OwnRow

/-- The encoder's word matches the operation's own row. -/
def Statement (i : Instr) : Prop := (rowOf i).hits (encode i) = true

/-- Two words are equal if their 32 bits are. -/
theorem word_ext {a b : Word} (h : ∀ j : Fin 32, a.getLsbD j = b.getLsbD j) : a = b :=
  BitVec.eq_of_getLsbD_eq fun j hj => h ⟨j, hj⟩

theorem nop : Statement .nop := by unfold Statement; decide

theorem exec (prof : Nat) (ib : Bool) (len : Nat) : Statement (.exec prof ib len) := by
  simp only [Statement, rowOf, encode, OpcodeRow.hits, rowExec, beq_iff_eq]
  refine word_ext fun j => ?_
  simp only [BitVec.getLsbD_and, BitVec.getLsbD_append]
  fin_cases j <;> simp

theorem pack (w off : Nat) : Statement (.pack w off) := by
  simp only [Statement, rowOf, encode, OpcodeRow.hits, rowPack, beq_iff_eq]
  refine word_ext fun j => ?_
  simp only [BitVec.getLsbD_and, BitVec.getLsbD_append]
  fin_cases j <;> simp

theorem unpack (w off : Nat) : Statement (.unpack w off) := by
  simp only [Statement, rowOf, encode, OpcodeRow.hits, rowUnpack, beq_iff_eq]
  refine word_ext fun j => ?_
  simp only [BitVec.getLsbD_and, BitVec.getLsbD_append]
  fin_cases j <;> simp

theorem unpacks (w off : Nat) : Statement (.unpacks w off) := by
  simp only [Statement, rowOf, encode, OpcodeRow.hits, rowUnpacks, beq_iff_eq]
  refine word_ext fun j => ?_
  simp only [BitVec.getLsbD_and, BitVec.getLsbD_append]
  fin_cases j <;> simp

theorem sext (w : Nat) : Statement (.sext w) := by
  simp only [Statement, rowOf, encode, OpcodeRow.hits, rowSext, beq_iff_eq]
  refine word_ext fun j => ?_
  simp only [BitVec.getLsbD_and, BitVec.getLsbD_append]
  fin_cases j <;> simp

theorem uenc (conv : Nat) : Statement (.uenc conv) := by
  simp only [Statement, rowOf, encode, OpcodeRow.hits, rowUenc, beq_iff_eq]
  refine word_ext fun j => ?_
  simp only [BitVec.getLsbD_and, BitVec.getLsbD_append]
  fin_cases j <;> simp

theorem udec (conv : Nat) : Statement (.udec conv) := by
  simp only [Statement, rowOf, encode, OpcodeRow.hits, rowUdec, beq_iff_eq]
  refine word_ext fun j => ?_
  simp only [BitVec.getLsbD_and, BitVec.getLsbD_append]
  fin_cases j <;> simp

theorem setp (prof reg : Nat) : Statement (.setp prof reg) := by
  simp only [Statement, rowOf, encode, OpcodeRow.hits, rowSetp, beq_iff_eq]
  refine word_ext fun j => ?_
  simp only [BitVec.getLsbD_and, BitVec.getLsbD_append]
  fin_cases j <;> simp

theorem getp (prof reg : Nat) : Statement (.getp prof reg) := by
  simp only [Statement, rowOf, encode, OpcodeRow.hits, rowGetp, beq_iff_eq]
  refine word_ext fun j => ?_
  simp only [BitVec.getLsbD_and, BitVec.getLsbD_append]
  fin_cases j <;> simp

theorem cmd (prof : Nat) (cmdByte : Byte) (dir : Bool) (aw : Nat) : Statement (.cmd prof cmdByte dir aw) := by
  simp only [Statement, rowOf, encode, OpcodeRow.hits, rowCmd, beq_iff_eq]
  refine word_ext fun j => ?_
  simp only [BitVec.getLsbD_and, BitVec.getLsbD_append]
  fin_cases j <;> simp

theorem encrd (prof : Nat) (r12 : Bool) : Statement (.encrd prof r12) := by
  simp only [Statement, rowOf, encode, OpcodeRow.hits, rowEncrd, beq_iff_eq]
  refine word_ext fun j => ?_
  simp only [BitVec.getLsbD_and, BitVec.getLsbD_append]
  fin_cases j <;> simp

theorem encchk (r12 : Bool) : Statement (.encchk r12) := by
  unfold Statement
  revert r12
  decide

end OwnRow

end Sys2Proof.Laws
end

