-- ==== Sys2Proof/Laws/Status.lean ====
section
/-! SUPPORT. `STATUS` and `ERRINFO` play no part in a transaction (10_state.md R26): every phase commutes with a change of them.
A claim that an operation does not read them cites `runTx_withStatus`. -/

namespace Sys2Proof.Machine

/-- `s` with other contents in `STATUS` and `ERRINFO`. -/
def State.withStatus (s : State) (st e : Word) : State := { s with status := st, errinfo := e }

/-- A change of the state carried through a stop. -/
def TxStop.map (f : State → State) : TxStop → TxStop
  | .modeSetFailed s e => .modeSetFailed (f s) e
  | .aborting s e => .aborting (f s) e
  | .stuck p => .stuck p

/-- A change of the state carried through a phase's answer. -/
def mapTx (f : State → State) : Except TxStop State → Except TxStop State
  | .ok t => .ok (f t)
  | .error x => .error (x.map f)

theorem mapTx_bind {f : State → State} (r : Except TxStop State) (g : State → Except TxStop State)
    (h : ∀ s, g (f s) = mapTx f (g s)) : (mapTx f r >>= g) = mapTx f (r >>= g) := by
  cases r with
  | ok t => exact h t
  | error x => rfl

section

variable (st e : Word)

theorem modeSetPhase_withStatus (s : State) :
    (s.withStatus st e).modeSetPhase = mapTx (State.withStatus · st e) s.modeSetPhase := by
  simp only [State.modeSetPhase, State.busSetMode_eq]
  rw [show (s.withStatus st e).busReply = s.busReply from rfl]
  rcases s.busReply with _ | (_ | _) <;> rfl

theorem fixupPhase_withStatus (s : State) :
    (s.withStatus st e).fixupPhase = mapTx (State.withStatus · st e) s.fixupPhase := by
  simp only [State.fixupPhase, State.busTransfer_eq]
  rw [show (s.withStatus st e).busReply = s.busReply from rfl]
  rcases s.busReply with _ | (_ | _) <;> rfl

theorem bulkXfer_withStatus (s : State) : (s.withStatus st e).bulkXfer = mapTx (State.withStatus · st e) s.bulkXfer := by
  simp only [State.bulkXfer, State.busTransfer_eq]
  rw [show (s.withStatus st e).busReply = s.busReply from rfl]
  rcases s.busReply with _ | (_ | _) <;> rfl

theorem byteXfer_withStatus (s : State) : (s.withStatus st e).byteXfer = mapTx (State.withStatus · st e) s.byteXfer := by
  simp only [State.byteXfer, State.busTransfer_eq]
  rw [show (s.withStatus st e).busReply = s.busReply from rfl]
  rcases s.busReply with _ | (_ | _) <;> rfl

theorem xferPhase_withStatus (s : State) : (s.withStatus st e).xferPhase = mapTx (State.withStatus · st e) s.xferPhase := by
  unfold State.xferPhase
  rw [show (s.withStatus st e).curProfile = s.curProfile from rfl]
  split
  · exact bulkXfer_withStatus st e s
  · exact byteXfer_withStatus st e s

theorem sleep_withStatus (s : State) (n : Word) :
    (s.withStatus st e).sleep n = (s.sleep n).map (State.withStatus · st e) := by
  unfold State.sleep
  rw [show (s.withStatus st e).timerScript = s.timerScript from rfl]
  split <;> rfl

theorem preDelayPhase_withStatus (s : State) :
    (s.withStatus st e).preDelayPhase = mapTx (State.withStatus · st e) s.preDelayPhase := by
  simp only [State.preDelayPhase, sleep_withStatus]
  rw [show (s.withStatus st e).curProfile = s.curProfile from rfl]
  cases s.sleep s.curProfile.ppre <;> rfl

theorem ibDelayPhase_withStatus (s : State) :
    (s.withStatus st e).ibDelayPhase = mapTx (State.withStatus · st e) s.ibDelayPhase := by
  simp only [State.ibDelayPhase, sleep_withStatus]
  rw [show (s.withStatus st e).curProfile = s.curProfile from rfl]
  cases s.sleep s.curProfile.pibd <;> rfl

theorem postDelayPhase_withStatus (s : State) :
    (s.withStatus st e).postDelayPhase = mapTx (State.withStatus · st e) s.postDelayPhase := by
  simp only [State.postDelayPhase, sleep_withStatus]
  rw [show (s.withStatus st e).curProfile = s.curProfile from rfl]
  cases s.sleep s.curProfile.ppost <;> rfl

theorem coolDownPhase_withStatus (s : State) :
    (s.withStatus st e).coolDownPhase = mapTx (State.withStatus · st e) s.coolDownPhase := by
  simp only [State.coolDownPhase, sleep_withStatus]
  rw [show (s.withStatus st e).curProfile = s.curProfile from rfl]
  cases s.sleep s.curProfile.pcool <;> rfl

theorem selectPhase_withStatus (s : State) :
    (s.withStatus st e).selectPhase = mapTx (State.withStatus · st e) s.selectPhase := rfl

theorem deselectPhase_withStatus (s : State) :
    (s.withStatus st e).deselectPhase = mapTx (State.withStatus · st e) s.deselectPhase := by
  unfold State.deselectPhase
  rw [show (s.withStatus st e).curProfile = s.curProfile from rfl]
  split <;> rfl

theorem inPhase_withStatus {f : State → Except TxStop State} (p : Phase)
    (h : ∀ s : State, f (s.withStatus st e) = mapTx (State.withStatus · st e) (f s)) (s : State) :
    (s.withStatus st e).inPhase p f = mapTx (State.withStatus · st e) (s.inPhase p f) := by
  unfold State.inPhase
  rw [show (s.withStatus st e).phase = s.phase from rfl]
  split
  · exact h s
  · rfl

theorem openTx_withStatus (s : State) : (s.withStatus st e).openTx = mapTx (State.withStatus · st e) s.openTx := by
  unfold State.openTx
  rw [modeSetPhase_withStatus, mapTx_bind]
  intro s
  rw [fixupPhase_withStatus, mapTx_bind]
  intro s
  rw [selectPhase_withStatus, mapTx_bind]
  exact inPhase_withStatus st e _ (preDelayPhase_withStatus st e)

theorem payload_withStatus (n : Nat) :
    ∀ s : State, State.payload n (s.withStatus st e) = mapTx (State.withStatus · st e) (State.payload n s) := by
  induction n with
  | zero => intro s; rfl
  | succ n ih =>
    intro s
    unfold State.payload
    rw [inPhase_withStatus st e _ (xferPhase_withStatus st e), mapTx_bind]
    intro s
    rw [inPhase_withStatus st e _ (ibDelayPhase_withStatus st e), mapTx_bind]
    exact ih

theorem closeTx_withStatus (s : State) : (s.withStatus st e).closeTx = mapTx (State.withStatus · st e) s.closeTx := by
  unfold State.closeTx
  rw [inPhase_withStatus st e _ (postDelayPhase_withStatus st e), mapTx_bind]
  intro s
  rw [deselectPhase_withStatus, mapTx_bind]
  exact inPhase_withStatus st e _ (coolDownPhase_withStatus st e)

/-- A transaction neither reads nor writes `STATUS` and `ERRINFO`. -/
theorem transact_withStatus (s : State) (prof n : Nat) :
    (s.withStatus st e).transact prof n = mapTx (State.withStatus · st e) (s.transact prof n) := by
  unfold State.transact
  rw [show (s.withStatus st e).beginTx prof n = (s.beginTx prof n).withStatus st e from rfl, openTx_withStatus, mapTx_bind]
  intro s
  rw [payload_withStatus, mapTx_bind]
  exact closeTx_withStatus st e

/-- An operation's transaction ends the same whatever stood in `STATUS` and `ERRINFO`, if what follows a success does not look
at them. -/
theorem runTx_withStatus (s : State) (prof n : Nat) {after : State → State}
    (h : ∀ t : State, after (t.withStatus st e) = after t) :
    (s.withStatus st e).runTx prof n after = s.runTx prof n after := by
  unfold State.runTx
  rw [show (s.withStatus st e).busOpen = s.busOpen from rfl, transact_withStatus]
  split
  · rcases s.transact prof n with (⟨t, c⟩ | ⟨t, c⟩ | p) | t
    · rfl
    · rfl
    · rfl
    · exact congrArg Host.Outcome.next (h t)
  · rfl

end

end Sys2Proof.Machine
end

