-- ==== Sys2Proof/Laws/Whole.lean ====
section
/-! SUPPORT. The whole machine, said once: what an operation that runs no transaction can do, what any operation keeps, and that
no operation reads `STATUS` or `ERRINFO`. Claims over every step cite these. -/

namespace Sys2Proof.Machine

/-- Everything an operation that runs no transaction can do: it always ends; either at a launch check, with nothing else
changed, or having written at most `VAL`, `PHY` and, for PACK, the packed cells of the buffer; ENCCHK alone may draw a free
value. -/
theorem exec_local {s : State} {i : Instr} (h : txOf s i = none) :
    (∃ c, exec i s = .next (s.raiseConfig c) ∧ (s.raiseConfig c).status ∈ outcomes i) ∨
    ∃ v p off bs d st e, exec i s = .next { s with
        val := v, phy := p, buf := s.buf.writeCells off bs, draws := d, status := st, errinfo := e } ∧
      st ∈ outcomes i ∧ (st = 0 ∨ st = 0x010 ∨ st = 0x007) ∧ (statusErr st = false → e = 0) ∧
      (bs ≠ [] → off + bs.length ≤ s.cfg.bufsz) ∧
      ((∀ w o, i ≠ .pack w o) → bs = []) ∧ ((∀ c, i ≠ .udec c) → p = s.phy) ∧
      ((i = .nop ∨ (∃ w o, i = .pack w o) ∨ ∃ c, i = .udec c) → v = s.val) ∧
      (∀ w o, i = .pack w o →
        off = o ∧ bs = packBytes s.val w ∧ 1 ≤ w ∧ w ≤ 32 ∧ o + byteLength w ≤ s.cfg.bufsz) ∧
      ((∀ r, i ≠ .encchk r) → d = s.draws) := by
  cases i with
  | nop =>
    exact .inr ⟨s.val, s.phy, 0, [], s.draws, 0, 0, rfl, by simp [outcomes], by simp, by simp, by simp, by simp, by simp, by simp,
      by simp, by simp⟩
  | pack w off =>
    rcases s.launchWith_cases (s.codecChecks w off) _ with ⟨c, hc, hx⟩ | ⟨hp, hx⟩
    · refine .inl ⟨c, hx, ?_⟩
      have := firstFailure_mem hc
      simp only [State.codecChecks, List.mem_cons, Prod.mk.injEq, List.not_mem_nil, or_false] at this
      rcases this with ⟨-, rfl⟩ | ⟨-, rfl⟩ <;> simp [OpError.status_configuration, outcomes, CfgCause.code]
    · simp [State.codecChecks, State.inBuffer, legalWidth_iff] at hp
      exact .inr ⟨s.val, s.phy, off, packBytes s.val w, s.draws, 0, 0, hx, by simp [outcomes], by simp, by simp,
        fun _ => by simpa using hp.2, fun h => absurd rfl (h w off), fun _ => rfl, fun _ => rfl,
        by rintro _ _ ⟨⟩; exact ⟨rfl, rfl, hp.1.1, hp.1.2, hp.2⟩, fun _ => rfl⟩
  | unpack w off =>
    rcases s.launchWith_cases (s.codecChecks w off) _ with ⟨c, hc, hx⟩ | ⟨hp, hx⟩
    · refine .inl ⟨c, hx, ?_⟩
      have := firstFailure_mem hc
      simp only [State.codecChecks, List.mem_cons, Prod.mk.injEq, List.not_mem_nil, or_false] at this
      rcases this with ⟨-, rfl⟩ | ⟨-, rfl⟩ <;> simp [OpError.status_configuration, outcomes, CfgCause.code]
    · exact .inr ⟨_, s.phy, 0, [], s.draws, 0, 0, hx, by simp [outcomes], by simp, by simp, by simp, by simp, by simp, by simp,
      by simp, by simp⟩
  | unpacks w off =>
    rcases s.launchWith_cases (s.codecChecks w off) _ with ⟨c, hc, hx⟩ | ⟨hp, hx⟩
    · refine .inl ⟨c, hx, ?_⟩
      have := firstFailure_mem hc
      simp only [State.codecChecks, List.mem_cons, Prod.mk.injEq, List.not_mem_nil, or_false] at this
      rcases this with ⟨-, rfl⟩ | ⟨-, rfl⟩ <;> simp [OpError.status_configuration, outcomes, CfgCause.code]
    · exact .inr ⟨_, s.phy, 0, [], s.draws, 0, 0, hx, by simp [outcomes], by simp, by simp, by simp, by simp, by simp, by simp,
      by simp, by simp⟩
  | sext w =>
    rcases s.launchWith_cases (sextChecks w) _ with ⟨c, hc, hx⟩ | ⟨hp, hx⟩
    · refine .inl ⟨c, hx, ?_⟩
      have := firstFailure_mem hc
      simp only [sextChecks, List.mem_cons, Prod.mk.injEq, List.not_mem_nil, or_false] at this
      obtain ⟨-, rfl⟩ := this
      simp [OpError.status_configuration, outcomes, CfgCause.code]
    · exact .inr ⟨_, s.phy, 0, [], s.draws, 0, 0, hx, by simp [outcomes], by simp, by simp, by simp, by simp, by simp, by simp,
      by simp, by simp⟩
  | uenc k =>
    rcases s.launchWith_cases (s.convChecks k) _ with ⟨c, hc, hx⟩ | ⟨hp, hx⟩
    · refine .inl ⟨c, hx, ?_⟩
      have := firstFailure_mem hc
      simp only [State.convChecks, List.mem_cons, Prod.mk.injEq, List.not_mem_nil, or_false] at this
      rcases this with ⟨-, rfl⟩ | ⟨-, rfl⟩ | ⟨-, rfl⟩ | ⟨-, rfl⟩ <;> simp [OpError.status_configuration, outcomes, CfgCause.code]
    · exact .inr ⟨_, s.phy, 0, [], s.draws, _, 0, hx, by unfold statusDone; split <;> simp [outcomes],
        by unfold statusDone; split <;> simp, by simp, by simp, by simp,
        by simp, by simp, by simp, by simp⟩
  | udec k =>
    rcases s.launchWith_cases (s.convChecks k) _ with ⟨c, hc, hx⟩ | ⟨hp, hx⟩
    · refine .inl ⟨c, hx, ?_⟩
      have := firstFailure_mem hc
      simp only [State.convChecks, List.mem_cons, Prod.mk.injEq, List.not_mem_nil, or_false] at this
      rcases this with ⟨-, rfl⟩ | ⟨-, rfl⟩ | ⟨-, rfl⟩ | ⟨-, rfl⟩ <;> simp [OpError.status_configuration, outcomes, CfgCause.code]
    · exact .inr ⟨s.val, _, 0, [], s.draws, _, 0, hx, by unfold statusDone; split <;> simp [outcomes],
        by unfold statusDone; split <;> simp, by simp, by simp, by simp,
        fun h => absurd rfl (h k), by simp, by simp, by simp⟩
  | encchk r12 =>
    obtain ⟨v, d, st, e, hx, hst⟩ := s.encCheck_spec r12
    refine .inr ⟨v, s.phy, 0, [], d, st, e, by rw [exec, execEncchk, hx]; rfl, ?_, ?_, ?_, by simp, by simp, by simp, by simp,
      by simp, fun h => absurd rfl (h r12)⟩
    · rcases hst with ⟨rfl, -⟩ | rfl <;> simp [outcomes]
    · rcases hst with ⟨rfl, -⟩ | rfl <;> simp
    · rcases hst with ⟨-, rfl⟩ | rfl
      · simp
      · simp [statusErr]
  | exec _ _ _ => simp [txOf] at h
  | setp _ _ => simp [txOf] at h
  | getp _ _ => simp [txOf] at h
  | cmd _ _ _ _ => simp [txOf] at h
  | encrd _ _ => simp [txOf] at h

/-! ### No sleep of length 0 (R134) -/

theorem sleep_optSleep (n : Word) : Event.sleep 0 ∉ optSleep n := by
  unfold optSleep
  split
  · simp
  · rename_i h
    simpa using fun h' => h h'.symm

theorem sleep_openingEvents (p : Profile) (fa : XferAnswer) : Event.sleep 0 ∉ openingEvents p fa := by
  simpa [openingEvents] using sleep_optSleep p.ppre

theorem sleep_closingEvents (p : Profile) : Event.sleep 0 ∉ closingEvents p := by
  have h1 := sleep_optSleep p.ppost
  have h2 := sleep_optSleep p.pcool
  simp only [closingEvents, List.mem_append, List.mem_singleton, reduceCtorEq]
  tauto

theorem sleep_byteEvents (p : Profile) (h : p.pibd ≠ 0) : ∀ l, Event.sleep 0 ∉ byteEvents p l
  | [] => by simp [byteEvents]
  | [b] => by simp [byteEvents]
  | b :: c :: bs => by
      have := sleep_byteEvents p h (c :: bs)
      simp only [byteEvents, List.mem_append, List.mem_cons, reduceCtorEq, Event.sleep.injEq, List.not_mem_nil, or_false,
        false_or, not_or]
      exact ⟨fun e => h e.symm, this⟩

theorem sleep_payloadEvents (p : Profile) (tx rx : List Byte) : Event.sleep 0 ∉ payloadEvents p tx rx := by
  unfold payloadEvents
  split
  · simp
  · rename_i h
    exact sleep_byteEvents p h _

theorem sleep_failingEvents (p : Profile) (tx rx : List Byte) (e : Word) : Event.sleep 0 ∉ failingEvents p tx rx e := by
  unfold failingEvents
  split
  · simp
  · rename_i h
    simp only [sentEvents, List.mem_append, List.mem_flatMap, List.mem_cons, reduceCtorEq, Event.sleep.injEq,
      List.not_mem_nil, or_false, false_or, not_exists, not_and]
    exact fun _ _ e => h e.symm

/-! ### What every operation keeps -/

/-- What an operation leaves from `s` to `t`, whichever it is and however it ends. -/
structure OpKeeps (s t : State) (i : Instr) : Prop where
  cfg : t.cfg = s.cfg
  op : t.op = s.op
  csoe : t.csoe = s.csoe
  profs : t.profs = s.profs
  regspecs : t.regspecs = s.regspecs
  convs : t.convs = s.convs
  answer : t.answer = s.answer
  busOpen : t.busOpen = s.busOpen
  inputs : t.inputs = s.inputs
  resets : t.resets = s.resets
  phase : t.phase = .idle ∨ t.phase = s.phase
  lines : t.cslvl = s.cslvl ∨ ∃ k, k < s.cfg.nsel ∧ t.cslvl = setBit (setBit s.cslvl k false) k true
  trace : ∃ evs, t.trace = s.trace ++ evs ∧ Event.sleep 0 ∉ evs
  status : t.status ∈ outcomes i
  errinfo : statusErr t.status = false → t.errinfo = 0
  bufForm : s.buf.wf = true → t.buf.wf = true
  bufRange : s.buf.within s.cfg.bufsz = true → t.buf.within s.cfg.bufsz = true

/-- A configuration error sets `ERR`. -/
theorem statusErr_raiseConfig (s : State) (c : CfgCause) : statusErr (s.raiseConfig c).status = true := by
  rw [show (s.raiseConfig c).status = (OpError.configuration c s.op).status from rfl, OpError.status_configuration]
  cases c <;> simp [statusErr, CfgCause.code]

theorem OpKeeps.of_config {s : State} {i : Instr} {c : CfgCause} (h : (s.raiseConfig c).status ∈ outcomes i) :
    OpKeeps s (s.raiseConfig c) i where
  cfg := rfl
  op := rfl
  csoe := rfl
  profs := rfl
  regspecs := rfl
  convs := rfl
  answer := rfl
  busOpen := rfl
  inputs := rfl
  resets := rfl
  phase := .inr rfl
  lines := .inl rfl
  trace := ⟨[], by simp [State.raiseConfig, State.raise], by simp⟩
  status := h
  errinfo he := by rw [statusErr_raiseConfig] at he; cases he
  bufForm h := h
  bufRange h := h

/-- Every operation that goes on keeps these. -/
theorem exec_keeps {s t : State} {i : Instr} (hl : s.cfg.legal = true) (h : exec i s = .next t) : OpKeeps s t i := by
  cases htx : txOf s i with
  | none =>
    rcases exec_local htx with ⟨c, hx, ho⟩ | ⟨v, p, off, bs, d, st, e, hx, ho, -, he, hb, -⟩
    · rw [hx] at h
      cases h
      exact .of_config ho
    · rw [hx] at h
      cases h
      refine ⟨rfl, rfl, rfl, rfl, rfl, rfl, rfl, rfl, rfl, rfl, .inr rfl, (.inl rfl), ⟨[], by simp, by simp⟩, ho, he,
        Memory.wf_writeCells _ _ _, fun hw => ?_⟩
      rcases List.eq_nil_or_concat bs with rfl | ⟨l, b, rfl⟩
      · exact hw
      · exact Memory.within_writeCells _ _ _ _ (hb (by simp)) hw
  | some x =>
    obtain ⟨prof, tx⟩ := x
    rcases exec_tx_cases hl htx with ⟨c, hx, ho, -⟩ | ⟨hx, -⟩ | ⟨p, hx, -⟩ | ⟨bb, hbb, -, hrd, h1, h2, hx⟩
    · rw [hx] at h
      cases h
      exact .of_config ho
    · rw [hx] at h; cases h
    · rw [hx] at h; cases h
    have hform : s.buf.wf = true → bb.wf = true := by
      rcases hbb with rfl | rfl
      · exact id
      · exact Memory.wf_writeCells _ _ _
    have hrange : s.buf.within s.cfg.bufsz = true → bb.within s.cfg.bufsz = true := by
      rcases hbb with rfl | rfl
      · exact id
      · exact Memory.within_writeCells _ _ _ _ (by omega)
    have hmem : (0x003 : Word) ∈ outcomes i ∧ (0x005 : Word) ∈ outcomes i ∧ (0 : Word) ∈ outcomes i := by
      cases i <;> simp [txOf] at htx <;> simp [outcomes]
    rcases hx with ⟨e, b, d, cp, cl, ix, hx, -⟩ | ⟨fa, rx, wr, xs, e, c, bs, ts, d, cp, cl, ix, hx, -, -, hwr, hxs, -⟩ |
      ⟨fa, rx, bs, ts, d, cp, cl, ix, t', u, hx, ha, hu, -, hrx, -⟩
    · rw [hx] at h
      cases h
      exact ⟨rfl, rfl, rfl, rfl, rfl, rfl, rfl, rfl, rfl, rfl, .inl rfl, (.inl rfl), ⟨_, rfl, by simp⟩, hmem.1,
        by simp [statusErr], hform, hrange⟩
    · rw [hx] at h
      cases h
      refine ⟨rfl, rfl, rfl, rfl, rfl, rfl, rfl, rfl, rfl, rfl, .inl rfl, (.inr ⟨_, hrd.line, rfl⟩), ⟨_, rfl, ?_⟩, hmem.2.1,
        by simp [statusErr], fun hw => Memory.wf_writeCells _ _ _ (Memory.wf_writeCells _ _ _ (hform hw)),
        fun hw => Memory.within_writeCells _ _ _ _ (by omega) (Memory.within_writeCells _ _ _ _ (by omega) (hrange hw))⟩
      have := sleep_openingEvents (s.profAt prof) fa
      have := sleep_failingEvents (s.profAt prof) tx rx e
      simp only [List.mem_append, List.mem_singleton, reduceCtorEq]
      tauto
    · rw [hx] at h
      cases h
      obtain ⟨v, d', st, e, rfl, -, hst⟩ := ha.spec
      subst hu
      refine ⟨rfl, rfl, rfl, rfl, rfl, rfl, rfl, rfl, rfl, rfl, .inl rfl, (.inr ⟨_, hrd.line, rfl⟩), ⟨_, rfl, ?_⟩, ?_, ?_,
        fun hw => Memory.wf_writeCells _ _ _ (hform hw), fun hw => Memory.within_writeCells _ _ _ _ (by omega) (hrange hw)⟩
      · have := sleep_openingEvents (s.profAt prof) fa
        have := sleep_payloadEvents (s.profAt prof) tx rx
        have := sleep_closingEvents (s.profAt prof)
        simp only [List.mem_append]
        tauto
      · rcases hst with ⟨rfl, -⟩ | ⟨rfl, p, r12, rfl⟩
        · exact hmem.2.2
        · simp [outcomes]
      · rcases hst with ⟨rfl, rfl⟩ | ⟨rfl, -⟩
        · simp
        · simp [statusErr]

/-! ### Launching, and the host's other writes -/

/-- An operation is refused for one reason only: the bus is not open (R262). -/
theorem exec_refused {s : State} {i : Instr} {r : Refusal} (h : exec i s = .refused r) : r = .busNotOpen := by
  have hrun : ∀ (b : State) prof n after, b.runTx prof n after = .refused r → r = .busNotOpen := by
    intro b prof n after h
    unfold State.runTx finishTx at h
    split at h
    · split at h <;> cases h
    · cases h; rfl
  have hlaunch : ∀ l run, s.launchWith l run = .refused r → run = .refused r := by
    intro l run h
    rcases s.launchWith_cases l run with ⟨c, -, hx⟩ | ⟨-, hx⟩ <;> rw [hx] at h
    · cases h
    · exact h
  cases i with
  | nop => cases h
  | encchk r12 => cases h
  | exec p ib n => exact hrun _ _ _ _ (hlaunch _ _ h)
  | setp p k => exact hrun _ _ _ _ (hlaunch _ _ h)
  | getp p k => exact hrun _ _ _ _ (hlaunch _ _ h)
  | cmd p c d aw => exact hrun _ _ _ _ (hlaunch _ _ h)
  | encrd p r12 => exact hrun _ _ _ _ (hlaunch _ _ h)
  | pack w off => cases hlaunch _ _ h
  | unpack w off => cases hlaunch _ _ h
  | unpacks w off => cases hlaunch _ _ h
  | sext w => cases hlaunch _ _ h
  | uenc c => cases hlaunch _ _ h
  | udec c => cases hlaunch _ _ h

/-- So does a step that serves its input: the port refuses nothing in `IDLE`. -/
theorem serve_refused {s : State} {i : Input} {r : Refusal} (h : s.serve i = .refused r) : r = .busNotOpen := by
  cases i with
  | write off v =>
    simp only [State.serve, State.hostWrite] at h
    split at h
    · cases h
    · cases ho : s.launch v with
      | refused q =>
        rw [ho] at h
        cases h
        unfold State.launch at ho
        split at ho
        · exact exec_refused ho
        · cases ho
      | next t => rw [ho] at h; cases h
      | fault f => rw [ho] at h; cases h
    · cases h
  | read off => cases h
  | reset => cases h
  | busOpen l => cases h

/-- An acknowledged launch ended in a next state. -/
theorem ackLaunch_next {o : Host.Outcome State Fault Refusal} {t : State} (h : ackLaunch o = .next t) :
    ∃ u, o = .next u ∧ t = u.ack none := by
  unfold ackLaunch at h
  split at h
  · cases h
    exact ⟨_, rfl, rfl⟩
  · cases h
  · cases h

/-- What a launch that goes on is: an operation, or an illegal word. -/
theorem launch_cases {s t : State} {w : Word} (hl : s.cfg.legal = true) (h : s.launch w = .next t) :
    (∃ i, decode w = .ok i ∧ exec i { s with op := w } = .next t ∧ OpKeeps { s with op := w } t i) ∨
      ((∃ r, decode w = .error r) ∧ t = ({ s with op := w } : State).raiseConfig .badOp) := by
  unfold State.launch at h
  split at h
  · rename_i i hi
    exact .inl ⟨i, hi, h, exec_keeps (s := { s with op := w }) hl h⟩
  · rename_i r hr
    cases h
    exact .inr ⟨⟨r, hr⟩, rfl⟩

/-- Every tabulated outcome is a legal `STATUS`. -/
theorem legalStatus_of_outcomes (i : Instr) {st : Word} (h : st ∈ outcomes i) : legalStatus st = true := by
  cases i <;> simp only [outcomes, List.mem_cons, List.not_mem_nil, or_false] at h <;>
    rcases h with rfl | rfl | rfl | rfl | rfl | rfl | rfl <;> decide

/-- A select pulse on a line the block has leaves all lines high. -/
theorem allHigh_pair {n k : Nat} (hn : n ≤ 32) (hk : k < n) : setBit (setBit (allHigh n) k false) k true = allHigh n := by
  apply BitVec.eq_of_getLsbD_eq
  intro j hj
  rw [getLsbD_setBit_pair, getLsbD_allHigh _ _ hn]
  by_cases h : j = k
  · subst h; simp [hk]
  · simp [h]

/-- A profile entry after a write to entry `p`. -/
theorem getD_set {α : Type} (l : List α) (p q : Nat) (a d : α) :
    (l.set p a).getD q d = if p = q ∧ p < l.length then a else l.getD q d := by
  simp only [List.getD_eq_getElem?_getD, List.getElem?_set]
  by_cases h : p = q
  · subst h
    by_cases h2 : p < l.length
    · simp [h2]
    · simp [h2]
  · simp [h]

/-- What a host write to an uncommitted profile entry leaves: the entry, and on a commit the pad (R32, R33). -/
theorem writeProf_cases (s : State) (p : Nat) (w : ProfWord) (v : Word) :
    s.writeProf p w v = s ∨
    ∃ e, (s.profAt p).valid = false ∧
      ((e.valid = false ∧ s.writeProf p w v = { s with profs := s.profs.set p e }) ∨
       (e = { s.profAt p with valid := true } ∧
        s.writeProf p w v = ({ s with profs := s.profs.set p e } : State).padSetup (s.lineOf p))) := by
  unfold State.writeProf
  by_cases hv : (s.profAt p).valid = true
  · rw [if_pos hv]; exact .inl rfl
  rw [if_neg hv]
  have hf : (s.profAt p).valid = false := by simpa using hv
  refine .inr ⟨(s.profAt p).writeWord w v, hf, ?_⟩
  cases w
  case pctl =>
    cases hb : v.getLsbD 0
    · exact .inl ⟨hb, if_neg (by rw [commitsProfile, hb]; decide)⟩
    · exact .inr ⟨by rw [Profile.writeWord, hb], if_pos hb⟩
  all_goals exact .inl ⟨hf, rfl⟩

end Sys2Proof.Machine
end

