-- ==== Sys2Proof/Tests/Slice0.lean ====
section
/-! SUPPORT. The model's own tests: ill-formed terms the checks refuse, words written out bit by bit from the encodings of
30_encoding.md, single steps with the results 95_test_vectors.md gives (the row is named in each docstring), and for every
statement with hypotheses a state and operands that meet them. -/

namespace Sys2Proof.Tests

open Sys2Proof Sys2Proof.Machine

/-! ### Helpers -/

/-- The next state of an outcome, if it is one. -/
def nextOf (o : Host.Outcome State Fault Refusal) : Option State :=
  match o with
  | .next t => some t
  | .fault _ => none
  | .refused _ => none

/-- Whether an outcome is a next state that `p` accepts. -/
def nextHas (p : State → Bool) (o : Host.Outcome State Fault Refusal) : Bool :=
  match o with
  | .next t => p t
  | .fault _ => false
  | .refused _ => false

theorem nextHas_spec {p : State → Bool} {o : Host.Outcome State Fault Refusal} (h : nextHas p o = true) :
    ∃ t, o = .next t ∧ p t = true := by
  cases o with
  | next t => exact ⟨t, rfl, h⟩
  | fault f => cases h
  | refused r => cases h

/-- The instruction a word decodes to, or none. -/
def decoded (w : Word) : Option Instr := decodeTableWord 32 w.toNat

/-- The tables of 95_test_vectors.md sections 4, 5 and 7, committed, the bus open, and the frame of T1 in the buffer. -/
def bench : State :=
  { State.reset with
    busOpen := true
    csoe := 0x1B
    val := 0x000003FF
    phy := 0x00004E2000000000
    buf := [(0, 0x07), (1, 0x03), (2, 0xFF)]
    profs := [⟨0, 4000000, 3, 1, 0, 1, 1, true⟩, ⟨1, 2000000, 0, 3, 3, 3, 40, true⟩, ⟨9, 1, 0, 0, 0, 0, 0, true⟩,
      ⟨3, 1000000, 1, 0, 0, 0, 0, true⟩, ⟨4, 500000, 2, 0, 7, 0, 0, true⟩] ++ State.reset.profs.drop 5
    regspecs := [⟨0x01, 22, 3, true, true⟩, ⟨0x07, 10, 3, false, true⟩, ⟨0x19, 16, 1, false, true⟩,
      ⟨0x09, 8, 2, false, true⟩, ⟨0x0A, 0, 3, false, true⟩, ⟨0x0B, 8, 0, false, true⟩, ⟨0x0B, 40, 3, false, true⟩] ++
      State.reset.regspecs.drop 7
    convs := [⟨65536, 1000000, 10, 1, true⟩, ⟨65536, 1000000, 10, 2, true⟩, ⟨4, 1, 32, 0, true⟩, ⟨65536, 0, 10, 0, true⟩,
      ⟨1, 1, 0, 0, true⟩, ⟨1, 1, 10, 3, true⟩, ⟨1, 4294967295, 32, 0, true⟩] ++ State.reset.convs.drop 7 }

/-- `bench` with the environment's next answers. -/
def answering (l : List (Option Reply)) : State := { bench with busScript := l }

/-- The answers of T1. -/
def repliesT1 : List (Option Reply) := [some (.ok []), some (.ok [0xA0]), some (.ok [0xA1, 0xA2, 0xA3])]

/-- `s` with two bytes in `BUF[0..1]`. -/
def withFrame (s : State) (hi lo : Byte) : State := { s with buf := [(0, hi), (1, lo)] }

/-- `bench` about to serve the input `i`. -/
def serving (i : Input) : State := { bench with inputs := [i] }

/-- The outcome of the step that runs the word `w`. -/
def stepOn (s : State) (w : Nat) : Host.Outcome State Fault Refusal := step (s.withFetchWord 32 w)

/-! ### Well-formedness: a term each check refuses, and the greatest operands it accepts (R99) -/

theorem test_wf_refuses_index : [Instr.exec 256 false 1, .setp 256 0, .setp 0 256, .getp 256 0, .getp 0 256, .uenc 256,
    .udec 256, .cmd 256 0 false 0, .encrd 256 false, .pack 1 256, .unpack 1 256, .unpacks 1 256].all
    (fun i => !i.wf) = true := by decide

theorem test_wf_refuses_length : (Instr.exec 0 false 512).wf = false := by decide

theorem test_wf_refuses_width : [Instr.pack 64 0, .unpack 64 0, .unpacks 64 0, .sext 64, .cmd 0 0 false 64].all
    (fun i => !i.wf) = true := by decide

/-- The greatest operands of every form. -/
def extremes : List Instr :=
  [.nop, .exec 255 true 511, .pack 63 255, .unpack 63 255, .unpacks 63 255, .sext 63, .uenc 255, .udec 255, .setp 255 255,
    .getp 255 255, .cmd 255 0xFF true 63, .encrd 255 true, .encchk true]

theorem test_wf_accepts_extremes : extremes.all Instr.wf = true := by decide

/-! ### Decoding: words written bit by bit from R92 to R98 -/

/-- R92 -/
theorem test_decode_nop : decoded 0b0000_0000_0000_0000_0000_0000_0000_0000 = some .nop := by decide
/-- R93, X3: opc 0001, prof 1, ib (bit 9), len 3 -/
theorem test_decode_exec : decoded 0b0001_0000_00000001_000000_1_000000011 = some (.exec 1 true 3) := by decide
/-- R94, X6: w 10, off 1 -/
theorem test_decode_pack : decoded 0b0010_0000_00_001010_00000000_00000001 = some (.pack 10 1) := by decide
/-- R94, X8: w 12, off 0 -/
theorem test_decode_unpack : decoded 0b0010_0001_00_001100_00000000_00000000 = some (.unpack 12 0) := by decide
/-- R94, X9: w 22, off 1 -/
theorem test_decode_unpacks : decoded 0b0010_0010_00_010110_00000000_00000001 = some (.unpacks 22 1) := by decide
/-- R94, X10: w 22 -/
theorem test_decode_sext : decoded 0b0010_0011_00_010110_00000000_00000000 = some (.sext 22) := by decide
/-- R95, X11 with conv 5 -/
theorem test_decode_uenc : decoded 0b0011_0000_00000101_00000000_00000000 = some (.uenc 5) := by decide
/-- R95, X12: conv 3 -/
theorem test_decode_udec : decoded 0b0011_0001_00000011_00000000_00000000 = some (.udec 3) := by decide
/-- R96, X13: prof 0, reg 1 -/
theorem test_decode_setp : decoded 0b0100_0000_00000000_00000001_00000000 = some (.setp 0 1) := by decide
/-- R96, X15: prof 2, reg 31 -/
theorem test_decode_getp : decoded 0b0100_0001_00000010_00011111_00000000 = some (.getp 2 31) := by decide
/-- R97, X16: prof 0, cmd 0x50, dir (bit 7), aw 20 -/
theorem test_decode_cmd : decoded 0b0101_0000_00000000_01010000_1_0_010100 = some (.cmd 0 0x50 true 20) := by decide
/-- R98, X19: prof 1, r12 (bit 0) -/
theorem test_decode_encrd : decoded 0b0110_0000_00000001_000000000000000_1 = some (.encrd 1 true) := by decide
/-- R98, X20 -/
theorem test_decode_encchk : decoded 0b0110_0001_00000000_000000000000000_0 = some (.encchk false) := by decide

/-- The illegal words X22 to X35 (R101). -/
def illegalWords : List Word :=
  [0x70000000, 0xFFFFFFFF, 0x00000001, 0x10000400, 0x11000003, 0x24160000, 0x20400000, 0x23000001, 0x32000000, 0x30000001,
    0x40000101, 0x50005054, 0x61010000, 0x60010002]

theorem test_decode_refuses_illegal : illegalWords.all (fun w => (decoded w).isNone) = true := by decide

/-! ### Single steps -/

/-- T9 -/
theorem test_nop : nextHas (fun t => t.status = 0 ∧ t.errinfo = 0 ∧ t.op = 0 ∧ t.val = 0x3FF)
    (stepOn { bench with status := 5, errinfo := 5, op := 0x10000003 } 0x00000000) = true := by decide +kernel

/-- X22 -/
theorem test_illegal_word : nextHas (fun t => t.status = 0x509 ∧ t.errinfo = 0x70000000 ∧ t.op = 0x70000000)
    (stepOn bench 0x70000000) = true := by decide +kernel

/-- T1 -/
theorem test_exec_bulk : nextHas (fun t => t.status = 0 ∧ t.errinfo = 0 ∧ t.memRead 0 3 = [0xA1, 0xA2, 0xA3] ∧
      t.cslvl = 0xFF ∧ t.busstWord = 7 ∧ t.clkIdle = true ∧
      t.trace = [.modeSet 3 .ok, .xfer 3 4000000 [0x00] (.ok [0xA0]), .cs 0 false, .sleep 1,
        .xfer 3 4000000 [0x07, 0x03, 0xFF] (.ok [0xA1, 0xA2, 0xA3]), .sleep 1, .cs 0 true, .sleep 1])
    (stepOn (answering repliesT1) 0x10000003) = true := by decide +kernel

/-- T7 -/
theorem test_exec_per_byte_failure : nextHas (fun t => t.status = 5 ∧ t.errinfo = 9 ∧ t.cslvl = 0xFF ∧
      t.trace = [.modeSet 0 .ok, .xfer 0 2000000 [0x00] (.fail 7), .cs 1 false, .sleep 3,
        .xfer 0 2000000 [0x07] (.ok [0x44]), .sleep 3, .xfer 0 2000000 [0x03] (.fail 9), .cs 1 true])
    (stepOn (answering [some (.ok []), some (.fail 7), some (.ok [0x44]), some (.fail 9)]) 0x10010203) = true := by
  decide +kernel

/-- K6 at offset 1 -/
theorem test_pack : nextHas (fun t => t.status = 0 ∧ t.memRead 0 3 = [0x07, 0x56, 0x78])
    (stepOn { bench with val := 0x12345678 } 0x200C0001) = true := by decide +kernel

/-- K27 -/
theorem test_pack_range : nextHas (fun t => t.status = 0x409 ∧ t.errinfo = 0x2020000D ∧ t.buf = bench.buf)
    (stepOn bench 0x2020000D) = true := by decide +kernel

/-- K13 -/
theorem test_unpack : nextHas (fun t => t.status = 0 ∧ t.val = 0x00200001)
    (stepOn { bench with buf := [(0, 0xE0), (1, 0x00), (2, 0x01)] } 0x21160000) = true := by decide +kernel

/-- K29 -/
theorem test_unpack_range : nextHas (fun t => t.status = 0x409) (stepOn bench 0x21080010) = true := by decide +kernel

/-- K14 -/
theorem test_unpacks : nextHas (fun t => t.status = 0 ∧ t.val = 0xFFE00001)
    (stepOn { bench with buf := [(0, 0xE0), (1, 0x00), (2, 0x01)] } 0x22160000) = true := by decide +kernel

/-- K17 -/
theorem test_unpacks_full : nextHas (fun t => t.val = 0x80000000)
    (stepOn { bench with buf := [(0, 0x80), (1, 0), (2, 0), (3, 0)] } 0x22200000) = true := by decide +kernel

/-- K19 -/
theorem test_sext : nextHas (fun t => t.val = 0xFFFFFFFF) (stepOn { bench with val := 0x003FFFFF } 0x23160000) = true := by
  decide +kernel

/-- K24 -/
theorem test_sext_keeps : nextHas (fun t => t.val = 0xFF0000FF) (stepOn { bench with val := 0xFF0000FF } 0x23090000) = true := by
  decide +kernel

/-- U9 -/
theorem test_uenc_saturates : nextHas (fun t => t.val = 0x3FF ∧ t.status = 0x10) (stepOn bench 0x30000000) = true := by
  decide +kernel

/-- U15: above 2^W, no saturation under SUBHALF -/
theorem test_uenc_subhalf : nextHas (fun t => t.val = 0x3FF ∧ t.status = 0)
    (stepOn { bench with phy := 0x00003D1000000000 } 0x30010000) = true := by decide +kernel

/-- V1 -/
theorem test_udec : nextHas (fun t => t.phy = 0x000003EF14800000 ∧ t.status = 0) (stepOn { bench with val := 0x42 } 0x31000000)
    = true := by decide +kernel

/-- V13 -/
theorem test_udec_saturates : nextHas (fun t => t.phy = 0x7FFFFFFFFFFFFFFF ∧ t.status = 0x10)
    (stepOn { bench with val := 0xFFFFFFFF } 0x31060000) = true := by decide +kernel

/-- F1 -/
theorem test_setp : nextHas (fun t => t.status = 0 ∧ t.val = 0x3FF ∧ t.memRead 0 3 = [0xA1, 0xA2, 0xA3] ∧
      t.trace[4]? = some (.xfer 3 4000000 [0x07, 0x03, 0xFF] (.ok [0xA1, 0xA2, 0xA3])))
    (stepOn (answering repliesT1) 0x40000100) = true := by decide +kernel

/-- F7 -/
theorem test_setp_read_only : nextHas (fun t => t.status = 0x209 ∧ t.trace = []) (stepOn bench 0x40000200) = true := by
  decide +kernel

/-- F3 -/
theorem test_getp_signed : nextHas (fun t => t.status = 0 ∧ t.val = 0xFFFFFFFE ∧
      t.trace[4]? = some (.xfer 3 4000000 [0x21, 0, 0, 0] (.ok [0x00, 0x3F, 0xFF, 0xFE])))
    (stepOn (answering [some (.ok []), some (.ok [0xB0]), some (.ok [0x00, 0x3F, 0xFF, 0xFE])]) 0x41000000) = true := by
  decide +kernel

/-- F6 -/
theorem test_getp_unsigned : nextHas (fun t => t.val = 0x00007E03)
    (stepOn (answering [some (.ok []), some (.ok [0xB0]), some (.ok [0xAA, 0x7E, 0x03])]) 0x41000200) = true := by
  decide +kernel

/-- F16 -/
theorem test_cmd : nextHas (fun t => t.status = 0 ∧
      t.trace[4]? = some (.xfer 3 4000000 [0x51, 0x01, 0x23, 0x45] (.ok [1, 2, 3, 4])))
    (stepOn { answering [some (.ok []), some (.ok [0]), some (.ok [1, 2, 3, 4])] with val := 0x00012345 } 0x50005094)
    = true := by decide +kernel

/-- F18 -/
theorem test_cmd_bare : nextHas (fun t => t.status = 0 ∧ t.trace[4]? = some (.xfer 3 4000000 [0xB8] (.ok [9])))
    (stepOn (answering [some (.ok []), some (.ok [0]), some (.ok [9])]) 0x5000B800) = true := by decide +kernel

/-- P4 (c): the 12-bit position, per-byte -/
theorem test_encrd : nextHas (fun t => t.status = 0 ∧ t.val = 0x0000086A ∧ t.memRead 0 2 = [0x61, 0xAB] ∧ t.busstWord = 4)
    (stepOn (answering [some (.ok []), some (.ok [0xC0]), some (.ok [0x61]), some (.ok [0xAB])]) 0x60010001) = true := by
  decide +kernel

/-- P4 (b): the corrupted frame -/
theorem test_encrd_corrupted : nextHas (fun t => t.status = 7 ∧ t.errinfo = 0x000060AB ∧ t.trace.length = 10)
    (stepOn (answering [some (.ok []), some (.ok [0xC0]), some (.ok [0x60]), some (.ok [0xAB])]) 0x60010000) = true := by
  decide +kernel

/-- E7 -/
theorem test_encchk : nextHas (fun t => t.status = 0 ∧ t.val = 0x000004E4) (stepOn (withFrame bench 0x93 0x90) 0x61000001) = true := by
  decide +kernel

/-- E11 -/
theorem test_encchk_error : nextHas (fun t => t.status = 7 ∧ t.errinfo = 0x00009290) (stepOn (withFrame bench 0x92 0x90) 0x61000000)
    = true := by decide +kernel

/-! ### Host accesses (95_test_vectors.md section 9) -/

/-- H3 -/
theorem test_read_cap : nextHas (fun t => t.answer = some ⟨false, some 0x0F071F07⟩) (step (serving (.read 0x24))) = true := by
  decide +kernel

/-- H4 -/
theorem test_read_proto : nextHas (fun t => t.answer = some ⟨false, some 0x00012000⟩) (step (serving (.read 0x28))) = true := by
  decide +kernel

/-- H6 -/
theorem test_write_buf : nextHas (fun t => t.bufGet 2 = 0x78) (step (serving (.write 0x5008 0x12345678))) = true := by
  decide +kernel

/-- H7 -/
theorem test_locked_profile : nextHas (fun t => (t.profAt 0).ppre = 1 ∧ t.answer = some ⟨false, none⟩)
    (step (serving (.write 0x100C 9))) = true := by decide +kernel

/-- H11: the four offsets -/
theorem test_unmapped : [0x0002#16, 0x002C#16, 0x1100#16, 0x5040#16].all
    (fun o => nextHas (fun t => t.answer = some ⟨true, none⟩) (step (serving (.write o 1)))) = true := by decide +kernel

/-- H13, on profile 6 written to `PSEL` 5 before -/
theorem test_commit : nextHas (fun t => t.csoe = 0x3B ∧ t.cslvl = 0xFF ∧ t.trace = [.cs 5 true, .csDir 5] ∧ (t.profAt 6).valid = true)
    (step { serving (.write 0x10DC 1) with profs := bench.profs.set 6 ⟨5, 1, 0, 0, 0, 0, 0, false⟩ }) = true := by
  decide +kernel

/-! ### A witness for the hypotheses of every statement, by the order of the obligations -/

theorem bench_ready (p : Nat) (h : p ∈ [0, 1, 3, 4]) : Ready bench p :=
  ⟨by decide, (show ∀ p ∈ [0, 1, 3, 4], p < 8 by decide) p h,
    (show ∀ p ∈ [0, 1, 3, 4], (bench.profAt p).valid = true by decide) p h,
    (show ∀ p ∈ [0, 1, 3, 4], bench.lineOf p < 8 by decide) p h, rfl⟩

theorem answering_ready (l : List (Option Reply)) (p : Nat) (h : p ∈ [0, 1, 3, 4]) : Ready (answering l) p :=
  let r := bench_ready p h
  ⟨r.legal, r.index, r.valid, r.line, r.busOpen⟩

/-- One operation of each kind that runs a transaction, all launch checks met. -/
def launching : List Instr := [.exec 0 false 3, .exec 1 true 16, .setp 0 1, .getp 0 0, .cmd 3 0x50 true 32, .encrd 4 true]

theorem bench_launches (l : List (Option Reply)) : ∀ i ∈ launching, Launches (answering l) i := by
  have h (p : Nat) := answering_ready l p
  intro i hi
  simp only [launching, List.mem_cons, List.not_mem_nil, or_false] at hi
  rcases hi with rfl | rfl | rfl | rfl | rfl | rfl
  · exact ⟨h 0 (by decide), by decide, show 3 ≤ bench.cfg.bufsz by decide⟩
  · exact ⟨h 1 (by decide), by decide, show 16 ≤ bench.cfg.bufsz by decide⟩
  · exact ⟨h 0 (by decide), show 1 < bench.cfg.nreg by decide, show (bench.regAt 1).valid = true by decide,
      show (bench.regAt 1).acc = 2 ∨ (bench.regAt 1).acc = 3 by decide, show 1 ≤ (bench.regAt 1).width.toNat by decide,
      show (bench.regAt 1).width.toNat ≤ 32 by decide⟩
  · exact ⟨h 0 (by decide), show 0 < bench.cfg.nreg by decide, show (bench.regAt 0).valid = true by decide,
      show (bench.regAt 0).acc = 1 ∨ (bench.regAt 0).acc = 3 by decide, show 1 ≤ (bench.regAt 0).width.toNat by decide,
      show (bench.regAt 0).width.toNat ≤ 32 by decide⟩
  · exact ⟨h 3 (by decide), by decide⟩
  · exact h 4 (by decide)

theorem launching_runs : ∀ i ∈ launching, (txOf bench i).isSome = true := by decide

theorem silent_timer (l : List (Option Reply)) : TimerAnswers (answering l) := fun _ h => nomatch h

theorem witness_EncodeIsAssemblerWord : ∀ i ∈ extremes, i.wf = true := by decide

theorem witness_DecodeOfEncode : ∀ i ∈ extremes, i.wf = true := by decide

theorem witness_EncodeOfDecode : decode 0x10FF0300 = .ok (.exec 255 true 256) := by decide

theorem witness_OpcodeRowsAreDisjoint : rowEncchk ∈ opcodeMap ∧ rowEncchk.hits 0x61000001 = true := by decide

theorem witness_IllegalWordsRaiseBadOp :
    Serves (serving (.write 0 0x70000000)) (.write 0x0000 0x70000000) [] ∧ illegalWords.all illegalWord = true :=
  ⟨⟨rfl, rfl⟩, by decide +kernel⟩

theorem witness_StepRunsDecodedOperation :
    Serves (serving (.write 0 0x10FF0300)) (.write 0x0000 0x10FF0300) [] ∧ decode 0x10FF0300 = .ok (.exec 255 true 256) :=
  ⟨⟨rfl, rfl⟩, by decide⟩

/-- Each clause: a legal word, an illegal one, a read, a reset, and a write elsewhere. -/
theorem witness_OpHoldsLastWordWritten :
    bench.cfg.legal = true ∧
    ∀ i ∈ [Input.write 0x0000 0x2020000C, .write 0x0000 0x70000000, .read 0x0000, .reset, .write 0x0004 1],
      Serves (serving i) i [] ∧ ∃ t, step (serving i) = .next t := by
  refine ⟨by decide, fun i hi => ⟨⟨rfl, rfl⟩, ?_⟩⟩
  have h : nextHas (fun _ => true) (step (serving i)) = true := by
    simp only [List.mem_cons, List.not_mem_nil, or_false] at hi
    rcases hi with rfl | rfl | rfl | rfl | rfl <;> decide +kernel
  exact (nextHas_spec h).imp fun _ => And.left

theorem witness_NopClearsStatus : Serves (serving (.write 0 0)) (.write 0x0000 0x00000000) [] := ⟨rfl, rfl⟩

/-- A failed fixup, and the longest frame, byte by byte. -/
theorem witness_ExecTransfersPayload :
    (∃ s fa rx rest, Launches s (.exec 0 false 3) ∧ Answered s (s.profAt 0) fa rx rest ∧ rx.length = 3) ∧
    ∃ s fa rx rest, Launches s (.exec 1 true 16) ∧ Answered s (s.profAt 1) fa rx rest ∧ rx.length = 16 :=
  ⟨⟨answering repliesT1, .ok [0xA0], [0xA1, 0xA2, 0xA3], [], bench_launches _ _ (by decide),
      ⟨⟨[], rfl⟩, rfl, silent_timer _⟩, rfl⟩,
    answering (some (.ok []) :: some (.fail 7) :: List.replicate 16 (some (.ok [0x44]))), .fail 7,
      List.replicate 16 0x44, [], bench_launches _ _ (by decide), ⟨⟨[], rfl⟩, rfl, silent_timer _⟩, rfl⟩

/-- Each clause, with `PROF[2]` naming line 9 of 8, `PROF[5]` not committed. -/
theorem witness_ExecLaunchChecks :
    bench.cfg.nprof ≤ 8 ∧ (5 < bench.cfg.nprof ∧ (bench.profAt 5).valid = false) ∧
    (2 < bench.cfg.nprof ∧ (bench.profAt 2).valid = true ∧ bench.cfg.nsel ≤ bench.lineOf 2) ∧
    (0 < bench.cfg.nprof ∧ (bench.profAt 0).valid = true ∧ bench.lineOf 0 < bench.cfg.nsel ∧ bench.cfg.bufsz < 17) := by
  decide

theorem witness_TransactionTraceShape :
    (answering repliesT1).cfg.legal = true ∧ txOf (answering repliesT1) (.exec 0 false 3) = some (0, [0x07, 0x03, 0xFF]) ∧
    ∃ t, exec (.exec 0 false 3) (answering repliesT1) = .next t ∧ decide (statusKind t.status ≠ 4) = true :=
  ⟨by decide, by decide, nextHas_spec (by decide +kernel)⟩

theorem witness_ModeSetFailureEndsAtOnce :
    ∀ i ∈ launching, Launches (answering [some (.fail 19)]) i ∧ (txOf (answering [some (.fail 19)]) i).isSome = true :=
  fun i hi => ⟨bench_launches _ i hi, (show ∀ i ∈ launching, (txOf (answering [some (.fail 19)]) i).isSome = true by decide) i hi⟩

/-- T7: the second byte fails after a failed fixup. -/
theorem witness_PayloadFailureDeselects :
    ∃ s tx, Launches s (.exec 1 true 16) ∧ txOf s (.exec 1 true 16) = some (1, tx) ∧ fixupLegal (.fail 7) = true ∧
      [0x44#8].length < tx.length ∧ TimerAnswers s ∧
      s.busScript = some (.ok []) :: some (fixupReply (.fail 7)) :: (failingReplies (s.profAt 1) [0x44] 9 ++ []) :=
  ⟨answering [some (.ok []), some (.fail 7), some (.ok [0x44]), some (.fail 9)], _, bench_launches _ _ (by decide), rfl, rfl,
    by decide, silent_timer _, rfl⟩

theorem witness_TransactionTerminates :
    ∀ i ∈ launching, Launches (answering repliesT1) i ∧ none ∉ (answering repliesT1).busScript ∧
      TimerAnswers (answering repliesT1) :=
  fun i hi => ⟨bench_launches _ i hi, by decide, silent_timer _⟩

theorem witness_OnlyEnvironmentStopsAnOperation :
    bench.cfg.legal = true ∧ ∀ i ∈ launching, Launches (answering [none]) i ∧ Launches (answering [some (.ok []), none]) i :=
  ⟨by decide, fun i hi => ⟨bench_launches _ i hi, bench_launches _ i hi⟩⟩

theorem witness_TransactionFrame :
    ∃ t, exec (.encrd 4 true) (answering [some (.fail 19)]) = .next t ∧
      decide (bench.cfg.legal = true ∧ (txOf bench (.encrd 4 true)).isSome = true) = true :=
  nextHas_spec (by decide +kernel)

/-- A state in every phase, with the profile that leads to it. -/
def inPhaseOf (p : Phase) (prof : Nat) (l : List (Option Reply)) : State :=
  { (answering l).beginTx prof 3 with phase := p }

/-- Whether a transition goes on. -/
def goesOn (r : Except TxStop State) : Bool :=
  match r with
  | .ok _ => true
  | .error _ => false

theorem goesOn_spec {r : Except TxStop State} (h : goesOn r = true) : ∃ t, r = .ok t := by
  cases r with
  | ok t => exact ⟨t, rfl⟩
  | error e => cases h

theorem witness_SequencerTransitions :
    (∀ p ∈ [Phase.idle, .modeSet, .fixup, .select, .preDelay, .xfer, .ibDelay, .postDelay, .deselect, .coolDown, .abort],
      ∃ t, (inPhaseOf p 1 [some (.ok [1])]).seqStep = .ok t) ∧
    (∃ t e, (inPhaseOf .modeSet 1 [some (.fail 19)]).seqStep = .error (.modeSetFailed t e)) ∧
    ∃ t e, (inPhaseOf .xfer 1 [some (.fail 9)]).seqStep = .error (.aborting t e) := by
  refine ⟨fun p hp => goesOn_spec ?_, ⟨_, _, rfl⟩, ⟨_, _, rfl⟩⟩
  revert p
  decide +kernel

theorem witness_TransactIsSequencerRun :
    (1 ≤ 1 ∧ 511 < 512) ∧ ∃ t, (answering repliesT1).transact 0 3 = .ok t :=
  ⟨by decide, goesOn_spec (by decide +kernel)⟩

theorem witness_FixupSetsClockBeforeSelect :
    ∃ t, (inPhaseOf .fixup 0 [some (.ok [0xA0])]).seqStep = .ok t := goesOn_spec (by decide +kernel)

theorem bench_lines (j : Nat) (h : j < bench.cfg.nsel) : bench.cslvl.getLsbD j = true :=
  (show ∀ j < 8, bench.cslvl.getLsbD j = true by decide) j h

/-- In a quiet phase with every line high, and in `XFER` with line 0 low. -/
theorem witness_SelectLinesStayExclusive :
    (∀ j, j < bench.cfg.nsel → bench.cslvl.getLsbD j = true) ∧ bench.cfg.nsel ≤ 32 ∧
    LinesOk (inPhaseOf .fixup 0 [some (.ok [0xA0])]) ∧ LinesOk { inPhaseOf .xfer 0 repliesT1 with cslvl := 0xFE } ∧
    (∃ t, ({ inPhaseOf .xfer 0 repliesT1 with cslvl := 0xFE } : State).seqStep = .ok t) :=
  ⟨bench_lines, by decide, fun j h _ => bench_lines j h,
    fun j h hq => (show ∀ j < 8, (Phase.xfer.quiet = true ∨ j ≠ 0) → (0xFE#32).getLsbD j = true by decide) j h hq,
    goesOn_spec (by decide +kernel)⟩

/-- The least and the greatest width. -/
theorem witness_PackEmitsBytesMostSignificantFirst :
    (1 ≤ 1 ∧ 1 ≤ 32) ∧ (1 ≤ 32 ∧ 32 ≤ 32) ∧ byteLength 25 = byteLength 32 := by decide

/-- The last cells of the buffer: 32 bits at 12, 1 bit at 15. -/
theorem bench_codec : (1 ≤ 32 ∧ 32 ≤ 32 ∧ 12 + byteLength 32 ≤ bench.cfg.bufsz) ∧
    (1 ≤ 1 ∧ 1 ≤ 32 ∧ 15 + byteLength 1 ≤ bench.cfg.bufsz) := by decide

theorem witness_PackWritesPackedBytes : 1 ≤ 32 ∧ 32 ≤ 32 ∧ 12 + byteLength 32 ≤ bench.cfg.bufsz := bench_codec.1

theorem witness_UnpackLoadsMaskedValue : 1 ≤ 1 ∧ 1 ≤ 32 ∧ 15 + byteLength 1 ≤ bench.cfg.bufsz := bench_codec.2

theorem witness_UnpacksLoadsSignedValue : 1 ≤ 32 ∧ 32 ≤ 32 ∧ 12 + byteLength 32 ≤ bench.cfg.bufsz := bench_codec.1

theorem witness_SextOrsSignBits : (1 ≤ 1 ∧ 1 ≤ 32) ∧ 1 ≤ 32 ∧ 32 ≤ 32 := by decide

/-- K25, K26 and K27. -/
theorem witness_CodecLaunchChecks : ((33 = 0 ∨ 32 < 33) ∧ (0 = 0 ∨ 32 < 0)) ∧
    1 ≤ 32 ∧ 32 ≤ 32 ∧ bench.cfg.bufsz < 13 + byteLength 32 := by decide

theorem witness_SilentTruncation :
    (1 ≤ 1 ∧ 1 ≤ 32) ∧ ∀ i ∈ [Instr.pack 32 12, .unpack 32 12, .unpacks 32 12, .sext 32], ∃ t, exec i bench = .next t := by
  refine ⟨by decide, fun i hi => ?_⟩
  have h : nextHas (fun _ => true) (exec i bench) = true := by
    simp only [List.mem_cons, List.not_mem_nil, or_false] at hi
    rcases hi with rfl | rfl | rfl | rfl <;> decide +kernel
  exact (nextHas_spec h).imp fun _ => And.left

/-- The greatest unsigned 10-bit value, and the least signed one of 22 bits (K9). -/
theorem witness_CodecRoundTrip :
    (1 ≤ 10 ∧ 10 ≤ 32 ∧ 14 + byteLength 10 ≤ bench.cfg.bufsz ∧ bench.val.toNat < 2 ^ 10) ∧
    (1 ≤ 22 ∧ 22 ≤ 32 ∧ 13 + byteLength 22 ≤ bench.cfg.bufsz ∧ -(2 ^ (22 - 1) : Int) ≤ (0xFFE00000#32).toInt ∧
      (0xFFE00000#32).toInt < 2 ^ (22 - 1)) := by decide

theorem witness_UnpacksIsUnpackThenSext :
    (1 ≤ 32 ∧ 32 ≤ 32 ∧ 12 + byteLength 32 ≤ bench.cfg.bufsz) ∧
    ¬ (1 ≤ 32 ∧ 32 ≤ 32 ∧ 13 + byteLength 32 ≤ bench.cfg.bufsz) := by decide

/-- Entries 0 (CEIL), 1 (SUBHALF), 2 (TRUNC, 32 bits) and 6. -/
theorem bench_convertible (c : Nat) (h : c ∈ [0, 1, 2, 6]) : Convertible bench c :=
  ⟨(show ∀ c ∈ [0, 1, 2, 6], c < 8 by decide) c h,
    (show ∀ c ∈ [0, 1, 2, 6], (bench.convAt c).valid = true by decide) c h,
    (show ∀ c ∈ [0, 1, 2, 6], 1 ≤ (bench.convAt c).width.toNat by decide) c h,
    (show ∀ c ∈ [0, 1, 2, 6], (bench.convAt c).width.toNat ≤ 32 by decide) c h,
    (show ∀ c ∈ [0, 1, 2, 6], (bench.convAt c).csn ≠ 0 by decide) c h,
    (show ∀ c ∈ [0, 1, 2, 6], (bench.convAt c).csd ≠ 0 by decide) c h,
    (show ∀ c ∈ [0, 1, 2, 6], (bench.convAt c).rnd ≠ 3 by decide) c h⟩

theorem witness_UencEncodesAndSaturates : Convertible bench 0 ∧ Convertible bench 2 :=
  ⟨bench_convertible 0 (by decide), bench_convertible 2 (by decide)⟩

theorem witness_UdecDividesAndFloors : Convertible bench 0 ∧ Convertible bench 6 :=
  ⟨bench_convertible 0 (by decide), bench_convertible 6 (by decide)⟩

/-- V14, V15, V19, V16, V18; a width of 32 and a scale of 0 is the boundary of the last clause. -/
theorem witness_ConverterLaunchChecks :
    bench.cfg.nconv ≤ 8 ∧ (7 < bench.cfg.nconv ∧ (bench.convAt 7).valid = false) ∧
    ((bench.convAt 4).valid = true ∧ (bench.convAt 4).width = 0) ∧
    ((bench.convAt 3).valid = true ∧ (bench.convAt 3).width ≠ 0 ∧ (bench.convAt 3).width.toNat ≤ 32 ∧
      (bench.convAt 3).csd = 0) ∧
    ((bench.convAt 5).valid = true ∧ (bench.convAt 5).width ≠ 0 ∧ (bench.convAt 5).width.toNat ≤ 32 ∧
      (bench.convAt 5).rnd = 3) := by decide

theorem runs_of_next {i : Instr} {s : State} (h : nextHas (fun _ => true) (exec i s) = true) : ∃ t, exec i s = .next t :=
  (nextHas_spec h).imp fun _ => And.left

/-- The quantities -1 (R178 (b)), 22 under SUBHALF (c), 1/100 under CEIL (d), and 2^30 with factor 4, that is y = 2^32 (f, h). -/
theorem witness_UencCornerCases :
    (Convertible { bench with phy := 0xFFFFFFFF00000000 } 0 ∧ (0xFFFFFFFF00000000#64).toInt < 0 ∧
      ∃ t, exec (.uenc 0) { bench with phy := 0xFFFFFFFF00000000 } = .next t) ∧
    (Convertible { bench with phy := 0x0000001600000000 } 1 ∧ (bench.convAt 1).rnd = 2 ∧
      scaledQuantity { bench with phy := 0x0000001600000000 } 1 < 3 / 2 ∧
      ∃ t, exec (.uenc 1) { bench with phy := 0x0000001600000000 } = .next t) ∧
    (Convertible { bench with phy := 0x00000000028F5C28 } 0 ∧ (bench.convAt 0).rnd = 1 ∧
      0 < scaledQuantity { bench with phy := 0x00000000028F5C28 } 0) ∧
    (Convertible { bench with phy := 0x4000000000000000 } 2 ∧ (bench.convAt 2).width = 32 ∧
      scaledQuantity { bench with phy := 0x4000000000000000 } 2 = 2 ^ (bench.convAt 2).width.toNat ∧
      ∃ t, exec (.uenc 2) { bench with phy := 0x4000000000000000 } = .next t ∧ statusSat t.status = true) ∧
    (Convertible { bench with phy := 0x0000000040000000 } 2 ∧
      scaledQuantity { bench with phy := 0x0000000040000000 } 2 = (1 : Nat)) := by
  have c (p : BitVec 64) (k : Nat) (h : k ∈ [0, 1, 2, 6]) : Convertible { bench with phy := p } k :=
    let r := bench_convertible k h
    ⟨r.index, r.valid, r.low, r.high, r.csn, r.csd, r.rnd⟩
  have q (p : BitVec 64) (k : Nat) : scaledQuantity { bench with phy := p } k =
      ((p.toInt : ℚ) / 2 ^ 32) * ((bench.convAt k).csn.toNat : ℚ) / ((bench.convAt k).csd.toNat : ℚ) := rfl
  have e0 : (bench.convAt 0).csn.toNat = 65536 ∧ (bench.convAt 0).csd.toNat = 1000000 := by decide
  have e1 : (bench.convAt 1).csn.toNat = 65536 ∧ (bench.convAt 1).csd.toNat = 1000000 := by decide
  have e2 : (bench.convAt 2).csn.toNat = 4 ∧ (bench.convAt 2).csd.toNat = 1 ∧ (bench.convAt 2).width.toNat = 32 := by decide
  refine ⟨⟨c _ 0 (by decide), by decide, runs_of_next (by decide +kernel)⟩,
    ⟨c _ 1 (by decide), by decide, ?_, runs_of_next (by decide +kernel)⟩,
    ⟨c _ 0 (by decide), by decide, ?_⟩,
    ⟨c _ 2 (by decide), by decide, ?_, nextHas_spec (by decide +kernel)⟩, c _ 2 (by decide), ?_⟩
  · rw [q, e1.1, e1.2, show (0x0000001600000000 : BitVec 64).toInt = 94489280512 by decide]; norm_num
  · rw [q, e0.1, e0.2, show (0x00000000028F5C28 : BitVec 64).toInt = 42949672 by decide]; norm_num
  · rw [q, e2.1, e2.2.1, e2.2.2, show (0x4000000000000000 : BitVec 64).toInt = 4611686018427387904 by decide]; norm_num
  · rw [q, e2.1, e2.2.1, show (0x0000000040000000 : BitVec 64).toInt = 1073741824 by decide]; norm_num

theorem witness_SetpSendsPackedValue :
    ∃ s fa rx rest, Launches s (.setp 0 1) ∧ Answered s (s.profAt 0) fa rx rest ∧
      rx.length = 1 + byteLength (s.regAt 1).width.toNat :=
  ⟨answering repliesT1, .ok [0xA0], [0xA1, 0xA2, 0xA3], [], bench_launches _ _ (by decide),
    ⟨⟨[], rfl⟩, rfl, silent_timer _⟩, rfl⟩

/-- F3: the signed register with a negative answer. -/
theorem witness_GetpReturnsResponse :
    ∃ s fa b rx rest, Launches s (.getp 0 0) ∧ Answered s (s.profAt 0) fa (b :: rx) rest ∧
      rx.length = byteLength (s.regAt 0).width.toNat ∧ (s.regAt 0).sgn = true ∧
      2 ^ ((s.regAt 0).width.toNat - 1) ≤ bigEndian rx % 2 ^ (s.regAt 0).width.toNat :=
  ⟨answering [some (.ok []), some (.ok [0xB0]), some (.ok [0x00, 0x3F, 0xFF, 0xFE])], .ok [0xB0], 0x00, [0x3F, 0xFF, 0xFE], [],
    bench_launches _ _ (by decide), ⟨⟨[], rfl⟩, rfl, silent_timer _⟩, rfl, rfl, by decide⟩

/-- The widest argument, and none. -/
theorem witness_CmdSendsCommandAndArgument :
    (∃ s fa rx rest, Launches s (.cmd 3 0x50 true 32) ∧ Answered s (s.profAt 3) fa rx rest ∧
      rx.length = 1 + (if 32 = 0 then 0 else byteLength 32)) ∧
    ∃ s fa rx rest, Launches s (.cmd 3 0xB8 false 0) ∧ Answered s (s.profAt 3) fa rx rest ∧
      rx.length = 1 + (if 0 = 0 then 0 else byteLength 0) :=
  ⟨⟨answering [some (.ok []), some (.fail 1), some (.ok [1, 2, 3, 4, 5])], .fail 1, [1, 2, 3, 4, 5], [],
      bench_launches _ _ (by decide), ⟨⟨[], rfl⟩, rfl, silent_timer _⟩, rfl⟩,
    answering [some (.ok []), some (.fail 1), some (.ok [9])], .fail 1, [9], [],
      ⟨answering_ready _ 3 (by decide), by decide⟩, ⟨⟨[], rfl⟩, rfl, silent_timer _⟩, rfl⟩

/-- Each clause in turn: F15, F14, F13, F12, `PSEL` 9 of 8 lines, F7, F9 and F11. -/
theorem witness_RegisterLaunchChecks :
    bench.cfg.nprof ≤ 8 ∧ (7 < bench.cfg.nprof ∧ bench.cfg.nreg ≤ 32) ∧
    ((bench.profAt 5).valid = false ∧ 31 < bench.cfg.nreg) ∧
    ((bench.profAt 0).valid = true ∧ (bench.regAt 7).valid = false) ∧
    ((bench.profAt 2).valid = true ∧ (bench.regAt 1).valid = true ∧ bench.cfg.nsel ≤ bench.lineOf 2) ∧
    (bench.lineOf 0 < bench.cfg.nsel ∧ (bench.regAt 2).valid = true ∧ (bench.regAt 2).acc = 1) ∧
    ((bench.regAt 3).valid = true ∧ (bench.regAt 3).acc = 2) ∧ ((bench.regAt 5).valid = true ∧ (bench.regAt 5).acc = 0) ∧
    ((bench.regAt 4).valid = true ∧ (bench.regAt 4).acc = 3 ∧ (bench.regAt 4).width = 0) ∧
    ((bench.regAt 6).valid = true ∧ (bench.regAt 6).acc = 3 ∧ 32 < (bench.regAt 6).width.toNat) := by decide

theorem witness_CmdAndEncrdLaunchChecks :
    bench.cfg.nprof ≤ 8 ∧ (7 < bench.cfg.nprof ∧ (bench.profAt 7).valid = false) ∧
    ((bench.profAt 2).valid = true ∧ bench.cfg.nsel ≤ bench.lineOf 2) ∧
    ((bench.profAt 4).valid = true ∧ bench.lineOf 4 < bench.cfg.nsel ∧ 32 < 33) := by decide

theorem witness_CommandIsPackThenExec :
    bench.cfg.legal = true ∧ 0 < bench.cfg.nprof ∧ (bench.profAt 0).valid = true ∧ bench.lineOf 0 < bench.cfg.nsel ∧
      1 ≤ 32 ∧ 32 ≤ 32 := by decide

/-- P4: the good frame and the corrupted one. -/
theorem witness_EncrdReturnsPosition :
    (∃ s fa hi lo rest, Launches s (.encrd 4 true) ∧ Answered s (s.profAt 4) fa [hi, lo] rest ∧
      framePasses s.cfg.kbitOrder hi lo = true) ∧
    ∃ s fa hi lo rest, Launches s (.encrd 4 true) ∧ Answered s (s.profAt 4) fa [hi, lo] rest ∧
      framePasses s.cfg.kbitOrder hi lo = false :=
  ⟨⟨answering [some (.ok []), some (.ok [0xC0]), some (.ok [0x61]), some (.ok [0xAB])], .ok [0xC0], 0x61, 0xAB, [],
      bench_launches _ _ (by decide), ⟨⟨[], rfl⟩, rfl, silent_timer _⟩, by decide⟩,
    answering [some (.ok []), some (.ok [0xC0]), some (.ok [0x60]), some (.ok [0xAB])], .ok [0xC0], 0x60, 0xAB, [],
      bench_launches _ _ (by decide), ⟨⟨[], rfl⟩, rfl, silent_timer _⟩, by decide⟩

/-- E5 and E16. -/
theorem witness_EncchkValidatesParity :
    framePasses bench.cfg.kbitOrder 0x3F 0xFF = true ∧ framePasses bench.cfg.kbitOrder 0xFF 0xFF = false := by decide

/-- E7 with its top bit flipped (E9), with two data bits of one comparison flipped (E14), and with the parity bit k1 and an odd
data bit, k0 and an even one. -/
theorem witness_SingleBitErrorsAreCaught :
    (∃ u, exec (.encchk false) (withFrame bench 0x93 0x90) = .next u ∧ decide (u.status = 0) = true) ∧
    (withFrame bench 0x13 0x90).cfg = (withFrame bench 0x93 0x90).cfg ∧
    (withFrame bench 0x13 0x90).encoderFrame = (withFrame bench 0x93 0x90).encoderFrame ^^^ (1#16 <<< 15) ∧
    (withFrame bench 0x93 0x95).encoderFrame = (withFrame bench 0x93 0x90).encoderFrame ^^^ (1#16 <<< 0) ^^^ (1#16 <<< 2) ∧
    (withFrame bench 0x33 0x90).encoderFrame = (withFrame bench 0x93 0x90).encoderFrame ^^^ (1#16 <<< 15) ^^^ (1#16 <<< 13) ∧
    (withFrame bench 0xD3 0x91).encoderFrame = (withFrame bench 0x93 0x90).encoderFrame ^^^ (1#16 <<< 14) ^^^ (1#16 <<< 0) ∧
    entersOdd .k1High 15 = entersOdd .k1High 13 ∧ entersOdd .k1High 14 = entersOdd .k1High 0 ∧
    entersOdd .k0High 14 = entersOdd .k0High 13 ∧ entersOdd .k0High 15 = entersOdd .k0High 0 :=
  ⟨nextHas_spec (by decide +kernel), rfl, by decide, by decide, by decide, by decide, by decide, by decide, by decide,
    by decide⟩

theorem witness_EncoderExamples :
    (withFrame bench 0xC0 0x00).bufGet 0 = 0xC0 ∧ (withFrame bench 0xC0 0x00).bufGet 1 = 0x00 ∧
    (withFrame bench 0x53 0x90).cfg.kbitOrder = .k1High ∧ (withFrame bench 0x53 0x90).bufGet 0 = 0x53 ∧
    (withFrame bench 0x53 0x90).bufGet 1 = 0x90 ∧
    ({ bench with cfg := { bench.cfg with kbitOrder := .k0High } } : State).cfg.kbitOrder = .k0High := by decide

theorem witness_ConfigurationErrorChangesNothingElse :
    bench.cfg.legal = true ∧ ∃ t, exec (.encrd 2 false) bench = .next t ∧ decide (statusKind t.status = 4) = true :=
  ⟨by decide, nextHas_spec (by decide +kernel)⟩

theorem witness_OperationsEndAsTabulated :
    bench.cfg.legal = true ∧ ∀ i ∈ extremes, ∃ t, exec i bench = .next t := by
  refine ⟨by decide, fun i hi => ?_⟩
  have h : nextHas (fun _ => true) (exec i bench) = true := by
    simp only [extremes, List.mem_cons, List.not_mem_nil, or_false] at hi
    rcases hi with rfl | rfl | rfl | rfl | rfl | rfl | rfl | rfl | rfl | rfl | rfl | rfl | rfl <;> decide +kernel
  exact runs_of_next h

/-- PACK at the end of the buffer, and past it. -/
theorem witness_NonBusOperationsFrame :
    ∀ i ∈ [Instr.nop, .pack 32 12, .pack 32 13, .unpack 1 15, .unpacks 22 0, .sext 32, .uenc 0, .udec 6, .encchk true],
      txOf bench i = none ∧ ∃ t, exec i bench = .next t := by
  intro i hi
  have h : nextHas (fun _ => decide (txOf bench i = none)) (exec i bench) = true := by
    simp only [List.mem_cons, List.not_mem_nil, or_false] at hi
    rcases hi with rfl | rfl | rfl | rfl | rfl | rfl | rfl | rfl | rfl <;> decide +kernel
  obtain ⟨t, ht, hp⟩ := nextHas_spec h
  exact ⟨of_decide_eq_true hp, t, ht⟩

/-- `bench` about to run T1. -/
def running : State := { serving (.write 0 0x10000003) with busScript := repliesT1 }

theorem running_inv : Inv running where
  legal := by decide
  idle := rfl
  lines := by decide
  pads := by decide
  committed p h hl := by
    rcases Nat.lt_or_ge p 8 with hp | hp
    · exact (show ∀ p < 8, (running.profAt p).valid = true → running.lineOf p < running.cfg.nsel →
        running.csoe.getLsbD (running.lineOf p) = true by decide) p hp h hl
    · rw [State.profAt, List.getD_eq_default _ _ (show running.profs.length ≤ p from hp)] at h
      cases h
  nprofs := by decide
  nregs := by decide
  nconvs := by decide
  bufForm := by decide
  bufRange := by decide
  status := by decide
  sleeps := by decide

theorem witness_StepKeepsInvariant :
    Inv running ∧ ∃ t, step running = .next t ∧ decide (t.status = 0 ∧ t.trace.length = 8) = true :=
  ⟨running_inv, nextHas_spec (by decide +kernel)⟩

/-- A write to an entry of each table that is committed. -/
theorem witness_CommittedEntriesAreLocked :
    bench.cfg.legal = true ∧ (bench.profAt 0).valid = true ∧ (bench.regAt 0).valid = true ∧ (bench.convAt 0).valid = true ∧
    [0x100C#16, 0x3000#16, 0x4008#16].all (fun o =>
      nextHas (fun t => decide (t.resets = bench.resets)) (step (serving (.write o 9)))) = true :=
  ⟨by decide, by decide, by decide, by decide, by decide +kernel⟩

theorem witness_StatusWrittenOnlyByOperations :
    bench.cfg.legal = true ∧
    ∀ i ∈ [Input.write 0x0000 0x2020000C, .write 0x0004 1, .read 0x0004], Serves (serving i) i [] ∧
      nextHas (fun _ => true) (step (serving i)) = true :=
  ⟨by decide, fun i hi => ⟨⟨rfl, rfl⟩, by
    simp only [List.mem_cons, List.not_mem_nil, or_false] at hi
    rcases hi with rfl | rfl | rfl <;> decide +kernel⟩⟩

theorem witness_TraceOnlyGrows :
    bench.cfg.legal = true ∧ nextHas (fun t => decide (t.resets = bench.resets ∧ t.trace.length = 8))
      (step running) = true := ⟨by decide, by decide +kernel⟩

/-- H11 beside the last word of each region of the map. -/
theorem witness_UnmappedAccessIsRefused :
    bench.cfg.legal = true ∧ (∀ i, Serves (serving i) i []) ∧
    (∀ o ∈ [0x0002, 0x002C, 0x1100, 0x3080, 0x4080, 0x5040], mappedOffset bench.cfg o = false) ∧
    (∀ o ∈ [0x0028, 0x10FC, 0x307C, 0x407C, 0x503C], mappedOffset bench.cfg o = true) :=
  ⟨by decide, fun _ => ⟨rfl, rfl⟩, by decide, by decide⟩

/-- The last access was a read that was not refused. -/
def readAnswered (t : State) : Bool :=
  match t.answer with
  | some ⟨false, some _⟩ => true
  | _ => false

/-- A read at the first and the last offset of each region is answered. -/
theorem witness_HostReadsReturnRegisters :
    bench.cfg.legal = true ∧ (∀ i, Serves (serving i) i []) ∧
    [0x0000#16, 0x0004#16, 0x0008#16, 0x000C#16, 0x0010#16, 0x0014#16, 0x0018#16, 0x001C#16, 0x0020#16, 0x0024#16,
      0x0028#16, 0x1000#16, 0x10FC#16, 0x3000#16, 0x307C#16, 0x4000#16, 0x407C#16, 0x5000#16, 0x503C#16].all (fun o =>
      nextHas readAnswered (step (serving (.read o)))) = true :=
  ⟨by decide, fun _ => ⟨rfl, rfl⟩, by decide +kernel⟩

theorem witness_HostWritesOperandsAndBuffer :
    bench.cfg.legal = true ∧ (∀ v, Serves (serving (.write 0x503C v)) (.write 0x503C v) []) ∧ 15 < bench.cfg.bufsz ∧
    (0x503C#16 = BitVec.ofNat 16 (0x5000 + 4 * 15)) ∧ 7 < bench.cfg.nconv ∧
    (0x407C#16 = BitVec.ofNat 16 (0x400C + 0x10 * 7)) :=
  ⟨by decide, fun _ => ⟨rfl, rfl⟩, by decide, by decide, by decide, by decide⟩

/-- The last profile, with a line the block has (5 of 8), and with one it has not (9). -/
theorem witness_ProfileCommitSetsUpPad :
    ∃ s r, s.cfg.legal = true ∧ 7 < s.cfg.nprof ∧ Serves s (.write (BitVec.ofNat 16 (0x101C + 0x20 * 7)) 1) [] ∧
      (s.profAt 7).valid = false ∧ s.lineOf 7 < s.cfg.nsel ∧ Serves r (.write (BitVec.ofNat 16 (0x101C + 0x20 * 7)) 1) [] ∧
      (r.profAt 7).valid = false ∧ r.cfg.nsel ≤ r.lineOf 7 ∧ (1#32).getLsbD 0 = true :=
  ⟨{ serving (.write 0x10FC 1) with profs := bench.profs.set 7 ⟨5, 1, 0, 0, 0, 0, 0, false⟩ },
    { serving (.write 0x10FC 1) with profs := bench.profs.set 7 ⟨9, 1, 0, 0, 0, 0, 0, false⟩ },
    by decide, by decide, ⟨rfl, rfl⟩, by decide, by decide, ⟨rfl, rfl⟩, by decide, by decide, by decide⟩

/-- The last entry of each table is not committed; a write to any of its words is served. -/
theorem witness_UncommittedEntriesStoreWrites :
    bench.cfg.legal = true ∧ (∀ i, Serves (serving i) i []) ∧ (7 < bench.cfg.nprof ∧ (bench.profAt 7).valid = false) ∧
    (31 < bench.cfg.nreg ∧ (bench.regAt 31).valid = false) ∧ (7 < bench.cfg.nconv ∧ (bench.convAt 7).valid = false) :=
  ⟨by decide, fun _ => ⟨rfl, rfl⟩, by decide, by decide, by decide⟩

theorem witness_ResetLeavesTableOfResetValues : bench.cfg.legal = true ∧ Serves (serving .reset) .reset [] :=
  ⟨by decide, rfl, rfl⟩

/-- No input; a change of `bus_open` either way; and a reset and an access outside `IDLE`. -/
theorem witness_StepWithoutAccess :
    bench.inputs = [] ∧ (∀ l, Serves (serving (.busOpen l)) (.busOpen l) []) ∧
    (∀ i, ({ serving i with phase := .xfer } : State).phase ≠ .idle ∧
      ({ serving i with phase := .xfer } : State).inputs.head? = some i) ∧ Input.read 0x0004 ≠ .reset :=
  ⟨rfl, fun _ => ⟨rfl, rfl⟩, fun _ => ⟨Phase.noConfusion, rfl⟩, by decide⟩

end Sys2Proof.Tests
end

section
/-! SUPPORT. The host port as a relation: every way an input is served (`Served`), every way a register is written
(`RegWritten`), what a launch keeps (`LaunchKeeps`). A claim about every step is a case analysis over these. -/

namespace Sys2Proof.Machine

/-! ### What a step can do -/

/-- Every way a next state can come from serving an input (10_state.md R23, R46; 20_memory.md R62, R63). -/
inductive Served (s : State) : Input → State → Prop
  | launch (w : Word) (u : State) (h : s.launch w = .next u) : Served s (.write 0x0000 w) (u.ack none)
  | unmapped (off : BitVec 16) (v : Word) (h : regAtOffset s.cfg off = none) : Served s (.write off v) (s.nack none)
  | register (off : BitVec 16) (v : Word) (r : HostReg) (h : regAtOffset s.cfg off = some r) (ho : r ≠ .op) :
      Served s (.write off v) ((s.writeReg r v).ack none)
  | read (off : BitVec 16) : Served s (.read off) (s.hostRead off)
  | reset : Served s .reset s.applyReset
  | busOpen (level : Bool) : Served s (.busOpen level) { s with busOpen := level }

/-- `OP` stands at offset 0 under every choice of the parameters (R46). -/
@[simp] theorem regAtOffset_zero (c : Params) : regAtOffset c 0x0000 = some .op := rfl

theorem served_of_serve {s t : State} {i : Input} (h : s.serve i = .next t) : Served s i t := by
  cases i with
  | write off v =>
    simp only [State.serve, State.hostWrite] at h
    split at h
    case h_1 hr => cases h; exact .unmapped off v hr
    case h_2 hr =>
      obtain ⟨u, hu, rfl⟩ := ackLaunch_next h
      rw [regAtOffset_op hr]
      exact .launch v u hu
    case h_3 r hr ho => cases h; exact .register off v r ho hr
  | read off => cases h; exact .read off
  | reset => cases h; exact .reset
  | busOpen level => cases h; exact .busOpen level

theorem Serves.served {s t : State} {i : Input} {rest : List Input} (h : Serves s i rest) (ht : step s = .next t) :
    Served { s with inputs := rest } i t :=
  served_of_serve (h.step_eq.symm.trans ht)

/-- A step that goes on holds the state or serves the oldest input. -/
theorem step_next_cases {s t : State} (h : step s = .next t) :
    t = s ∨ ∃ i rest, Serves s i rest ∧ Served { s with inputs := rest } i t := by
  rcases step_cases s with hs | ⟨i, rest, hi, -⟩ | ⟨r, hs⟩
  · rw [hs] at h; cases h; exact .inl rfl
  · exact .inr ⟨i, rest, hi, hi.served h⟩
  · rw [hs] at h; cases h

/-! ### What a register write can do -/

/-- The block with profile `p` committed, its pad not yet set up (R32). -/
def State.commitProf (s : State) (p : Nat) : State :=
  { s with profs := s.profs.set p { s.profAt p with valid := true } }

@[simp] theorem State.commitProf_cfg (s : State) (p : Nat) : (s.commitProf p).cfg = s.cfg := rfl

@[simp] theorem State.commitProf_csoe (s : State) (p : Nat) : (s.commitProf p).csoe = s.csoe := rfl

/-- Every way a host write to a register other than `OP` can change the state (R21, R22, R32 to R37). -/
inductive RegWritten (s : State) : HostReg → State → Prop
  | operands (r : HostReg) (v : Word) (p : BitVec 64) : RegWritten s r { s with val := v, phy := p }
  | profile (p : Nat) (w : ProfWord) (e : Profile) (hv : (s.profAt p).valid = false) (he : e.valid = false) :
      RegWritten s (.prof p w) { s with profs := s.profs.set p e }
  | commit (p : Nat) (w : ProfWord) (hv : (s.profAt p).valid = false) :
      RegWritten s (.prof p w) ((s.commitProf p).padSetup (s.lineOf p))
  | regspec (k : Nat) (e : RegSpec) (hv : (s.regAt k).valid = false) :
      RegWritten s (.regspec k) { s with regspecs := s.regspecs.set k e }
  | conv (c : Nat) (w : ConvWord) (e : Conv) (hv : (s.convAt c).valid = false) :
      RegWritten s (.conv c w) { s with convs := s.convs.set c e }
  | cell (i : Nat) (b : Byte) : RegWritten s (.buf i) (s.memWrite i [b])

/-- A write that changes nothing. -/
theorem RegWritten.unchanged (s : State) (r : HostReg) : RegWritten s r s := .operands r s.val s.phy

theorem writeReg_written (s : State) (r : HostReg) (v : Word) : RegWritten s r (s.writeReg r v) := by
  cases r with
  | val => exact .operands _ v s.phy
  | phyl => exact .operands _ s.val _
  | phyh => exact .operands _ s.val _
  | prof p w =>
    show RegWritten s _ (s.writeProf p w v)
    rcases writeProf_cases s p w v with h | ⟨e, hv, ⟨he, h⟩ | ⟨rfl, h⟩⟩ <;> rw [h]
    · exact .unchanged s _
    · exact .profile p w e hv he
    · exact .commit p w hv
  | regspec k =>
    show RegWritten s _ (s.writeRegSpec k v)
    unfold State.writeRegSpec
    split
    · exact .unchanged s _
    case isFalse hv => exact .regspec k _ (by simpa using hv)
  | conv c w =>
    show RegWritten s _ (s.writeConv c w v)
    unfold State.writeConv
    split
    · exact .unchanged s _
    case isFalse hv => exact .conv c w _ (by simpa using hv)
  | buf i => exact .cell i _
  | op | status | errinfo | cslvl | csoe | busst | cap | proto => exact .unchanged s _

theorem State.padSetup_of_lt {s : State} {k : Nat} (h : k < s.cfg.nsel) :
    s.padSetup k = (s.csSet k true).csDirOut k := if_pos h

theorem State.padSetup_of_le {s : State} {k : Nat} (h : s.cfg.nsel ≤ k) : s.padSetup k = s := if_neg (by omega)

/-- The pad setup changes the two pad registers and the trace alone (R33). -/
theorem State.padSetup_eq (s : State) (k : Nat) :
    s.padSetup k = { s with
      cslvl := (s.padSetup k).cslvl, csoe := (s.padSetup k).csoe, trace := (s.padSetup k).trace } := by
  unfold State.padSetup
  split <;> rfl

/-- The trace of `t` continues that of `s`, with no sleep of length 0 (R45, R134). -/
def TraceGrows (s t : State) : Prop := ∃ evs, t.trace = s.trace ++ evs ∧ Event.sleep 0 ∉ evs

theorem TraceGrows.of_eq {s t : State} (h : t.trace = s.trace) : TraceGrows s t :=
  ⟨[], by rw [h, List.append_nil], List.not_mem_nil⟩

/-- What every write to a register other than `OP` keeps. -/
structure WriteKeeps (s t : State) : Prop where
  cfg : t.cfg = s.cfg
  op : t.op = s.op
  status : t.status = s.status
  errinfo : t.errinfo = s.errinfo
  phase : t.phase = s.phase
  trace : TraceGrows s t

theorem padSetup_keeps (s : State) (k : Nat) : WriteKeeps s (s.padSetup k) := by
  by_cases h : k < s.cfg.nsel
  · rw [State.padSetup_of_lt h]
    exact ⟨rfl, rfl, rfl, rfl, rfl, [.cs k true, .csDir k], by simp, by simp⟩
  · rw [State.padSetup_of_le (by omega)]
    exact ⟨rfl, rfl, rfl, rfl, rfl, .of_eq rfl⟩

theorem RegWritten.keeps {s t : State} {r : HostReg} (h : RegWritten s r t) : WriteKeeps s t := by
  cases h with
  | commit p w hv =>
    obtain ⟨h1, h2, h3, h4, h5, h6⟩ := padSetup_keeps (s.commitProf p) (s.lineOf p)
    exact ⟨h1, h2, h3, h4, h5, h6⟩
  | operands | profile | regspec | conv | cell => exact ⟨rfl, rfl, rfl, rfl, rfl, .of_eq rfl⟩

/-! ### What a launch keeps -/

/-- What a write of `w` to `OP` leaves from `s` to `t`, whatever the word and however its operation ends. -/
structure LaunchKeeps (s t : State) (w : Word) : Prop where
  cfg : t.cfg = s.cfg
  op : t.op = w
  csoe : t.csoe = s.csoe
  profs : t.profs = s.profs
  regspecs : t.regspecs = s.regspecs
  convs : t.convs = s.convs
  phase : t.phase = .idle ∨ t.phase = s.phase
  lines : t.cslvl = s.cslvl ∨ ∃ k, k < s.cfg.nsel ∧ t.cslvl = setBit (setBit s.cslvl k false) k true
  trace : TraceGrows s t
  status : legalStatus t.status = true
  errinfo : statusErr t.status = false → t.errinfo = 0
  bufForm : s.buf.wf = true → t.buf.wf = true
  bufRange : s.buf.within s.cfg.bufsz = true → t.buf.within s.cfg.bufsz = true

theorem launch_keeps {s t : State} {w : Word} (hl : s.cfg.legal = true) (h : s.launch w = .next t) :
    LaunchKeeps s t w := by
  rcases launch_cases hl h with ⟨i, -, -, k⟩ | ⟨-, rfl⟩
  · exact ⟨k.cfg, k.op, k.csoe, k.profs, k.regspecs, k.convs, k.phase, k.lines, k.trace,
      legalStatus_of_outcomes i k.status, k.errinfo, k.bufForm, k.bufRange⟩
  · exact ⟨rfl, rfl, rfl, rfl, rfl, rfl, .inr rfl, .inl rfl, .of_eq rfl, legalStatus_error _,
      fun he => absurd he (by rw [statusErr_raiseConfig]; decide), id, id⟩

end Sys2Proof.Machine
end

section
/-! SUPPORT. The invariant of the block: reset has it, and every way an input is served keeps it. -/

namespace Sys2Proof.Machine

/-! ### Reset -/

/-- A property of the entry beyond a table and of every generated entry holds at every index. -/
theorem getD_map_range {α : Type} {P : α → Prop} {f : Nat → α} {d : α} (hd : P d) (hf : ∀ k, P (f k)) (n p : Nat) :
    P (((List.range n).map f).getD p d) := by
  rw [List.getD_eq_getElem?_getD, List.getElem?_map]
  rcases (List.range n)[p]? with _ | k
  · exact hd
  · exact hf k

/-- Reset commits no profile (R43). -/
theorem atReset_profAt_valid (c : Params) (epoch p : Nat) : ((State.atReset c epoch).profAt p).valid = false :=
  getD_map_range (P := fun e : Profile => e.valid = false) rfl (fun _ => rfl) _ _

theorem atReset_regAt_valid (c : Params) (epoch r : Nat) : ((State.atReset c epoch).regAt r).valid = false :=
  getD_map_range (P := fun e : RegSpec => e.valid = false) rfl (fun _ => rfl) _ _

theorem atReset_convAt_valid (c : Params) (epoch k : Nat) : ((State.atReset c epoch).convAt k).valid = false :=
  getD_map_range (P := fun e : Conv => e.valid = false) rfl (fun _ => rfl) _ _

theorem Params.nsel_le {c : Params} (h : c.legal = true) : c.nsel ≤ 32 := by
  have := (Params.legal_iff c).mp h
  omega

theorem atReset_resetTable {c : Params} (h : c.legal = true) (epoch : Nat) : ResetTable (State.atReset c epoch) where
  op := rfl
  status := rfl
  errinfo := rfl
  cslvl j := getLsbD_allHigh c.nsel j (Params.nsel_le h)
  csoe := rfl
  modev := rfl
  nprofs := by simp [State.atReset]
  nregs := by simp [State.atReset]
  nconvs := by simp [State.atReset]
  profs := atReset_profAt_valid c epoch
  regspecs := atReset_regAt_valid c epoch
  convs := atReset_convAt_valid c epoch
  phase := rfl
  trace := rfl

/-- A reset from any state leaves the table R43, for the parameters of that state. -/
theorem applyReset_resetTable {s : State} (h : s.cfg.legal = true) : ResetTable s.applyReset := by
  obtain ⟨h1, h2, h3, h4, h5, h6, h7, h8, h9, h10, h11, h12, h13, h14⟩ := atReset_resetTable h (s.resets + 1)
  exact ⟨h1, h2, h3, h4, h5, h6, h7, h8, h9, h10, h11, h12, h13, h14⟩

/-- A state of R43's table meets the invariant, with the buffer and the lines' latch as reset leaves them. -/
theorem ResetTable.inv {t : State} (h : ResetTable t) (hl : t.cfg.legal = true) (hc : t.cslvl = allHigh t.cfg.nsel)
    (hb : t.buf = []) : Inv t where
  legal := hl
  idle := h.phase
  lines := hc
  pads := by rw [h.csoe]; exact BitVec.zero_and
  committed p hp := by rw [h.profs p] at hp; cases hp
  nprofs := h.nprofs
  nregs := h.nregs
  nconvs := h.nconvs
  bufForm := by rw [hb]; rfl
  bufRange := by rw [hb]; rfl
  status := by rw [h.status]; decide
  sleeps := by rw [h.trace]; exact List.not_mem_nil

/-! ### Launching an operation -/

/-- A trace free of sleeps of length 0 stays so (R134). -/
theorem no_sleep_of_grows {s t : State} (hs : Event.sleep 0 ∉ s.trace) (h : TraceGrows s t) :
    Event.sleep 0 ∉ t.trace := by
  obtain ⟨evs, he, hn⟩ := h
  rw [he, List.mem_append]
  exact not_or.mpr ⟨hs, hn⟩

theorem LaunchKeeps.profAt {s t : State} {w : Word} (k : LaunchKeeps s t w) (p : Nat) : t.profAt p = s.profAt p := by
  simp only [State.profAt, k.profs]

/-- The lines are all high again when an operation has ended (R41). -/
theorem LaunchKeeps.allHigh {s t : State} {w : Word} (k : LaunchKeeps s t w) (h : Inv s) :
    t.cslvl = allHigh s.cfg.nsel := by
  rcases k.lines with e | ⟨j, hj, e⟩
  · rw [e, h.lines]
  · rw [e, h.lines, allHigh_pair (Params.nsel_le h.legal) hj]

theorem LaunchKeeps.inv {s t : State} {w : Word} (k : LaunchKeeps s t w) (h : Inv s) : Inv t where
  legal := by rw [k.cfg, h.legal]
  idle := k.phase.elim id (·.trans h.idle)
  lines := by rw [k.cfg, k.allHigh h]
  pads := by rw [k.cfg, k.csoe, h.pads]
  committed p := by
    simp only [State.lineOf, k.profAt, k.cfg, k.csoe]
    exact h.committed p
  nprofs := by rw [k.cfg, k.profs, h.nprofs]
  nregs := by rw [k.cfg, k.regspecs, h.nregs]
  nconvs := by rw [k.cfg, k.convs, h.nconvs]
  bufForm := k.bufForm h.bufForm
  bufRange := by rw [k.cfg]; exact k.bufRange h.bufRange
  status := k.status
  sleeps := no_sleep_of_grows h.sleeps k.trace

/-! ### Writing a register -/

/-- The profile table after a write to entry `p`. -/
theorem profAt_set (s : State) (p q : Nat) (e : Profile) :
    ({ s with profs := s.profs.set p e } : State).profAt q = if p = q ∧ p < s.profs.length then e else s.profAt q :=
  getD_set _ _ _ _ _

/-- A profile that is committed after a commit of `p` has the line of `p`, or was committed before. -/
theorem commitProf_valid {s : State} {p q : Nat} (h : ((s.commitProf p).profAt q).valid = true) :
    (s.commitProf p).lineOf q = s.lineOf p ∨ (s.profAt q).valid = true ∧ (s.commitProf p).lineOf q = s.lineOf q := by
  rw [State.commitProf, profAt_set] at h
  rw [State.commitProf, State.lineOf, profAt_set]
  split at h
  case isTrue hp => exact .inl (by rw [if_pos hp]; rfl)
  case isFalse hp => exact .inr ⟨h, by rw [if_neg hp]; rfl⟩

/-- The pad setup leaves lines that are all high all high. -/
theorem padSetup_lines {s : State} (hn : s.cfg.nsel ≤ 32) (h : s.cslvl = allHigh s.cfg.nsel) (k : Nat) :
    (s.padSetup k).cslvl = allHigh s.cfg.nsel := by
  unfold State.padSetup
  split
  case isFalse => exact h
  case isTrue hk =>
    rw [State.csDirOut_cslvl, State.csSet_cslvl, h]
    apply BitVec.eq_of_getLsbD_eq
    intro j _
    rw [getLsbD_setBit, getLsbD_allHigh _ _ hn]
    split
    case isTrue hj => simp [hj.1, hk]
    case isFalse => rfl

/-- The pad setup drives its own pad, if the block has it, and keeps the others as they are. -/
theorem padSetup_getLsbD_csoe {s : State} (hn : s.cfg.nsel ≤ 32) (k j : Nat) :
    (s.padSetup k).csoe.getLsbD j = (s.csoe.getLsbD j || decide (j = k ∧ k < s.cfg.nsel)) := by
  unfold State.padSetup
  split
  case isFalse hk => simp [hk]
  case isTrue hk =>
    rw [State.csDirOut_csoe, State.csSet_csoe, getLsbD_setBit]
    by_cases hj : j = k
    · simp [hj, hk, Nat.lt_of_lt_of_le hk hn]
    · simp [hj]

/-- No pad above `NSEL` becomes an output (R28). -/
theorem padSetup_pads {s : State} (hn : s.cfg.nsel ≤ 32) (h : s.csoe &&& allHigh s.cfg.nsel = s.csoe) (k : Nat) :
    (s.padSetup k).csoe &&& allHigh s.cfg.nsel = (s.padSetup k).csoe := by
  apply BitVec.eq_of_getLsbD_eq
  intro j _
  have hj := congrArg (·.getLsbD j) h
  simp only [BitVec.getLsbD_and, getLsbD_allHigh _ _ hn, padSetup_getLsbD_csoe hn] at hj ⊢
  by_cases hk : j = k ∧ k < s.cfg.nsel
  · simp [hk.1, hk.2]
  · simpa [hk] using hj

/-- After a commit the pad of every committed profile is driven, the new one's among them (R33). -/
theorem Inv.commit_pads {s : State} (h : Inv s) {p q : Nat} (hv : ((s.commitProf p).profAt q).valid = true)
    (hq : (s.commitProf p).lineOf q < s.cfg.nsel) :
    ((s.commitProf p).padSetup (s.lineOf p)).csoe.getLsbD ((s.commitProf p).lineOf q) = true := by
  rw [padSetup_getLsbD_csoe (s := s.commitProf p) (Params.nsel_le h.legal)]
  rcases commitProf_valid hv with e | ⟨hv', e⟩ <;> rw [e] at hq ⊢
  · simp [hq]
  · simp [h.committed q hv' hq]

/-- A commit keeps the invariant: its line is high and its pad driven from now on (R33). -/
theorem Inv.commit {s : State} (h : Inv s) (p : Nat) : Inv ((s.commitProf p).padSetup (s.lineOf p)) := by
  have hn : (s.commitProf p).cfg.nsel ≤ 32 := Params.nsel_le h.legal
  have hev := (padSetup_keeps (s.commitProf p) (s.lineOf p)).trace
  rw [State.padSetup_eq]
  exact {
    legal := h.legal
    idle := h.idle
    lines := padSetup_lines hn h.lines _
    pads := padSetup_pads hn h.pads _
    committed := fun _ => h.commit_pads
    nprofs := (List.length_set ..).trans h.nprofs
    nregs := h.nregs
    nconvs := h.nconvs
    bufForm := h.bufForm
    bufRange := h.bufRange
    status := h.status
    sleeps := no_sleep_of_grows h.sleeps hev }

/-- An entry stored without `VALID` is no committed one. -/
theorem Inv.profile {s : State} (h : Inv s) (p : Nat) {e : Profile} (he : e.valid = false) :
    Inv { s with profs := s.profs.set p e } where
  __ := h
  nprofs := (List.length_set ..).trans h.nprofs
  committed q := by
    rw [State.lineOf, profAt_set]
    split
    · intro hv; rw [he] at hv; cases hv
    · exact h.committed q

theorem RegWritten.inv {s t : State} {r : HostReg} (hw : RegWritten s r t) (h : Inv s)
    (hb : ∀ i, r = .buf i → i < s.cfg.bufsz) : Inv t := by
  cases hw with
  | operands v p => exact { h with }
  | profile p w e hv he => exact h.profile p he
  | commit p w hv => exact h.commit p
  | regspec k e hv => exact { h with nregs := (List.length_set ..).trans h.nregs }
  | conv c w e hv => exact { h with nconvs := (List.length_set ..).trans h.nconvs }
  | cell i b =>
    exact { h with
      bufForm := State.memWrite_wf s i [b] h.bufForm
      bufRange := Memory.within_writeCells s.cfg.bufsz [b] s.buf i (hb i rfl) h.bufRange }

/-! ### Every step -/

theorem Served.inv {s t : State} {i : Input} (hs : Served s i t) (h : Inv s) : Inv t := by
  cases hs with
  | launch w u hu =>
    have := (launch_keeps h.legal hu).inv h
    exact { this with }
  | unmapped off v hr => exact { h with }
  | register off v r hr ho =>
    have := (writeReg_written s r v).inv h (regAtOffset_bounds hr).2.2.2.1
    exact { this with }
  | read off =>
    unfold State.hostRead
    split <;> exact { h with }
  | reset => exact (applyReset_resetTable h.legal).inv h.legal rfl rfl
  | busOpen level => exact { h with }

end Sys2Proof.Machine

namespace Sys2Proof.Proofs

open Sys2Proof.Machine

/-- Settles O50: the state after reset is a state of R43's table. -/
theorem resetHasInvariant : Obligations.ResetHasInvariant :=
  (atReset_resetTable (c := Params.default) (by decide) 0).inv (by decide) rfl rfl

/-- Settles O49: every way an input is served keeps the invariant. -/
theorem stepKeepsInvariant : Obligations.StepKeepsInvariant := by
  intro s t h hs
  rcases step_next_cases hs with rfl | ⟨i, rest, -, hv⟩
  · exact h
  · exact hv.inv { h with }

/-- Settles O59: both the first reset and `rst` leave the table R43. -/
theorem resetLeavesTableOfResetValues : Obligations.ResetLeavesTableOfResetValues :=
  ⟨atReset_resetTable (c := Params.default) (by decide) 0,
    fun _ _ hl h => ⟨_, h.step_eq, rfl, rfl, applyReset_resetTable hl⟩⟩

end Sys2Proof.Proofs
end

section
/-! Statements over every step: the case analysis is `step_next_cases` or `Serves.served`, the facts are those of
`RegWritten.keeps` and `launch_keeps`. -/

namespace Sys2Proof.Machine

/-! ### Committed entries -/

/-- The committed entries of the three tables of `s` stand unchanged in `t` (R32, R35, R36). -/
structure Locked (s t : State) : Prop where
  profs : ∀ p, (s.profAt p).valid = true → t.profAt p = s.profAt p
  regspecs : ∀ r, (s.regAt r).valid = true → t.regAt r = s.regAt r
  convs : ∀ c, (s.convAt c).valid = true → t.convAt c = s.convAt c

theorem Locked.of_tables {s t : State} (h1 : t.profs = s.profs) (h2 : t.regspecs = s.regspecs) (h3 : t.convs = s.convs) :
    Locked s t where
  profs p _ := by simp only [State.profAt, h1]
  regspecs r _ := by simp only [State.regAt, h2]
  convs c _ := by simp only [State.convAt, h3]

theorem Locked.trans {s t u : State} (h1 : Locked s t) (h2 : Locked t u) : Locked s u where
  profs p hv := by rw [h2.profs p (by rwa [h1.profs p hv]), h1.profs p hv]
  regspecs r hv := by rw [h2.regspecs r (by rwa [h1.regspecs r hv]), h1.regspecs r hv]
  convs c hv := by rw [h2.convs c (by rwa [h1.convs c hv]), h1.convs c hv]

/-- A list entry that a predicate marks is not the one replaced, if that one was not marked. -/
theorem getD_set_of_locked {α : Type} {valid : α → Bool} {l : List α} {p q : Nat} {a d : α}
    (hp : valid (l.getD p d) = false) (hq : valid (l.getD q d) = true) : (l.set p a).getD q d = l.getD q d := by
  rw [getD_set, if_neg]
  rintro ⟨rfl, -⟩
  rw [hp] at hq
  cases hq

theorem Locked.of_profs_set {s : State} {p : Nat} {e : Profile} (hv : (s.profAt p).valid = false) :
    Locked s { s with profs := s.profs.set p e } where
  profs _ hq := getD_set_of_locked (valid := Profile.valid) hv hq
  regspecs _ _ := rfl
  convs _ _ := rfl

theorem RegWritten.locked {s t : State} {r : HostReg} (h : RegWritten s r t) : Locked s t := by
  cases h with
  | operands v p => exact .of_tables rfl rfl rfl
  | profile p w e hv he => exact .of_profs_set hv
  | commit p w hv =>
    refine Locked.trans (t := s.commitProf p) (.of_profs_set hv) ?_
    rw [State.padSetup_eq]
    exact .of_tables rfl rfl rfl
  | regspec k e hv => exact ⟨fun _ _ => rfl, fun _ hq => getD_set_of_locked (valid := RegSpec.valid) hv hq, fun _ _ => rfl⟩
  | conv c w e hv => exact ⟨fun _ _ => rfl, fun _ _ => rfl, fun _ hq => getD_set_of_locked (valid := Conv.valid) hv hq⟩
  | cell i b => exact .of_tables rfl rfl rfl

/-- A reset is told by the reset count. -/
theorem applyReset_resets (s : State) : s.applyReset.resets = s.resets + 1 := rfl

/-- A host read changes the port's answer and the count of free values alone (20_memory.md R67). -/
theorem State.hostRead_eq (s : State) (off : BitVec 16) :
    ∃ a, s.hostRead off = { s with answer := a, draws := s.draws + 1 } := by
  unfold State.hostRead
  split <;> exact ⟨_, rfl⟩

theorem Served.locked {s t : State} {i : Input} (hs : Served s i t) (hl : s.cfg.legal = true)
    (hr : t.resets = s.resets) : Locked s t := by
  cases hs with
  | launch w u hu =>
    have k := launch_keeps hl hu
    exact .of_tables k.profs k.regspecs k.convs
  | unmapped off v h => exact .of_tables rfl rfl rfl
  | register off v r h ho => exact (writeReg_written s r v).locked.trans (.of_tables rfl rfl rfl)
  | read off =>
    obtain ⟨a, e⟩ := s.hostRead_eq off
    rw [e]
    exact .of_tables rfl rfl rfl
  | reset => rw [applyReset_resets] at hr; omega
  | busOpen level => exact .of_tables rfl rfl rfl

/-! ### The trace -/

theorem Served.traceGrows {s t : State} {i : Input} (hs : Served s i t) (hl : s.cfg.legal = true)
    (hr : t.resets = s.resets) : TraceGrows s t := by
  cases hs with
  | launch w u hu => exact (launch_keeps hl hu).trace
  | unmapped off v h => exact .of_eq rfl
  | register off v r h ho => exact (writeReg_written s r v).keeps.trace
  | read off =>
    obtain ⟨a, e⟩ := s.hostRead_eq off
    rw [e]
    exact .of_eq rfl
  | reset => rw [applyReset_resets] at hr; omega
  | busOpen level => exact .of_eq rfl

/-! ### `OP`, `STATUS`, `ERRINFO` -/

/-- What is served that is neither a write of `OP` nor a reset keeps `OP`, `STATUS` and `ERRINFO` (R23, R26, R27). -/
theorem Served.keeps_registers {s t : State} {i : Input} (hs : Served s i t) (hw : ∀ w, i ≠ .write 0x0000 w)
    (hr : i ≠ .reset) : t.op = s.op ∧ t.status = s.status ∧ t.errinfo = s.errinfo := by
  cases hs with
  | launch w u hu => exact absurd rfl (hw w)
  | unmapped off v h => exact ⟨rfl, rfl, rfl⟩
  | register off v r h ho =>
    have k := (writeReg_written s r v).keeps
    exact ⟨k.op, k.status, k.errinfo⟩
  | read off =>
    obtain ⟨a, e⟩ := s.hostRead_eq off
    rw [e]
    exact ⟨rfl, rfl, rfl⟩
  | reset => exact absurd rfl hr
  | busOpen level => exact ⟨rfl, rfl, rfl⟩

/-- A served write of `OP` is a launch and its acknowledgement. -/
theorem Served.of_op {s t : State} {w : Word} (hs : Served s (.write 0x0000 w) t) :
    ∃ u, s.launch w = .next u ∧ t = u.ack none := by
  cases hs with
  | launch w u hu => exact ⟨u, hu, rfl⟩
  | unmapped off v h => rw [regAtOffset_zero] at h; cases h
  | register off v r h ho => rw [regAtOffset_zero] at h; cases h; exact absurd rfl ho

/-- The launch of a legal word is its operation, `OP` holding the word (R23, R91). -/
theorem launch_of_decode (s : State) {w : Word} {i : Instr} (h : decode w = .ok i) :
    s.launch w = exec i { s with op := w } := by
  unfold State.launch
  rw [h]

/-! ### Refusals -/

/-- An input that meets a running operation is refused (R47, R261). -/
theorem step_of_busy {s : State} {i : Input} (hp : s.phase ≠ .idle) (hi : s.inputs.head? = some i) :
    step s = .refused (busyRefusal i) := by
  obtain ⟨rest, hs⟩ := List.head?_eq_some_iff.mp hi
  simp only [step, State.turn, hs, hp, if_false]

/-- A refused step met a bus that is not open, or a running operation. -/
theorem step_refused_cases {s : State} {r : Refusal} (h : step s = .refused r) :
    r = .busNotOpen ∨ s.phase ≠ .idle ∧ ∃ i, s.inputs.head? = some i ∧ r = busyRefusal i := by
  unfold step State.turn at h
  split at h
  case h_1 => cases h
  case h_2 i rest hs =>
    split at h
    · exact .inl (serve_refused h)
    case isFalse hp => cases h; exact .inr ⟨hp, i, by rw [hs]; rfl, rfl⟩

theorem busyRefusal_eq_resetWhileBusy {i : Input} : busyRefusal i = .resetWhileBusy ↔ i = .reset := by
  cases i <;> simp [busyRefusal]

theorem busyRefusal_eq_portBusy {i : Input} : busyRefusal i = .portBusy ↔ i ≠ .reset := by
  cases i <;> simp [busyRefusal]

end Sys2Proof.Machine

namespace Sys2Proof.Proofs

open Sys2Proof.Machine

/-- Settles O51: only an entry that is not committed is ever replaced. -/
theorem committedEntriesAreLocked : Obligations.CommittedEntriesAreLocked := by
  intro s t hl hs hr
  have h : Locked s t := by
    rcases step_next_cases hs with rfl | ⟨i, rest, -, hv⟩
    · exact .of_tables rfl rfl rfl
    · exact Locked.trans (t := { s with inputs := rest }) (.of_tables rfl rfl rfl) (hv.locked hl hr)
  exact ⟨h.profs, h.regspecs, h.convs⟩

/-- Settles O53: only operations and profile commits append events. -/
theorem traceOnlyGrows : Obligations.TraceOnlyGrows := by
  intro s t hl hs hr
  rcases step_next_cases hs with rfl | ⟨i, rest, -, hv⟩
  · exact TraceGrows.of_eq rfl
  · exact hv.traceGrows hl hr

/-- Settles O52: `launch_keeps` for a write of `OP`, `Served.keeps_registers` for the rest. -/
theorem statusWrittenOnlyByOperations : Obligations.StatusWrittenOnlyByOperations := by
  intro s t i rest hl hi hs
  refine ⟨fun hw hr => ((hi.served hs).keeps_registers hw hr).2, ?_⟩
  rintro w rfl
  obtain ⟨u, hu, rfl⟩ := (hi.served hs).of_op
  have k := launch_keeps (s := { s with inputs := rest }) hl hu
  exact ⟨k.status, k.errinfo⟩

/-- Settles O8: a launch leaves the word in `OP`, and nothing but a reset changes it otherwise. -/
theorem opHoldsLastWordWritten : Obligations.OpHoldsLastWordWritten := by
  refine ⟨rfl, fun s t i rest hl hi hs => ⟨?_, ?_, ?_, fun hw hr => ((hi.served hs).keeps_registers hw hr).1⟩⟩
  · rintro w rfl
    obtain ⟨u, hu, rfl⟩ := (hi.served hs).of_op
    refine ⟨(launch_keeps (s := { s with inputs := rest }) hl hu).op, fun j hj => ⟨u, ?_, rfl⟩⟩
    rw [← hu, launch_of_decode _ hj]
  · rintro rfl
    rw [hi.read_eq, regAtOffset_zero] at hs
    cases hs
    rfl
  · rintro rfl
    rw [hi.step_eq] at hs
    cases hs
    rfl

/-- Settles O7: a write of `OP` launches the decoded operation; `withFetchWord` places such a write first. -/
theorem stepRunsDecodedOperation : Obligations.StepRunsDecodedOperation := by
  refine ⟨fun s w rest i hi hd => ?_, fun s nbits w => ⟨rfl, rfl⟩⟩
  rw [hi.write_op, launch_of_decode _ hd]
  cases exec i { s with inputs := rest, op := w } <;> rfl

/-- Settles O60: with no input the step holds, `bus_open` is set alone, and a busy block refuses its oldest input. -/
theorem stepWithoutAccess : Obligations.StepWithoutAccess := by
  refine ⟨fun s h => by simp only [step, State.turn, h], fun s level rest hi => hi.step_eq, fun s => ⟨⟨fun h => ?_, ?_⟩,
    ⟨fun h => ?_, ?_⟩⟩⟩
  · rcases step_refused_cases h with e | ⟨hp, i, hi, e⟩
    · cases e
    · exact ⟨hp, by rw [hi, busyRefusal_eq_resetWhileBusy.mp e.symm]⟩
  · rintro ⟨hp, hi⟩
    exact step_of_busy hp hi
  · rcases step_refused_cases h with e | ⟨hp, i, hi, e⟩
    · cases e
    · exact ⟨hp, i, hi, busyRefusal_eq_portBusy.mp e.symm⟩
  · rintro ⟨hp, i, hi, hr⟩
    rw [step_of_busy hp hi, busyRefusal_eq_portBusy.mpr hr]

end Sys2Proof.Proofs
end

section
/-! Statements about the sequencer's phases: the fixup before select (R38), the select lines (R41), and `STATUS` that no
operation reads (R26). -/

namespace Sys2Proof.Machine

/-! ### Where a phase leads -/

/-- A phase's answer `r` leads to `t`: it goes on there, or leaves its course there by one of the two failures. -/
def LeadsTo (r : Except TxStop State) (t : State) : Prop :=
  r = .ok t ∨ (∃ e, r = .error (.modeSetFailed t e)) ∨ ∃ e, r = .error (.aborting t e)

@[simp] theorem leadsTo_ok {u t : State} : LeadsTo (.ok u) t ↔ u = t := by simp [LeadsTo]

@[simp] theorem leadsTo_modeSetFailed {u t : State} {e : Word} : LeadsTo (.error (.modeSetFailed u e)) t ↔ u = t := by
  simp [LeadsTo]

@[simp] theorem leadsTo_aborting {u t : State} {e : Word} : LeadsTo (.error (.aborting u e)) t ↔ u = t := by
  simp [LeadsTo]

@[simp] theorem leadsTo_stuck {t : State} {p : Phase} : ¬ LeadsTo (.error (.stuck p)) t := by simp [LeadsTo]

/-! ### The select lines -/

/-- Every line the block has is high. -/
def LinesHigh (s : State) : Prop := ∀ j, j < s.cfg.nsel → s.cslvl.getLsbD j = true

theorem LinesHigh.linesOk {s : State} (h : LinesHigh s) : LinesOk s := fun j hj _ => h j hj

theorem LinesOk.linesHigh {s : State} (h : LinesOk s) (hq : s.phase.quiet = true) : LinesHigh s :=
  fun j hj => h j hj (.inl hq)

/-- What a phase can do to the select lines: nothing where no line is low, nothing while the running profile's may be, take
that one low, or high again (R41, R128, R132, R133). -/
inductive LineMove (s t : State) : Prop
  | rest (hc : t.cfg = s.cfg) (hq : s.phase.quiet = true) (hl : t.cslvl = s.cslvl)
  | hold (hc : t.cfg = s.cfg) (hq : t.phase.quiet = false) (hl : t.cslvl = s.cslvl) (hp : t.curProfile = s.curProfile)
  | lower (hc : t.cfg = s.cfg) (hq : s.phase.quiet = true) (ht : t.phase.quiet = false)
      (hl : t.cslvl = setBit s.cslvl s.curProfile.psel.toNat false) (hp : t.curProfile = s.curProfile)
  | raise (hc : t.cfg = s.cfg) (hl : t.cslvl = setBit s.cslvl s.curProfile.psel.toNat true)

theorem LineMove.linesOk {s t : State} (h : LineMove s t) (hn : s.cfg.nsel ≤ 32) (hs : LinesOk s) : LinesOk t := by
  cases h with
  | rest hc hq hl =>
    refine LinesHigh.linesOk fun j hj => ?_
    rw [hl]
    exact hs.linesHigh hq j (hc ▸ hj)
  | hold hc hq hl hp =>
    intro j hj hor
    rw [hq, hp] at hor
    rw [hl]
    exact hs j (hc ▸ hj) (.inr (hor.resolve_left (by decide)))
  | lower hc hq ht hl hp =>
    intro j hj hor
    rw [ht, hp] at hor
    rw [hl, getLsbD_setBit, if_neg fun h => hor.resolve_left (by decide) h.1]
    exact hs.linesHigh hq j (hc ▸ hj)
  | raise hc hl =>
    refine LinesHigh.linesOk fun j hj => ?_
    rw [hc] at hj
    rw [hl, getLsbD_setBit]
    split
    · rfl
    case isFalse hne => exact hs j hj (.inr fun e => hne ⟨e, Nat.lt_of_lt_of_le hj hn⟩)

section

variable {s t : State}

theorem modeSetPhase_lineMove (hp : s.phase = .modeSet) (h : LeadsTo s.modeSetPhase t) : LineMove s t := by
  have hq : s.phase.quiet = true := by rw [hp]; rfl
  rcases s.modeSetPhase_spec with ⟨e, -⟩ | ⟨_, _, _, _, _, _, e, -⟩ | ⟨_, e, -⟩ <;> rw [e] at h
  · exact absurd h leadsTo_stuck
  · rw [leadsTo_modeSetFailed] at h
    subst h
    exact .rest rfl hq rfl
  · rw [leadsTo_ok] at h
    subst h
    exact .rest rfl hq rfl

theorem fixupPhase_lineMove (hp : s.phase = .fixup) (h : LeadsTo s.fixupPhase t) : LineMove s t := by
  have hq : s.phase.quiet = true := by rw [hp]; rfl
  rcases s.fixupPhase_spec with ⟨e, -⟩ | ⟨_, _, _, e, -⟩ <;> rw [e] at h
  · exact absurd h leadsTo_stuck
  · rw [leadsTo_ok] at h
    subst h
    exact .rest rfl hq rfl

theorem selectPhase_lineMove (hp : s.phase = .select) (h : LeadsTo s.selectPhase t) : LineMove s t := by
  unfold State.selectPhase at h
  rw [leadsTo_ok] at h
  subst h
  refine .lower rfl (by rw [hp]; rfl) ?_ rfl rfl
  show (if s.curProfile.ppre = 0 then Phase.xfer else Phase.preDelay).quiet = false
  split <;> rfl

/-- A phase that is one sleep leads to what it makes of the end of that sleep. -/
theorem leadsTo_sleep {r : Except TxStop State} {n : Word} {p : Phase} (f : State → State)
    (hn : s.sleep n = none → r = .error (.stuck p)) (hs : ∀ u, s.sleep n = some u → r = .ok (f u)) (h : LeadsTo r t) :
    f { s with trace := s.trace ++ [.sleep n], timerScript := s.timerScript.tail } = t := by
  rcases s.sleep_spec n with ⟨e, -⟩ | e
  · rw [hn e] at h
    exact absurd h leadsTo_stuck
  · rwa [hs _ e, leadsTo_ok] at h

theorem preDelayPhase_lineMove (h : LeadsTo s.preDelayPhase t) : LineMove s t := by
  obtain rfl := leadsTo_sleep (fun u => { u with phase := .xfer }) (fun e => by rw [State.preDelayPhase, e])
    (fun u e => by rw [State.preDelayPhase, e]) h
  exact .hold rfl rfl rfl rfl

theorem ibDelayPhase_lineMove (h : LeadsTo s.ibDelayPhase t) : LineMove s t := by
  obtain rfl := leadsTo_sleep (fun u => { u with idx := u.idx + 1, phase := .xfer }) (fun e => by rw [State.ibDelayPhase, e])
    (fun u e => by rw [State.ibDelayPhase, e]) h
  exact .hold rfl rfl rfl rfl

theorem postDelayPhase_lineMove (h : LeadsTo s.postDelayPhase t) : LineMove s t := by
  obtain rfl := leadsTo_sleep (fun u => { u with phase := .deselect }) (fun e => by rw [State.postDelayPhase, e])
    (fun u e => by rw [State.postDelayPhase, e]) h
  exact .hold rfl rfl rfl rfl

theorem coolDownPhase_lineMove (hp : s.phase = .coolDown) (h : LeadsTo s.coolDownPhase t) : LineMove s t := by
  obtain rfl := leadsTo_sleep (State.endTx) (fun e => by rw [State.coolDownPhase, e])
    (fun u e => by rw [State.coolDownPhase, e]) h
  exact .rest rfl (by rw [hp]; rfl) rfl

/-- Neither phase that can follow the payload is quiet. -/
theorem afterPayload_quiet (s : State) : s.afterPayload.quiet = false := by
  rcases s.afterPayload_cases with e | e <;> rw [e] <;> rfl

theorem bulkXfer_lineMove (h : LeadsTo s.bulkXfer t) : LineMove s t := by
  unfold State.bulkXfer at h
  rcases s.busTransfer_spec s.curProfile.pmode s.curProfile.prate (s.memRead 0 s.curlen.toNat) with
    ⟨e, -⟩ | ⟨_, _, e, -⟩ | ⟨_, _, e, -⟩ <;> simp only [e] at h
  · exact absurd h leadsTo_stuck
  · rw [leadsTo_aborting] at h
    subst h
    exact .hold rfl rfl rfl rfl
  · rw [leadsTo_ok] at h
    subst h
    exact .hold rfl (afterPayload_quiet s) rfl rfl

theorem byteXfer_lineMove (h : LeadsTo s.byteXfer t) : LineMove s t := by
  rcases s.byteXfer_spec with ⟨_, e, -⟩ | ⟨_, _, e, -⟩ | ⟨_, _, e, -⟩ <;> rw [e] at h
  · exact absurd h leadsTo_stuck
  · rw [leadsTo_aborting] at h
    subst h
    exact .hold rfl rfl rfl rfl
  · rw [leadsTo_ok] at h
    subst h
    refine .hold rfl ?_ rfl rfl
    show (if s.idx.toNat + 1 < s.curlen.toNat then Phase.ibDelay else s.afterPayload).quiet = false
    split
    · rfl
    · exact afterPayload_quiet s

theorem xferPhase_lineMove (h : LeadsTo s.xferPhase t) : LineMove s t := by
  unfold State.xferPhase at h
  split at h
  · exact bulkXfer_lineMove h
  · exact byteXfer_lineMove h

theorem deselectPhase_lineMove (h : LeadsTo s.deselectPhase t) : LineMove s t := by
  unfold State.deselectPhase at h
  split at h <;> rw [leadsTo_ok] at h <;> subst h
  · exact .raise rfl rfl
  · exact .raise rfl rfl

theorem abortPhase_lineMove (s : State) : LineMove s s.abortPhase := by
  obtain ⟨_, _, _, _, _, _, e, -⟩ := s.abortPhase_spec
  rw [e]
  exact .raise rfl rfl

/-- Every transition of the sequencer is one of the four moves. -/
theorem seqStep_lineMove (h : LeadsTo s.seqStep t) : LineMove s t := by
  unfold State.seqStep at h
  split at h
  case h_1 hp => rw [leadsTo_ok] at h; subst h; exact .rest rfl (by rw [hp]; rfl) rfl
  case h_2 hp => exact modeSetPhase_lineMove hp h
  case h_3 hp => exact fixupPhase_lineMove hp h
  case h_4 hp => exact selectPhase_lineMove hp h
  case h_5 => exact preDelayPhase_lineMove h
  case h_6 => exact xferPhase_lineMove h
  case h_7 => exact ibDelayPhase_lineMove h
  case h_8 => exact postDelayPhase_lineMove h
  case h_9 => exact deselectPhase_lineMove h
  case h_10 hp => exact coolDownPhase_lineMove hp h
  case h_11 => rw [leadsTo_ok] at h; subst h; exact abortPhase_lineMove s

end

/-- A line that is low is the running profile's. -/
theorem LinesOk.eq_psel {s : State} (h : LinesOk s) {j : Nat} (hj : j < s.cfg.nsel) (hb : s.cslvl.getLsbD j = false) :
    j = s.curProfile.psel.toNat := by
  by_contra hne
  rw [h j hj (.inr hne)] at hb
  cases hb

/-! ### No operation reads `STATUS` or `ERRINFO` -/

section

variable (st e : Word)

/-- An operation with launch checks overwrites both registers when a check fails. -/
theorem launchWith_withStatus (s : State) (l : List (Bool × CfgCause)) (run : Host.Outcome State Fault Refusal) :
    (s.withStatus st e).launchWith l run = s.launchWith l run := by
  unfold State.launchWith
  cases firstFailure l <;> rfl

theorem encCheck_withStatus (s : State) (r12 : Bool) : (s.withStatus st e).encCheck r12 = s.encCheck r12 := by
  unfold State.encCheck
  exact if_congr Iff.rfl rfl rfl

/-- So does one that goes on to a transaction from `b`. -/
theorem launchWith_runTx_withStatus (s b : State) (l : List (Bool × CfgCause)) (prof n : Nat) {after : State → State}
    (h : ∀ t : State, after (t.withStatus st e) = after t) :
    (s.withStatus st e).launchWith l ((b.withStatus st e).runTx prof n after) = s.launchWith l (b.runTx prof n after) := by
  rw [launchWith_withStatus, runTx_withStatus st e b prof n h]

theorem exec_withStatus (s : State) (i : Instr) : exec i (s.withStatus st e) = exec i s := by
  cases i with
  | nop => rfl
  | exec p ib n => exact launchWith_runTx_withStatus st e s s _ _ _ fun _ => rfl
  | pack w off => exact launchWith_withStatus st e s _ _
  | unpack w off => exact launchWith_withStatus st e s _ _
  | unpacks w off => exact launchWith_withStatus st e s _ _
  | sext w => exact launchWith_withStatus st e s _ _
  | uenc c => exact launchWith_withStatus st e s _ _
  | udec c => exact launchWith_withStatus st e s _ _
  | setp p r => exact launchWith_runTx_withStatus st e s (s.memWrite 0 (s.setFrame r)) _ _ _ fun _ => rfl
  | getp p r => exact launchWith_runTx_withStatus st e s (s.memWrite 0 (s.getFrame r)) _ _ _ fun _ => rfl
  | cmd p c d aw => exact launchWith_runTx_withStatus st e s (s.memWrite 0 (s.cmdFrame c d aw)) _ _ _ fun _ => rfl
  | encrd p r12 =>
    exact launchWith_runTx_withStatus st e s (s.memWrite 0 s.encFrame) _ _ _ fun t => encCheck_withStatus st e t r12
  | encchk r12 => exact congrArg Host.Outcome.next (encCheck_withStatus st e s r12)

end

end Sys2Proof.Machine

namespace Sys2Proof.Proofs

open Sys2Proof.Machine

/-- Settles O20: the fixup is one exchange; the select phase that follows leaves the clock alone. -/
theorem fixupSetsClockBeforeSelect : Obligations.FixupSetsClockBeforeSelect := by
  intro s t hp hs
  have hs : s.fixupPhase = .ok t := by rwa [State.seqStep, hp] at hs
  rcases s.fixupPhase_spec with ⟨e, -⟩ | ⟨fa, c, d, e, -, hc, -⟩ <;> rw [e] at hs <;> cases hs
  refine ⟨fa, rfl, rfl, rfl, rfl, rfl, rfl, ?_, _, rfl, rfl, rfl⟩
  rintro ⟨rx, rfl⟩
  exact hc rx rfl

/-- Settles O21: `LinesOk` holds at the launch and every move of the lines keeps it. -/
theorem selectLinesStayExclusive : Obligations.SelectLinesStayExclusive := by
  refine ⟨fun s prof len h => LinesHigh.linesOk (s := s.beginTx prof len) h,
    fun s t hn hs h => (seqStep_lineMove h).linesOk hn hs, fun s hs => ⟨fun j k hj hk hbj hbk => ?_, fun hp => ?_⟩⟩
  · rw [hs.eq_psel hj hbj, hs.eq_psel hk hbk]
  · exact hs.linesHigh (by rw [hp]; rfl)

/-- Settles O47: every phase and every check commutes with a change of the two registers. -/
theorem statusIsNeverRead : Obligations.StatusIsNeverRead := fun s i st e => exec_withStatus st e s i

end Sys2Proof.Proofs
end

section
/-! The host register port, register by register: what a write stores (R21, R22, R31 to R37, R46) and what a read returns. -/

namespace Sys2Proof.Machine

/-! ### Fields of a word as numbers -/

/-- Two fields side by side. -/
theorem toNat_append_eq_add {m n : Nat} (x : BitVec m) (y : BitVec n) : (x ++ y).toNat = x.toNat * 2 ^ n + y.toNat := by
  rw [BitVec.toNat_append, ← Nat.shiftLeft_add_eq_or_of_lt y.isLt, Nat.shiftLeft_eq]

/-- A field put in above the bits of a word. -/
theorem toNat_or_field {m k : Nat} (a : Word) (x : BitVec m) (ha : a.toNat < 2 ^ k) (hk : m + k ≤ 32) :
    (a ||| (x.setWidth 32 <<< k)).toNat = a.toNat + x.toNat * 2 ^ k := by
  have hx : x.toNat * 2 ^ k < 2 ^ 32 := calc
    x.toNat * 2 ^ k < 2 ^ m * 2 ^ k := Nat.mul_lt_mul_of_pos_right x.isLt (Nat.two_pow_pos k)
    _ = 2 ^ (m + k) := (Nat.pow_add ..).symm
    _ ≤ 2 ^ 32 := Nat.pow_le_pow_right (by omega) hk
  rw [BitVec.toNat_or, BitVec.toNat_shiftLeft, BitVec.toNat_setWidth_of_le (by omega), Nat.shiftLeft_eq,
    Nat.mod_eq_of_lt hx, Nat.or_comm, ← Nat.shiftLeft_eq, ← Nat.shiftLeft_add_eq_or_of_lt ha, Nat.shiftLeft_eq, Nat.add_comm]

theorem flagBit_eq (b : Bool) (k : Nat) : flagBit b k = (BitVec.ofBool b).setWidth 32 <<< k := by
  cases b
  · simp [flagBit]
  · rfl

/-- A flag put in above the bits of a word. -/
theorem toNat_or_flagBit {k : Nat} (a : Word) (b : Bool) (ha : a.toNat < 2 ^ k) (hk : k < 32) :
    (a ||| flagBit b k).toNat = a.toNat + b.toNat * 2 ^ k := by
  rw [flagBit_eq, toNat_or_field a _ ha (by omega), BitVec.toNat_ofBool]

/-- A field of a word as a quotient. -/
theorem extractLsb'_eq_ofNat_div (v : Word) (k n : Nat) : v.extractLsb' k n = BitVec.ofNat n (v.toNat / 2 ^ k) := by
  rw [← Nat.shiftRight_eq_div_pow]; rfl

theorem set_getD_self {α : Type} (l : List α) (p : Nat) (d : α) : l.set p (l.getD p d) = l := by
  by_cases h : p < l.length
  · rw [List.getD_eq_getElem _ _ h, List.set_getElem_self]
  · exact List.set_eq_of_length_le (by omega)

/-! ### What a register write stores -/

section

variable {s : State}

/-- A write to a word of an uncommitted profile that does not commit it stores the word (R31, R32). -/
theorem writeProf_store {p : Nat} {w : ProfWord} {v : Word} (hv : (s.profAt p).valid = false)
    (hc : commitsProfile w v = false) :
    s.writeProf p w v = { s with profs := s.profs.set p ((s.profAt p).writeWord w v) } := by
  simp only [State.writeProf, hv, hc, Bool.false_eq_true, if_false]

/-- A write of `PCTL` with bit 0 set commits (R32, R33). -/
theorem writeProf_commit {p : Nat} {v : Word} (hv : (s.profAt p).valid = false) (hb : v.getLsbD 0 = true) :
    s.writeProf p .pctl v = (s.commitProf p).padSetup (s.lineOf p) := by
  simp only [State.writeProf, hv, commitsProfile, hb, Bool.false_eq_true, if_false, if_true, Profile.writeWord]
  rfl

/-- A write of `PCTL` with bit 0 clear has no effect (R32). -/
theorem writeProf_pctl_clear {p : Nat} {v : Word} (hv : (s.profAt p).valid = false) (hb : v.getLsbD 0 = false) :
    s.writeProf p .pctl v = s := by
  have he : (s.profAt p).writeWord .pctl v = s.profAt p := by rw [Profile.writeWord, hb, ← hv]
  rw [writeProf_store hv (w := .pctl) hb, he, State.profAt, set_getD_self]

theorem writeRegSpec_store {r : Nat} {v : Word} (hv : (s.regAt r).valid = false) :
    s.writeRegSpec r v = { s with regspecs := s.regspecs.set r (regSpecOfWord v) } := by
  simp only [State.writeRegSpec, hv, Bool.false_eq_true, if_false]

theorem writeConv_store {c : Nat} {w : ConvWord} {v : Word} (hv : (s.convAt c).valid = false) :
    s.writeConv c w v = { s with convs := s.convs.set c ((s.convAt c).writeWord w v) } := by
  simp only [State.writeConv, hv, Bool.false_eq_true, if_false]

/-- The reserved word ignores writes (R36). -/
theorem writeConv_reserved (s : State) (c : Nat) (v : Word) : s.writeConv c .reserved v = s := by
  unfold State.writeConv
  split
  · rfl
  · rw [Conv.writeWord, State.convAt, set_getD_self]

end

/-- The read-only control registers of the map (R46). -/
theorem regAtOffset_readOnly (c : Params) {off : BitVec 16}
    (h : off ∈ [0x0004#16, 0x0008#16, 0x0018#16, 0x001C#16, 0x0020#16, 0x0024#16, 0x0028#16]) :
    ∃ r, regAtOffset c off = some r ∧ r ≠ .op ∧ ∀ (s : State) v, s.writeReg r v = s := by
  simp only [List.mem_cons, List.not_mem_nil, or_false] at h
  rcases h with rfl | rfl | rfl | rfl | rfl | rfl | rfl <;> exact ⟨_, rfl, nofun, fun _ _ => rfl⟩

section

variable {s : State} {off : BitVec 16} {v : Word} {rest : List Input}

/-- A write to a register other than `OP` ends in what `writeReg` makes of it, acknowledged. -/
theorem Serves.write_eq (h : Serves s (.write off v) rest) {r : HostReg} {t : State} (hr : regAtOffset s.cfg off = some r)
    (ho : r ≠ .op) (ht : ({ s with inputs := rest } : State).writeReg r v = t) : step s = .next (t.ack none) := by
  rw [h.write_reg hr ho, ht]

/-- A write that its register ignores is acknowledged and does nothing else. -/
theorem Serves.write_ignored (h : Serves s (.write off v) rest) {r : HostReg} (hr : regAtOffset s.cfg off = some r)
    (ho : r ≠ .op) (hw : ∀ u : State, u.writeReg r v = u) :
    step s = .next { s with inputs := rest, answer := some ⟨false, none⟩ } :=
  h.write_eq hr ho (hw _)

/-- A write to word `n` of an uncommitted profile that does not commit it. -/
theorem Serves.write_prof (h : Serves s (.write off v) rest) (hl : s.cfg.legal = true) {p n : Nat} (hp : p < s.cfg.nprof)
    (hn : n < 8) (hv : (s.profAt p).valid = false) (hc : commitsProfile (profWord n) v = false)
    (ho : off = BitVec.ofNat 16 (0x1000 + 4 * n + 0x20 * p)) :
    step s = .next { s with
      inputs := rest, answer := some ⟨false, none⟩,
      profs := s.profs.set p ((s.profAt p).writeWord (profWord n) v) } := by
  subst ho
  exact h.write_eq (regAtOffset_prof hl hp hn) nofun (writeProf_store (s := { s with inputs := rest }) hv hc)

theorem Serves.write_regspec (h : Serves s (.write off v) rest) (hl : s.cfg.legal = true) {r : Nat} (hr : r < s.cfg.nreg)
    (hv : (s.regAt r).valid = false) (ho : off = BitVec.ofNat 16 (0x3000 + 4 * r)) :
    step s = .next { s with
      inputs := rest, answer := some ⟨false, none⟩, regspecs := s.regspecs.set r (regSpecOfWord v) } := by
  subst ho
  exact h.write_eq (regAtOffset_regspec hl hr) nofun (writeRegSpec_store (s := { s with inputs := rest }) hv)

theorem Serves.write_conv (h : Serves s (.write off v) rest) (hl : s.cfg.legal = true) {c n : Nat} (hc : c < s.cfg.nconv)
    (hn : n < 4) (hv : (s.convAt c).valid = false) (ho : off = BitVec.ofNat 16 (0x4000 + 4 * n + 0x10 * c)) :
    step s = .next { s with
      inputs := rest, answer := some ⟨false, none⟩,
      convs := s.convs.set c ((s.convAt c).writeWord (convWord n) v) } := by
  subst ho
  exact h.write_eq (regAtOffset_conv hl hc hn) nofun (writeConv_store (s := { s with inputs := rest }) hv)

end

/-! ### What a register read returns -/

/-- The value of a read that is not refused is the register's. -/
theorem Serves.read_value {s t : State} {off : BitVec 16} {rest : List Input} {v : Word} {r : HostReg}
    (h : Serves s (.read off) rest) (ht : step s = .next t) (ha : t.answer = some ⟨false, some v⟩)
    (hr : regAtOffset s.cfg off = some r) : v = s.readReg r := by
  rw [h.read_eq, hr] at ht
  cases ht
  cases ha
  rfl

theorem toNat_phyh (s : State) : (s.readReg .phyh).toNat = s.phy.toNat / 2 ^ 32 := by
  have := s.phy.isLt
  simp only [State.readReg, BitVec.toNat_setWidth, BitVec.toNat_ushiftRight, Nat.shiftRight_eq_div_pow]
  omega

/-- The lines above `NSEL` read as 0 (R28). -/
theorem toNat_and_allHigh (w : Word) {n : Nat} (h : n ≤ 32) : (w &&& allHigh n).toNat = w.toNat % 2 ^ n :=
  toNat_and_maskBits w h

/-- `BUSST` as read (R29): `MODEV` in bit 2, the mode below it where it is valid. -/
theorem busstWord_fields (s : State) :
    s.busstWord.toNat < 8 ∧ s.busstWord.getLsbD 2 = s.modev ∧
      (s.modev = true → s.busstWord.toNat % 4 = s.busmode.toNat) := by
  cases hm : s.modev
  · have e : s.busstWord = (s.any 2).setWidth 32 := by simp [State.busstWord, hm]
    have := (s.any 2).isLt
    refine ⟨?_, ?_, nofun⟩
    · rw [e, BitVec.toNat_setWidth_of_le (by omega)]; omega
    · rw [e, BitVec.getLsbD_setWidth, BitVec.getLsbD_of_ge _ _ (le_refl 2), Bool.and_false]
  · have e : s.busstWord.toNat = s.busmode.toNat + 4 := by
      have := s.busmode.isLt
      simp only [State.busstWord, hm, if_true]
      rw [toNat_or_flagBit _ _ _ (by omega), BitVec.toNat_setWidth_of_le (by omega)]
      · rfl
      · rw [BitVec.toNat_setWidth_of_le (by omega)]; omega
    have := s.busmode.isLt
    refine ⟨by omega, ?_, fun _ => by omega⟩
    rw [BitVec.getLsbD, Nat.testBit_eq_decide_div_mod_eq, e, decide_eq_true_eq]
    omega

theorem toNat_capWord {c : Params} (h : c.legal = true) :
    (capWord c).toNat =
      (c.nprof - 1) + (c.nreg - 1) * 2 ^ 8 + (c.nconv - 1) * 2 ^ 16 + (c.bufsz - 1) * 2 ^ 24 := by
  have hl := (Params.legal_iff c).mp h
  simp only [capWord, toNat_append_eq_add, BitVec.toNat_ofNat]
  omega

theorem toNat_protoWord (c : Params) : (protoWord c).toNat = c.getTag.toNat * 2 ^ 8 + c.dirFlag.toNat * 2 ^ 16 := by
  have h1 : Config.fixupByte.toNat = 0 := rfl
  have h2 : Config.setTag.toNat = 0 := rfl
  simp only [protoWord, toNat_append_eq_add, h1, h2]
  omega

/-- `VALID` as `PCTL` shows it (R31). -/
theorem toNat_flagBit_zero (b : Bool) : (flagBit b 0).toNat = b.toNat := by cases b <;> rfl

theorem toNat_regSpec_readWord (e : RegSpec) :
    e.readWord.toNat = e.addr.toNat + e.width.toNat * 2 ^ 8 + e.acc.toNat * 2 ^ 16 + e.sgn.toNat * 2 ^ 20 +
      e.valid.toNat * 2 ^ 31 := by
  have h1 := e.addr.isLt
  have h2 := e.width.isLt
  have h3 := e.acc.isLt
  have h4 := e.sgn.toNat_le
  have a : (e.addr.setWidth 32).toNat = e.addr.toNat := BitVec.toNat_setWidth_of_le (by omega)
  have b := toNat_or_field (k := 8) (e.addr.setWidth 32) e.width (by omega) (by omega)
  have c := toNat_or_field (k := 16) _ e.acc (by rw [b]; omega) (by omega)
  have d := toNat_or_flagBit (k := 20) _ e.sgn (by rw [c]; omega) (by omega)
  have f := toNat_or_flagBit (k := 31) _ e.valid (by rw [d]; omega) (by omega)
  rw [RegSpec.readWord, f, d, c, b, a]

theorem toNat_conv_cctl (e : Conv) :
    (e.readWord .cctl).toNat = e.width.toNat + e.rnd.toNat * 2 ^ 8 + e.valid.toNat * 2 ^ 31 := by
  have h1 := e.width.isLt
  have h2 := e.rnd.isLt
  have a : (e.width.setWidth 32).toNat = e.width.toNat := BitVec.toNat_setWidth_of_le (by omega)
  have b := toNat_or_field (k := 8) (e.width.setWidth 32) e.rnd (by omega) (by omega)
  have c := toNat_or_flagBit (k := 31) _ e.valid (by rw [b]; omega) (by omega)
  rw [Conv.readWord, c, b, a]

end Sys2Proof.Machine

namespace Sys2Proof.Proofs

open Sys2Proof.Machine

/-- Settles O55: each offset names its register, and a read returns what `readReg` gives for it. -/
theorem hostReadsReturnRegisters : Obligations.HostReadsReturnRegisters := by
  intro s t off rest hl hi ht v ha
  have hn := Params.nsel_le hl
  have value : ∀ {o : BitVec 16} {r : HostReg}, regAtOffset s.cfg o = some r → off = o → v = s.readReg r :=
    fun hr ho => hi.read_value ht ha (ho ▸ hr)
  have nat : ∀ {o : BitVec 16} {r : HostReg} {n : Nat}, regAtOffset s.cfg o = some r → (s.readReg r).toNat = n → off = o →
      v.toNat = n := fun hr hv ho => by rw [value hr ho, hv]
  refine ⟨value (r := .op) rfl, value (r := .status) rfl, value (r := .errinfo) rfl, value (r := .val) rfl,
    nat (r := .phyl) rfl (BitVec.toNat_setWidth ..), nat (r := .phyh) rfl (toNat_phyh s),
    nat (r := .cslvl) rfl (toNat_and_allHigh _ hn), nat (r := .csoe) rfl (toNat_and_allHigh _ hn), ?busst,
    nat (r := .cap) rfl (toNat_capWord hl), nat (r := .proto) rfl (toNat_protoWord _), ?prof, ?regspec, ?conv, ?buf⟩
  case busst =>
    intro ho
    rw [value (r := .busst) rfl ho]
    exact busstWord_fields s
  case prof =>
    intro p hp
    have word {n : Nat} (h : n < 8) := regAtOffset_prof hl hp h
    exact ⟨nat (word (n := 0) (by omega)) (BitVec.toNat_setWidth_of_le (by omega)), value (word (n := 1) (by omega)),
      nat (word (n := 2) (by omega)) (BitVec.toNat_setWidth_of_le (by omega)), value (word (n := 3) (by omega)),
      value (word (n := 4) (by omega)), value (word (n := 5) (by omega)), value (word (n := 6) (by omega)),
      nat (word (n := 7) (by omega)) (toNat_flagBit_zero _)⟩
  case regspec => exact fun r hr => nat (regAtOffset_regspec hl hr) (toNat_regSpec_readWord _)
  case conv =>
    intro c hc
    have word {n : Nat} (h : n < 4) := regAtOffset_conv hl hc h
    exact ⟨value (word (n := 0) (by omega)), value (word (n := 1) (by omega)),
      nat (word (n := 2) (by omega)) (toNat_conv_cctl _), value (word (n := 3) (by omega))⟩
  case buf => exact fun i hb => nat (regAtOffset_buf hl hb) (BitVec.toNat_setWidth_of_le (by omega))

/-- Settles O56: each offset names its register; the read-only ones and the reserved word ignore the write. -/
theorem hostWritesOperandsAndBuffer : Obligations.HostWritesOperandsAndBuffer := by
  intro s off v rest hl hi
  refine ⟨?val, ?phyl, ?phyh, ?buf, ?readOnly, ?reserved⟩
  case val =>
    rintro rfl
    exact hi.write_reg (r := .val) rfl nofun
  case phyl =>
    rintro rfl
    refine ⟨_, hi.write_reg (r := .phyl) rfl nofun, (toNat_append_eq_add ..).trans ?_⟩
    exact congrArg (· * 2 ^ 32 + v.toNat) (toNat_phyh s)
  case phyh =>
    rintro rfl
    refine ⟨_, hi.write_reg (r := .phyh) rfl nofun, (toNat_append_eq_add ..).trans ?_⟩
    rw [BitVec.toNat_setWidth]
  case buf =>
    rintro i hb rfl
    refine ⟨_, _, hi.write_reg (regAtOffset_buf hl hb) nofun, rfl, fun a => ?_⟩
    refine (State.bufGet_memWrite s i a [v.setWidth 8]).trans ?_
    by_cases ha : a = i
    · subst ha
      rw [if_pos (le_refl a), Nat.sub_self, if_pos rfl]
      apply BitVec.eq_of_toNat_eq
      simp
    · rw [if_neg ha]
      split
      · rw [List.getElem?_eq_none (by simp; omega), Option.getD_none]
      · rfl
  case readOnly =>
    intro h
    obtain ⟨r, hr, ho, hw⟩ := regAtOffset_readOnly s.cfg h
    exact hi.write_ignored hr ho fun s => hw s v
  case reserved =>
    rintro c hc rfl
    exact hi.write_ignored (regAtOffset_conv (n := 3) hl hc (by omega)) nofun fun s => writeConv_reserved s c v

/-- Settles O57: the commit is the entry's `VALID`, then the pad setup of its line. -/
theorem profileCommitSetsUpPad : Obligations.ProfileCommitSetsUpPad := by
  intro s p v rest hl hp hi hv hb
  rw [hi.write_eq (regAtOffset_prof (n := 7) hl hp (by omega)) nofun
    (writeProf_commit (s := { s with inputs := rest }) hv hb)]
  constructor
  · intro hk
    have hk32 := Nat.lt_of_lt_of_le hk (Params.nsel_le hl)
    have bits : ∀ (w : Word) j, (setBit w (s.lineOf p) true).getLsbD j = (w.getLsbD j || decide (j = s.lineOf p)) := by
      intro w j
      rw [getLsbD_setBit]
      by_cases hj : j = s.lineOf p
      · simp [hj, hk32]
      · simp [hj]
    refine ⟨_, _, ?_, bits s.cslvl, bits s.csoe⟩
    rw [State.padSetup_of_lt (by exact hk)]
    simp only [State.ack, State.csDirOut, State.csSet, State.commitProf, List.append_assoc, List.singleton_append]
    rfl
  · intro hk
    rw [State.padSetup_of_le (by exact hk)]
    rfl

/-- Settles O58: a write to an uncommitted entry stores the fields of its word. -/
theorem uncommittedEntriesStoreWrites : Obligations.UncommittedEntriesStoreWrites := by
  intro s off v rest hl hi
  refine ⟨?prof, ?regspec, ?conv⟩
  case prof =>
    rintro p hp hv e rfl
    have store {n : Nat} (hn : n < 8) := hi.write_prof (n := n) hl hp hn hv
    rw [BitVec.ofNat_toNat, BitVec.ofNat_toNat]
    refine ⟨store (n := 0) (by omega) rfl, store (n := 1) (by omega) rfl, store (n := 2) (by omega) rfl,
      store (n := 3) (by omega) rfl, store (n := 4) (by omega) rfl, store (n := 5) (by omega) rfl,
      store (n := 6) (by omega) rfl, ?_⟩
    rintro rfl hb
    exact hi.write_eq (regAtOffset_prof (n := 7) hl hp (by omega)) nofun
      (writeProf_pctl_clear (s := { s with inputs := rest }) hv hb)
  case regspec =>
    intro r hr hv ho
    rw [hi.write_regspec hl hr hv ho, regSpecOfWord]
    simp only [extractLsb'_eq_ofNat_div, Nat.pow_zero, Nat.div_one]
  case conv =>
    rintro c hc hv e rfl
    have store {n : Nat} (hn : n < 4) := hi.write_conv (n := n) hl hc hn hv
    refine ⟨store (n := 0) (by omega), store (n := 1) (by omega), fun ho => ?_⟩
    rw [store (n := 2) (by omega) ho, convWord, Conv.writeWord]
    simp only [extractLsb'_eq_ofNat_div, Nat.pow_zero, Nat.div_one]

end Sys2Proof.Proofs
end

section
/-! Accesses beside the register map (20_memory.md R63): `mappedOffset` decides whether `regAtOffset` names a register, and
the rules of `Serves` say what an access does in either case. -/

namespace Sys2Proof.Machine

section

variable {c : Params} {off : BitVec 16}

theorem regAtOffset_eq_none_of_unmapped (hl : c.legal = true) (hm : mappedOffset c off.toNat = false) :
    regAtOffset c off = none := by
  rwa [← regAtOffset_isSome hl, Option.isSome_eq_false_iff, Option.isNone_iff_eq_none] at hm

theorem exists_regAtOffset_of_mapped (hl : c.legal = true) (hm : mappedOffset c off.toNat = true) :
    ∃ r, regAtOffset c off = some r := by
  rwa [← regAtOffset_isSome hl, Option.isSome_iff_exists] at hm

end

/-- A write to a register is never refused, the launch of an operation among them (R62). -/
theorem Serves.answer_of_write {s t : State} {off : BitVec 16} {v : Word} {rest : List Input} {r : HostReg}
    (h : Serves s (.write off v) rest) (hr : regAtOffset s.cfg off = some r) (ht : step s = .next t) :
    t.answer = some ⟨false, none⟩ := by
  cases h.served ht with
  | launch w u hu => exact State.ack_answer u none
  | unmapped _ _ hn => cases hr.symm.trans hn
  | register _ _ r' _ _ => exact State.ack_answer _ none

end Sys2Proof.Machine

namespace Sys2Proof.Proofs

open Sys2Proof.Machine

/-- Settles O54: an offset names a register exactly if it is in the map, and what an access does turns on that alone. -/
theorem unmappedAccessIsRefused : Obligations.UnmappedAccessIsRefused := by
  intro s off rest hl
  refine ⟨?writeUnmapped, ?readUnmapped, ?readMapped, ?writeMapped⟩
  case writeUnmapped =>
    intro v hm hi
    exact hi.write_unmapped (regAtOffset_eq_none_of_unmapped hl hm)
  case readUnmapped =>
    intro hm hi
    rw [hi.read_eq, regAtOffset_eq_none_of_unmapped hl hm]
    exact ⟨_, rfl⟩
  case readMapped =>
    intro hm hi
    obtain ⟨r, hr⟩ := exists_regAtOffset_of_mapped hl hm
    rw [hi.read_eq, hr]
    exact ⟨_, rfl⟩
  case writeMapped =>
    intro v t hm hi ht
    obtain ⟨r, hr⟩ := exists_regAtOffset_of_mapped hl hm
    exact hi.answer_of_write hr ht

end Sys2Proof.Proofs
end

section
/-! The operation word: the encoder against the assembler's arithmetic and against the decoder (30_encoding.md R91 to R102).
An operation's word is read back through the row it matches (`rowOf`) and the fields of that row (`reread`). -/

namespace Sys2Proof.Laws

open Sys2Proof.Machine

/-! ### The encoder's word as a number -/

/-- The operation word as a number: the top byte and each operand field at its weight (R92 to R98). -/
def wordNumber : Instr → Nat
  | .nop => 0
  | .exec prof ib len => 0x10000000 + prof * 2 ^ 16 + ib.toNat * 2 ^ 9 + len
  | .pack w off => 0x20000000 + w * 2 ^ 16 + off
  | .unpack w off => 0x21000000 + w * 2 ^ 16 + off
  | .unpacks w off => 0x22000000 + w * 2 ^ 16 + off
  | .sext w => 0x23000000 + w * 2 ^ 16
  | .uenc conv => 0x30000000 + conv * 2 ^ 16
  | .udec conv => 0x31000000 + conv * 2 ^ 16
  | .setp prof reg => 0x40000000 + prof * 2 ^ 16 + reg * 2 ^ 8
  | .getp prof reg => 0x41000000 + prof * 2 ^ 16 + reg * 2 ^ 8
  | .cmd prof cmdByte dir aw => 0x50000000 + prof * 2 ^ 16 + cmdByte.toNat * 2 ^ 8 + dir.toNat * 2 ^ 7 + aw
  | .encrd prof r12 => 0x60000000 + prof * 2 ^ 16 + r12.toNat
  | .encchk r12 => 0x61000000 + r12.toNat

@[simp] theorem fitsIndex_iff {n : Nat} : fitsIndex n = true ↔ n < 256 := decide_eq_true_iff

@[simp] theorem fitsLength_iff {n : Nat} : fitsLength n = true ↔ n < 512 := decide_eq_true_iff

@[simp] theorem fitsWidth_iff {n : Nat} : fitsWidth n = true ↔ n < 64 := decide_eq_true_iff

/-- No field of a well-formed operation is cut by the encoder. -/
theorem toNat_encode {i : Instr} (h : i.wf = true) : (encode i).toNat = wordNumber i := by
  cases i <;>
    simp only [Instr.wf, Bool.and_eq_true, fitsIndex_iff, fitsLength_iff, fitsWidth_iff] at h <;>
    simp only [encode, wordNumber, toNat_append_eq_add, BitVec.toNat_ofNat, BitVec.toNat_ofBool] <;>
    omega

/-- A field joined by OR below the bits that are in use is added. -/
theorem or_eq_add_of_dvd {m x n : Nat} (hm : 2 ^ n ∣ m) (hx : x < 2 ^ n) : m ||| x = m + x := by
  obtain ⟨a, rfl⟩ := hm
  exact (Nat.two_pow_add_eq_or_of_lt hx a).symm

theorem or_shiftLeft_eq_add_of_dvd {m x n k : Nat} (hm : 2 ^ (n + k) ∣ m) (hx : x < 2 ^ n) :
    m ||| x <<< k = m + x * 2 ^ k := by
  rw [Nat.shiftLeft_eq]
  exact or_eq_add_of_dvd hm (by rw [Nat.pow_add]; exact Nat.mul_lt_mul_of_pos_right hx (Nat.two_pow_pos k))

/-- The field of an 8-bit index, or of a width, beside the top byte. -/
theorem or_index_eq_add {m x : Nat} (hm : 2 ^ 24 ∣ m) (hx : x < 256) : m ||| x <<< 16 = m + x * 2 ^ 16 :=
  or_shiftLeft_eq_add_of_dvd (n := 8) hm hx

/-- The assembler's ORs (R102) never meet a bit that is set. -/
theorem asmWord_eq_wordNumber {i : Instr} (h : i.wf = true) : asmWord i = wordNumber i := by
  cases i <;>
    simp only [Instr.wf, Bool.and_eq_true, fitsIndex_iff, fitsLength_iff, fitsWidth_iff] at h <;>
    simp only [asmWord, wordNumber]
  case exec prof ib len =>
    obtain ⟨hprof, hlen⟩ := h
    rw [or_index_eq_add (by decide) hprof, or_shiftLeft_eq_add_of_dvd (n := 1) (by omega) ib.toNat_lt,
      or_eq_add_of_dvd (n := 9) (by omega) hlen]
  case pack w off | unpack w off | unpacks w off =>
    obtain ⟨hw, hoff⟩ := h
    rw [or_index_eq_add (by decide) (by omega), or_eq_add_of_dvd (n := 8) (by omega) hoff]
  case sext w => exact or_index_eq_add (by decide) (by omega)
  case uenc conv | udec conv => exact or_index_eq_add (by decide) h
  case setp prof reg | getp prof reg =>
    obtain ⟨hprof, hreg⟩ := h
    rw [or_index_eq_add (by decide) hprof, or_shiftLeft_eq_add_of_dvd (n := 8) (by omega) hreg]
  case cmd prof cmdByte dir aw =>
    obtain ⟨hprof, haw⟩ := h
    rw [or_index_eq_add (by decide) hprof, or_shiftLeft_eq_add_of_dvd (n := 8) (by omega) cmdByte.isLt,
      or_shiftLeft_eq_add_of_dvd (n := 1) (by omega) dir.toNat_lt, or_eq_add_of_dvd (n := 6) (by omega) haw]
  case encrd prof r12 =>
    rw [or_index_eq_add (by decide) h, or_eq_add_of_dvd (n := 1) (by omega) r12.toNat_lt]
  case encchk r12 => exact or_eq_add_of_dvd (n := 1) (by decide) r12.toNat_lt

/-! ### The rows of the opcode map -/

/-- One operation of each row, in the order of the opcode map (R100). -/
def rowSamples : List Instr :=
  [.nop, .exec 0 false 0, .pack 0 0, .unpack 0 0, .unpacks 0 0, .sext 0, .uenc 0, .udec 0, .setp 0 0, .getp 0 0,
    .cmd 0 0 false 0, .encrd 0 false, .encchk false]

theorem opcodeMap_eq : opcodeMap = rowSamples.map rowOf := rfl

theorem rowOf_injOn_samples : ∀ i ∈ rowSamples, ∀ j ∈ rowSamples, rowOf i = rowOf j → i = j := by decide

theorem hits_iff {r : OpcodeRow} {w : Word} : r.hits w = true ↔ w &&& r.mask = r.pattern := beq_iff_eq

/-- Two different rows differ in a bit that both of them fix. -/
theorem opcodeMap_patterns_differ :
    ∀ r ∈ opcodeMap, ∀ q ∈ opcodeMap, r.pattern &&& q.mask = q.pattern &&& r.mask → r = q := by decide

/-- A word matches one row at most (R91). -/
theorem row_unique {r q : OpcodeRow} {w : Word} (hr : r ∈ opcodeMap) (hq : q ∈ opcodeMap) (h : r.hits w = true)
    (h' : q.hits w = true) : r = q := by
  refine opcodeMap_patterns_differ r hr q hq ?_
  rw [← hits_iff.mp h, ← hits_iff.mp h', BitVec.and_assoc, BitVec.and_assoc, BitVec.and_comm r.mask]

/-! ### The decoder -/

/-- The operation of the row of `i` with the operand fields of `w` (R92 to R98). -/
def reread (i : Instr) (w : Word) : Instr :=
  match i with
  | .nop => .nop
  | .exec _ _ _ => .exec (field w 16 8) (w.getLsbD 9) (field w 0 9)
  | .pack _ _ => .pack (field w 16 6) (field w 0 8)
  | .unpack _ _ => .unpack (field w 16 6) (field w 0 8)
  | .unpacks _ _ => .unpacks (field w 16 6) (field w 0 8)
  | .sext _ => .sext (field w 16 6)
  | .uenc _ => .uenc (field w 16 8)
  | .udec _ => .udec (field w 16 8)
  | .setp _ _ => .setp (field w 16 8) (field w 8 8)
  | .getp _ _ => .getp (field w 16 8) (field w 8 8)
  | .cmd _ _ _ _ => .cmd (field w 16 8) (w.extractLsb' 8 8) (w.getLsbD 7) (field w 0 6)
  | .encrd _ _ => .encrd (field w 16 8) (w.getLsbD 0)
  | .encchk _ => .encchk (w.getLsbD 0)

theorem rowOf_reread (i : Instr) (w : Word) : rowOf (reread i w) = rowOf i := by cases i <;> rfl

/-- Only its row decides what an operation reads from a word. -/
theorem reread_reread (i : Instr) (v w : Word) : reread (reread i v) w = reread i w := by cases i <;> rfl

theorem reread_zero_mem (i : Instr) : reread i 0 ∈ rowSamples := by
  cases i <;> simp [reread, rowSamples, field]

theorem rowOf_mem (i : Instr) : rowOf i ∈ opcodeMap := by
  rw [← rowOf_reread i 0]
  exact List.mem_map_of_mem (reread_zero_mem i)

/-- The decoder over a list of rows: the first one that matches gives the operation. -/
def firstRow (w : Word) : List Instr → Except IllegalWord Instr
  | [] => .error (illegalReason w)
  | k :: l => if (rowOf k).hits w then .ok (reread k w) else firstRow w l

theorem decode_eq_firstRow (w : Word) : decode w = firstRow w rowSamples := rfl

theorem firstRow_ok {w : Word} {i : Instr} {l : List Instr} (h : firstRow w l = .ok i) :
    ∃ k ∈ l, (rowOf k).hits w = true ∧ reread k w = i := by
  induction l with
  | nil => cases h
  | cons k l ih =>
    rw [firstRow] at h
    split at h
    case isTrue hk => cases h; exact ⟨k, List.mem_cons_self, hk, rfl⟩
    case isFalse =>
      obtain ⟨j, hj, hit⟩ := ih h
      exact ⟨j, List.mem_cons_of_mem k hj, hit⟩

/-- The only operation of the list whose row matches is the one found. -/
theorem firstRow_of_unique {w : Word} {k : Instr} {l : List Instr} (hk : k ∈ l) (h : (rowOf k).hits w = true)
    (hu : ∀ j ∈ l, (rowOf j).hits w = true → j = k) : firstRow w l = .ok (reread k w) := by
  induction l with
  | nil => cases hk
  | cons j l ih =>
    rw [firstRow]
    split
    case isTrue hj => rw [hu j List.mem_cons_self hj]
    case isFalse hj =>
      rcases List.mem_cons.mp hk with rfl | hk
      · exact absurd h hj
      · exact ih hk fun m hm => hu m (List.mem_cons_of_mem j hm)

/-- A word decodes to an operation exactly if it matches the operation's row and carries its operands (R91). -/
theorem decode_eq_ok_iff {w : Word} {i : Instr} :
    decode w = .ok i ↔ (rowOf i).hits w = true ∧ reread i w = i := by
  rw [decode_eq_firstRow]
  constructor
  · intro h
    obtain ⟨k, -, hk, rfl⟩ := firstRow_ok h
    exact ⟨by rwa [rowOf_reread], reread_reread k w w⟩
  · rintro ⟨h, hi⟩
    rw [← rowOf_reread i 0] at h
    rw [← hi, ← reread_reread i 0]
    refine firstRow_of_unique (reread_zero_mem i) h fun j hj hit => rowOf_injOn_samples j hj _ (reread_zero_mem i) ?_
    exact row_unique (rowOf_mem j) (rowOf_mem _) hit h

theorem decodes_iff_hits {w : Word} : (∃ i, decode w = .ok i) ↔ ∃ r ∈ opcodeMap, r.hits w = true := by
  constructor
  · rintro ⟨i, hi⟩
    exact ⟨rowOf i, rowOf_mem i, (decode_eq_ok_iff.mp hi).1⟩
  · rintro ⟨r, hr, hit⟩
    obtain ⟨k, -, rfl⟩ := List.mem_map.mp (opcodeMap_eq ▸ hr)
    exact ⟨reread k w, decode_eq_ok_iff.mpr ⟨by rwa [rowOf_reread], reread_reread k w w⟩⟩

/-! ### Decoding and encoding again -/

theorem field_eq (w : Word) (lo n : Nat) : field w lo n = w.toNat / 2 ^ lo % 2 ^ n := by
  rw [field, extractLsb'_eq_ofNat_div, BitVec.toNat_ofNat]

@[simp] theorem fitsIndex_field (w : Word) (lo : Nat) : fitsIndex (field w lo 8) = true :=
  fitsIndex_iff.mpr (BitVec.isLt _)

@[simp] theorem fitsLength_field (w : Word) (lo : Nat) : fitsLength (field w lo 9) = true :=
  fitsLength_iff.mpr (BitVec.isLt _)

@[simp] theorem fitsWidth_field (w : Word) (lo : Nat) : fitsWidth (field w lo 6) = true :=
  fitsWidth_iff.mpr (BitVec.isLt _)

/-- A one-bit operand as a field of one bit. -/
theorem toNat_getLsbD (w : Word) (k : Nat) : (w.getLsbD k).toNat = field w k 1 := by
  rw [field_eq, BitVec.getLsbD, Nat.toNat_testBit, Nat.pow_one]

theorem getLsbD_eq_iff {w : Word} {k : Nat} {b : Bool} : w.getLsbD k = b ↔ field w k 1 = b.toNat := by
  rw [← toNat_getLsbD]
  cases w.getLsbD k <;> cases b <;> decide

theorem extractLsb'_eq_iff {w : Word} {lo n : Nat} {b : BitVec n} : w.extractLsb' lo n = b ↔ field w lo n = b.toNat :=
  BitVec.toNat_inj.symm

theorem toNat_extractLsb' (w : Word) (lo n : Nat) : (w.extractLsb' lo n).toNat = field w lo n := rfl

theorem hits_encode (i : Instr) : (rowOf i).hits (encode i) = true := by
  cases i
  case nop => exact OwnRow.nop
  case exec => exact OwnRow.exec ..
  case pack => exact OwnRow.pack ..
  case unpack => exact OwnRow.unpack ..
  case unpacks => exact OwnRow.unpacks ..
  case sext => exact OwnRow.sext ..
  case uenc => exact OwnRow.uenc ..
  case udec => exact OwnRow.udec ..
  case setp => exact OwnRow.setp ..
  case getp => exact OwnRow.getp ..
  case cmd => exact OwnRow.cmd ..
  case encrd => exact OwnRow.encrd ..
  case encchk => exact OwnRow.encchk ..

/-- The fields of the encoder's word are the operands of the operation. -/
theorem reread_encode {i : Instr} (h : i.wf = true) : reread i (encode i) = i := by
  have hn := toNat_encode h
  cases i <;>
    simp only [Instr.wf, Bool.and_eq_true, fitsIndex_iff, fitsLength_iff, fitsWidth_iff] at h <;>
    simp only [reread, Instr.exec.injEq, Instr.pack.injEq, Instr.unpack.injEq, Instr.unpacks.injEq, Instr.sext.injEq,
      Instr.uenc.injEq, Instr.udec.injEq, Instr.setp.injEq, Instr.getp.injEq, Instr.cmd.injEq, Instr.encrd.injEq,
      Instr.encchk.injEq, getLsbD_eq_iff, extractLsb'_eq_iff, field_eq, hn, wordNumber]
  case exec _ b _ | cmd _ _ b _ | encrd _ b | encchk b =>
    have := b.toNat_lt
    omega
  all_goals omega

theorem wf_reread (i : Instr) (w : Word) : (reread i w).wf = true := by
  cases i <;> simp [reread, Instr.wf]

/-- Two words of one row agree in every field that the row fixes. -/
theorem quotient_eq_of_hits {r : OpcodeRow} {v w : Word} (lo n : Nat) (hv : r.hits v = true) (hw : r.hits w = true)
    (hm : r.mask.extractLsb' lo n = BitVec.allOnes n) : v.toNat / 2 ^ lo % 2 ^ n = w.toNat / 2 ^ lo % 2 ^ n := by
  have h := congrArg (BitVec.extractLsb' lo n) ((hits_iff.mp hv).trans (hits_iff.mp hw).symm)
  simp only [BitVec.extractLsb'_and, hm, BitVec.and_allOnes] at h
  rw [← field_eq, ← field_eq, field, field, h]

/-- Every row fixes `opc` and `sub`. -/
theorem mask_top : ∀ r ∈ opcodeMap, r.mask.extractLsb' 24 8 = BitVec.allOnes 8 := by decide

/-- A row's fixed fields and its operand fields are the whole word. -/
theorem eq_of_hits_of_reread_eq {i : Instr} {v w : Word} (hv : (rowOf i).hits v = true) (hw : (rowOf i).hits w = true)
    (h : reread i v = reread i w) : v = w := by
  apply BitVec.eq_of_toNat_eq
  have hlv := v.isLt
  have hlw := w.isLt
  have top := quotient_eq_of_hits 24 8 hv hw (mask_top _ (rowOf_mem i))
  cases i <;> simp only [rowOf] at hv hw <;>
    simp only [reread, Instr.exec.injEq, Instr.pack.injEq, Instr.unpack.injEq, Instr.unpacks.injEq, Instr.sext.injEq,
      Instr.uenc.injEq, Instr.udec.injEq, Instr.setp.injEq, Instr.getp.injEq, Instr.cmd.injEq, Instr.encrd.injEq,
      Instr.encchk.injEq, getLsbD_eq_iff, extractLsb'_eq_iff, toNat_getLsbD, toNat_extractLsb', field_eq] at h
  case nop =>
    have low := quotient_eq_of_hits 0 24 hv hw (by decide)
    omega
  case exec =>
    have mid := quotient_eq_of_hits 10 6 hv hw (by decide)
    omega
  case pack | unpack | unpacks =>
    have high := quotient_eq_of_hits 22 2 hv hw (by decide)
    have mid := quotient_eq_of_hits 8 8 hv hw (by decide)
    omega
  case sext =>
    have high := quotient_eq_of_hits 22 2 hv hw (by decide)
    have low := quotient_eq_of_hits 0 16 hv hw (by decide)
    omega
  case uenc | udec =>
    have low := quotient_eq_of_hits 0 16 hv hw (by decide)
    omega
  case setp | getp =>
    have low := quotient_eq_of_hits 0 8 hv hw (by decide)
    omega
  case cmd =>
    have mid := quotient_eq_of_hits 6 1 hv hw (by decide)
    omega
  case encrd =>
    have mid := quotient_eq_of_hits 1 15 hv hw (by decide)
    omega
  case encchk =>
    have mid := quotient_eq_of_hits 1 23 hv hw (by decide)
    omega

/-- The operands read from a word go back where they stood. -/
theorem encode_reread {i : Instr} {w : Word} (h : (rowOf i).hits w = true) : encode (reread i w) = w := by
  have hrow := hits_encode (reread i w)
  have hread := reread_encode (wf_reread i w)
  rw [rowOf_reread] at hrow
  rw [reread_reread] at hread
  exact eq_of_hits_of_reread_eq hrow h hread

/-! ### The illegal words -/

/-- The top byte of the words of a row: `opc` and `sub` (R91). -/
def topOf (r : OpcodeRow) : Nat := field r.pattern 24 8

/-- A row fixes the top byte and the reserved bits of R92 to R98, and nothing else. -/
theorem mask_eq : ∀ r ∈ opcodeMap, r.mask = 0xFF000000#32 ||| reservedBits (topOf r) := by decide

theorem pattern_eq : ∀ r ∈ opcodeMap, r.pattern = BitVec.ofNat 8 (topOf r) ++ 0#24 := by decide

theorem mask_and_reserved : ∀ r ∈ opcodeMap, r.mask &&& reservedBits (topOf r) = reservedBits (topOf r) := by decide

theorem pattern_and_reserved : ∀ r ∈ opcodeMap, r.pattern &&& reservedBits (topOf r) = 0 := by decide

theorem hits_pattern : ∀ r ∈ opcodeMap, r.hits r.pattern = true := by decide

theorem and_topMask (w : Word) : w &&& 0xFF000000#32 = BitVec.ofNat 8 (field w 24 8) ++ 0#24 := by
  rw [field, BitVec.ofNat_toNat, BitVec.setWidth_eq]
  refine OwnRow.word_ext fun j => ?_
  simp only [BitVec.getLsbD_and, BitVec.getLsbD_append]
  fin_cases j <;> simp

/-- What a row asks of a word: its top byte, and the reserved bits clear. -/
theorem hits_iff_top {r : OpcodeRow} {w : Word} (hr : r ∈ opcodeMap) :
    r.hits w = true ↔ field w 24 8 = topOf r ∧ w &&& reservedBits (topOf r) = 0 := by
  constructor
  · intro h
    refine ⟨?_, ?_⟩
    · rw [topOf, field_eq, field_eq]
      exact quotient_eq_of_hits 24 8 h (hits_pattern r hr) (mask_top r hr)
    · rw [← mask_and_reserved r hr, ← BitVec.and_assoc, hits_iff.mp h, pattern_and_reserved r hr]
  · rintro ⟨top, clear⟩
    rw [hits_iff, mask_eq r hr, BitVec.and_or_distrib_left, and_topMask, top, clear, pattern_eq r hr]
    exact BitVec.or_zero

theorem topOf_opcodeMap : opcodeMap.map topOf =
    [0x00, 0x10, 0x20, 0x21, 0x22, 0x23, 0x30, 0x31, 0x40, 0x41, 0x50, 0x60, 0x61] := by decide

theorem exists_topOf_iff {n : Nat} : (∃ r ∈ opcodeMap, n = topOf r) ↔
    n ∈ [0x00, 0x10, 0x20, 0x21, 0x22, 0x23, 0x30, 0x31, 0x40, 0x41, 0x50, 0x60, 0x61] := by
  rw [← topOf_opcodeMap, List.mem_map]
  simp only [eq_comm]

/-- A word is legal by its top byte and by the reserved bits that go with it. -/
theorem exists_hits_iff {w : Word} : (∃ r ∈ opcodeMap, r.hits w = true) ↔
    (∃ r ∈ opcodeMap, field w 24 8 = topOf r) ∧ w &&& reservedBits (field w 24 8) = 0 := by
  constructor
  · rintro ⟨r, hr, h⟩
    obtain ⟨top, clear⟩ := (hits_iff_top hr).mp h
    exact ⟨⟨r, hr, top⟩, top ▸ clear⟩
  · rintro ⟨⟨r, hr, top⟩, clear⟩
    exact ⟨r, hr, (hits_iff_top hr).mpr ⟨top, top ▸ clear⟩⟩

/-- With the top byte of NOP, whose other bits are reserved, only the word 0 is legal (R92). -/
theorem toNat_eq_zero_of_top {w : Word} (top : field w 24 8 = 0) (clear : w &&& reservedBits (field w 24 8) = 0) :
    w.toNat = 0 := by
  rw [top] at clear
  have h : rowNop.hits w = true := (hits_iff_top (by decide)).mpr ⟨top, clear⟩
  rw [← BitVec.and_allOnes (x := w)]
  exact (BitVec.toNat_eq ..).mp (hits_iff.mp h)

/-- R101's list leaves out exactly the words that match a row. -/
theorem illegalWord_iff {w : Word} : illegalWord w = true ↔ ¬ ∃ r ∈ opcodeMap, r.hits w = true := by
  have top : field w 24 8 = w.toNat / 2 ^ 24 := by
    have := w.isLt
    rw [field_eq]
    omega
  have zero := toNat_eq_zero_of_top (w := w)
  have ne_zero : w ≠ 0 ↔ w.toNat ≠ 0 := not_congr (BitVec.toNat_eq ..)
  rw [top] at zero
  rw [exists_hits_iff, exists_topOf_iff, top, illegalWord, decide_eq_true_iff, ne_zero]
  by_cases clear : w &&& reservedBits (w.toNat / 2 ^ 24) = 0
  · simp only [clear, forall_const, List.mem_cons, List.not_mem_nil, ne_eq, not_true_eq_false, or_false, and_true]
      at zero ⊢
    omega
  · simp only [clear, ne_eq, not_false_eq_true, or_true, and_false]

theorem decode_error_iff {w : Word} : (∃ r, decode w = .error r) ↔ illegalWord w = true := by
  rw [illegalWord_iff, ← decodes_iff_hits]
  cases decode w <;> simp

/-- The launch of an illegal word is `BADOP` (R101). -/
theorem launch_of_illegalWord (s : State) {w : Word} (h : illegalWord w = true) :
    s.launch w = .next (({ s with op := w } : State).configError 5) := by
  obtain ⟨r, hr⟩ := decode_error_iff.mpr h
  rw [State.launch, hr]
  exact congrArg Host.Outcome.next (State.raiseConfig_eq _ .badOp)

end Sys2Proof.Laws

namespace Sys2Proof.Proofs

open Sys2Proof.Laws Sys2Proof.Machine

/-- Settles O3: the encoder's word matches the operation's own row and carries its operands. -/
theorem decodeOfEncode : Obligations.DecodeOfEncode := fun i h =>
  decode_eq_ok_iff.mpr ⟨hits_encode i, reread_encode h⟩

/-- Settles O2: both words are the top byte and the operands, each at its weight. -/
theorem encodeIsAssemblerWord : Obligations.EncodeIsAssemblerWord := fun _ h =>
  (toNat_encode h).trans (asmWord_eq_wordNumber h).symm

/-- Settles O4: a decoded operation is read from fields of the word, which with the row make up the whole word. -/
theorem encodeOfDecode : Obligations.EncodeOfDecode := by
  intro w i h
  obtain ⟨hit, hread⟩ := decode_eq_ok_iff.mp h
  rw [← hread]
  exact ⟨wf_reread i w, encode_reread hit⟩

/-- Settles O5: two different rows differ in a bit that both fix, and the decoder tries every row. -/
theorem opcodeRowsAreDisjoint : Obligations.OpcodeRowsAreDisjoint := fun _ =>
  ⟨fun _ hr _ hq h h' => row_unique hr hq h h', decodes_iff_hits⟩

/-- Settles O6: R101's list is the words that match no row, and their launch raises `BADOP` alone. -/
theorem illegalWordsRaiseBadOp : Obligations.IllegalWordsRaiseBadOp := by
  refine ⟨fun _ => decode_error_iff, fun s w rest hi hw => ?_⟩
  rw [hi.write_op, launch_of_illegalWord _ hw]
  rfl

end Sys2Proof.Proofs
end

section
/-! One transaction as its trace and its end (41_transaction.md R122 to R138): every operation of the family that goes
on failed a launch check or ended as `TxEnd` says; the forms of R138 select once and deselect once, or do neither. -/

namespace Sys2Proof.Machine

/-! ### Select events in the forms of R138 -/

/-- No event of `l` drives a select line. -/
def SelectFree (l : List Event) : Prop := ∀ k lvl, Event.cs k lvl ∉ l

theorem SelectFree.append {l m : List Event} (hl : SelectFree l) (hm : SelectFree m) : SelectFree (l ++ m) :=
  fun k lvl h => (List.mem_append.mp h).elim (hl k lvl) (hm k lvl)

theorem SelectFree.count {l : List Event} (h : SelectFree l) (k : Nat) (lvl : Bool) : l.count (.cs k lvl) = 0 :=
  List.count_eq_zero.mpr (h k lvl)

theorem selectFree_optSleep (n : Word) : SelectFree (optSleep n) := by
  intro k lvl
  unfold optSleep
  split <;> simp

theorem selectFree_byteEvents (p : Profile) : ∀ l, SelectFree (byteEvents p l)
  | [] => fun _ _ => List.not_mem_nil
  | [b] => fun k lvl => by simp [byteEvents]
  | b :: c :: bs => SelectFree.append (fun k lvl => by simp) (selectFree_byteEvents p (c :: bs))

theorem selectFree_payloadEvents (p : Profile) (tx rx : List Byte) : SelectFree (payloadEvents p tx rx) := by
  unfold payloadEvents
  split
  · simp [SelectFree]
  · exact selectFree_byteEvents p _

theorem selectFree_failingEvents (p : Profile) (tx rx : List Byte) (e : Word) :
    SelectFree (failingEvents p tx rx e) := by
  unfold failingEvents
  split
  · simp [SelectFree]
  · exact SelectFree.append (by simp [SelectFree, sentEvents]) (by simp [SelectFree])

/-- A transaction's trace drives no line, or drives its profile's low after two events, the mode set and the fixup, and
high again later (R128, R132, R133). -/
inductive SelectPulse (k : Nat) : List Event → Prop
  | none {evs : List Event} (h : SelectFree evs) : SelectPulse k evs
  | once {a b : Event} {mid post : List Event} (hab : SelectFree [a, b]) (hm : SelectFree mid) (hp : SelectFree post) :
      SelectPulse k ([a, b] ++ [.cs k false] ++ mid ++ [.cs k true] ++ post)

theorem TxTrace.selectPulse {p : Profile} {tx : List Byte} {evs : List Event} {r : Option OpError}
    (h : TxTrace p tx evs r) : SelectPulse p.psel.toNat evs := by
  have hopen (fa : XferAnswer) :
      SelectFree [.modeSet p.pmode .ok, .xfer p.pmode p.prate [Config.fixupByte] fa] := by simp [SelectFree]
  cases h with
  | modeFailure e => exact .none (by simp [SelectFree])
  | success fa rx =>
    have := SelectPulse.once (k := p.psel.toNat) (hopen fa)
      (((selectFree_optSleep p.ppre).append (selectFree_payloadEvents p tx rx)).append (selectFree_optSleep p.ppost))
      (selectFree_optSleep p.pcool)
    simpa [openingEvents, closingEvents] using this
  | transferFailure fa rx e =>
    have := SelectPulse.once (k := p.psel.toNat) (hopen fa)
      ((selectFree_optSleep p.ppre).append (selectFree_failingEvents p tx rx e)) (post := []) (by simp [SelectFree])
    simpa [openingEvents] using this

section

variable {k : Nat} {evs : List Event}

theorem SelectPulse.balanced (h : SelectPulse k evs) : evs.count (.cs k false) = evs.count (.cs k true) := by
  cases h with
  | none h => rw [h.count, h.count]
  | once hab hm hp => simp only [List.count_append, hab.count, hm.count, hp.count]; simp

theorem SelectPulse.line_eq (h : SelectPulse k evs) {j : Nat} {lvl : Bool} (he : Event.cs j lvl ∈ evs) : j = k := by
  cases h with
  | none h => exact absurd he (h j lvl)
  | once hab hm hp =>
    simp only [List.mem_append, List.mem_singleton, Event.cs.injEq, hab j lvl, hm j lvl, hp j lvl, false_or,
      or_false] at he
    exact he.elim And.left And.left

theorem SelectPulse.two_le (h : SelectPulse k evs) {i j : Nat} {lvl : Bool} (he : evs[i]? = some (.cs j lvl)) :
    2 ≤ i := by
  cases h with
  | none h => exact absurd (List.mem_of_getElem? he) (h j lvl)
  | @once a b _ _ hab hm hp =>
    by_contra hi
    have : ([a, b])[i]? = some (.cs j lvl) := by
      rwa [List.append_assoc, List.append_assoc, List.append_assoc, List.getElem?_append_left (by simp; omega)] at he
    exact hab j lvl (List.mem_of_getElem? this)

end

/-- The bytes received before a failure stand in the trace in the per-byte strategy alone (R130, R131). -/
theorem failingEvents_congr {p : Profile} {rx ry : List Byte} (h : p.pibd ≠ 0 → rx = ry) (tx : List Byte) (e : Word) :
    failingEvents p tx rx e = failingEvents p tx ry e := by
  by_cases hp : p.pibd = 0
  · simp only [failingEvents, if_pos hp]
  · rw [h hp]

/-! ### How a transaction ends -/

/-- `CSLVL` with the line of `prof` driven low and high again. -/
def State.pulsedLines (s : State) (prof : Nat) : Word :=
  setBit (setBit s.cslvl (s.lineOf prof) false) (s.lineOf prof) true

@[simp] theorem State.getLsbD_pulsedLines (s : State) (prof j : Nat) :
    (s.pulsedLines prof).getLsbD j = (s.cslvl.getLsbD j || decide (j = s.lineOf prof)) := by
  have hline : s.lineOf prof < 32 := (s.profAt prof).psel.isLt
  rw [State.pulsedLines, getLsbD_setBit_pair]
  by_cases h : j = s.lineOf prof <;> simp [h, hline]

/-- Of R135's frame, `OpKeeps` leaves `PHY`, the lines and the cells to be said. -/
theorem OpKeeps.txFrame {s t : State} {i : Instr} {prof n : Nat} (k : OpKeeps s t i) (hphy : t.phy = s.phy)
    (hlines : t.cslvl = s.cslvl ∨ t.cslvl = s.pulsedLines prof)
    (hcells : ∀ a, n ≤ a → t.bufGet a = s.bufGet a) : TxFrame s t prof n where
  cfg := k.cfg
  op := k.op
  phy := hphy
  csoe := k.csoe
  profs := k.profs
  regspecs := k.regspecs
  convs := k.convs
  answer := k.answer
  busOpen := k.busOpen
  inputs := k.inputs
  resets := k.resets
  lines j hj := by
    rcases hlines with e | e <;> rw [e]
    simp [hj]
  cells := hcells

/-- How the operation `i` ended in `t`, its transaction of the frame `tx` with the events `evs` and the result `r`. -/
structure TxEnd (s t : State) (i : Instr) (prof : Nat) (tx : List Byte) (evs : List Event)
    (r : Option OpError) : Prop where
  shape : TxTrace (s.profAt prof) tx evs r
  trace : t.trace = s.trace ++ evs
  frame : TxFrame s t prof tx.length
  idle : t.phase = .idle
  high : ∀ j, s.cslvl.getLsbD j = true → t.cslvl.getLsbD j = true
  failure : ∀ e, r = some e → t.status = e.status ∧ t.errinfo = e.info ∧ t.val = s.val
  success : r = none →
    (t.status = 0 ∨ ((∃ p r12, i = .encrd p r12) ∧ t.status = 0x007)) ∧ (writesVal i = false → t.val = s.val)

/-- Every operation of the family that goes on failed a launch check or ran its transaction to an end. -/
theorem exec_tx_ends {s t : State} {i : Instr} {prof : Nat} {tx : List Byte} (hl : s.cfg.legal = true)
    (htx : txOf s i = some (prof, tx)) (ht : exec i s = .next t) :
    (∃ c, t = s.raiseConfig c ∧ ¬ Launches s i) ∨ ∃ evs r, TxEnd s t i prof tx evs r := by
  have keeps := exec_keeps hl ht
  have high (j : Nat) (hj : s.cslvl.getLsbD j = true) : (s.pulsedLines prof).getLsbD j = true := by simp [hj]
  rcases exec_tx_cases hl htx with ⟨c, hx, -, hL⟩ | ⟨hx, -⟩ | ⟨p, hx, -⟩ | ⟨bb, hbb, -, -, -, -, hx⟩
  · rw [hx] at ht
    cases ht
    exact .inl ⟨c, rfl, hL⟩
  · rw [hx] at ht; cases ht
  · rw [hx] at ht; cases ht
  right
  rcases hx with ⟨e, b, d, cp, cl, ix, hx, -⟩ |
    ⟨fa, rx, wr, xs, e, c, bs, ts, d, cp, cl, ix, hx, hfa, hrx, hwr, hxs, -⟩ |
    ⟨fa, rx, bs, ts, d, cp, cl, ix, t', u, hx, ha, hu, hfa, hrx, -⟩ <;> rw [hx] at ht <;> cases ht
  · exact ⟨_, _, {
      shape := .modeFailure e
      trace := rfl
      frame := keeps.txFrame rfl (.inl rfl) fun a h => bufGet_frame_beyond hbb h
      idle := rfl
      high := fun _ h => h
      failure := by rintro _ ⟨⟩; exact ⟨(OpError.status_modeSetFailed e).symm, rfl, rfl⟩
      success := nofun }⟩
  · exact ⟨_, _, {
      shape := .transferFailure fa rx e hfa hrx
      trace := rfl
      frame := keeps.txFrame rfl (.inr rfl) fun a h =>
        (bufGet_writeCells_beyond s _ xs (by omega)).trans
          ((bufGet_writeCells_beyond s _ wr (by omega)).trans (bufGet_frame_beyond hbb h))
      idle := rfl
      high := high
      failure := by rintro _ ⟨⟩; exact ⟨(OpError.status_transferFailed e).symm, rfl, rfl⟩
      success := nofun }⟩
  · obtain ⟨v, d', st, e, rfl, hv, hst⟩ := ha.spec
    subst hu
    exact ⟨_, _, {
      shape := .success fa rx hfa hrx
      trace := rfl
      frame := keeps.txFrame rfl (.inr rfl) fun a h =>
        (bufGet_writeCells_beyond s _ rx (by omega)).trans (bufGet_frame_beyond hbb h)
      idle := rfl
      high := high
      failure := nofun
      success := fun _ => ⟨hst.imp And.left And.symm, hv⟩ }⟩

/-- The outcomes of an operation that ran its transaction (R231, R233 to R235). -/
theorem TxEnd.status_cases {s t : State} {i : Instr} {prof : Nat} {tx : List Byte} {evs : List Event}
    {r : Option OpError} (h : TxEnd s t i prof tx evs r) :
    t.status = 0 ∨ t.status = 0x003 ∨ t.status = 0x005 ∨ ((∃ p r12, i = .encrd p r12) ∧ t.status = 0x007) := by
  cases h.shape with
  | modeFailure e => exact .inr (.inl ((h.failure _ rfl).1.trans (OpError.status_modeSetFailed e)))
  | transferFailure fa rx e => exact .inr (.inr (.inl ((h.failure _ rfl).1.trans (OpError.status_transferFailed e))))
  | success fa rx => exact (h.success rfl).1.imp_right fun h => .inr (.inr h)

theorem statusKind_raiseConfig (s : State) (c : CfgCause) : statusKind (s.raiseConfig c).status = 4 := by
  rw [State.raiseConfig_eq]
  show statusKind (BitVec.ofNat 32 (0x009 + 0x100 * c.code.toNat)) = 4
  cases c <;> decide

theorem CfgCause.code_range (c : CfgCause) : 1 ≤ c.code.toNat ∧ c.code.toNat ≤ 7 := by cases c <;> decide

/-- A launched operation goes on if the environment is never silent (70_reset_and_hazards.md R272). -/
theorem Launches.exec_next {s : State} {i : Instr} (hL : Launches s i) (hs : ¬ Silent s) : ∃ t, exec i s = .next t := by
  obtain ⟨prof, tx, htx⟩ := hL.txOf
  rcases exec_tx_cases hL.legal htx with ⟨c, hx, -⟩ | ⟨-, ho⟩ | ⟨p, -, hp, -⟩ | ⟨bb, -, -, -, -, -, hx⟩
  · exact ⟨_, hx⟩
  · rw [(hL.ready htx).busOpen] at ho; cases ho
  · exact absurd hp hs
  · rcases hx with ⟨e, b, d, cp, cl, ix, hx, -⟩ | ⟨fa, rx, wr, xs, e, c, bs, ts, d, cp, cl, ix, hx, -⟩ |
      ⟨fa, rx, bs, ts, d, cp, cl, ix, t, u, hx, -⟩ <;> exact ⟨_, hx⟩

/-! ### Launch checks of EXEC -/

theorem execExec_fails {s : State} {prof len : Nat} {c : CfgCause} (ib : Bool)
    (h : firstFailure (s.execChecks prof len) = some c) :
    exec (.exec prof ib len) s = .next (s.configError c.code.toNat) := by
  rw [← State.raiseConfig_eq]
  exact State.launchWith_fail _ h

theorem State.memRead_zero (s : State) (n : Nat) : s.memRead 0 n = (List.range n).map s.bufGet := by
  simp [State.memRead]

end Sys2Proof.Machine

namespace Sys2Proof.Proofs

open Sys2Proof.Machine

/-- Settles O10: EXEC's frame stands in the buffer already, and what follows its transaction is `done`. -/
theorem execTransfersPayload : Obligations.ExecTransfersPayload := by
  intro s prof ib len fa rx rest hL hA hlen
  obtain ⟨t, u, hx, ha, hd, hv⟩ := exec_answered hL rfl hA (by simpa using hlen)
  rcases ha with ⟨-, rfl⟩ | ⟨p, r, h, -⟩ | ⟨p, r, h, -⟩
  · exact ⟨_, hx, s.memRead_zero len ▸ hd.withResult u.val u.draws 0 0, rfl, rfl, hv⟩
  · cases h
  · cases h

/-- Settles O12: the trace is `TxEnd.shape`, and each form of R138 pulses its line once or not at all. -/
theorem transactionTraceShape : Obligations.TransactionTraceShape := by
  intro s t i prof tx hl htx hx hk
  rcases exec_tx_ends hl htx hx with ⟨c, rfl, -⟩ | ⟨evs, r, h⟩
  · exact absurd (statusKind_raiseConfig s c) hk
  have pulse := h.shape.selectPulse
  refine ⟨evs, r, h.shape, h.trace, fun hr => (h.success hr).1, fun e hr => ?_, fun e hr => ?_, pulse.balanced,
    fun _ _ => pulse.line_eq, fun _ _ => pulse.two_le⟩
  · obtain ⟨hst, hinfo, -⟩ := h.failure _ hr
    exact ⟨hst.trans (OpError.status_modeSetFailed e), hinfo⟩
  · obtain ⟨hst, hinfo, -⟩ := h.failure _ hr
    exact ⟨hst.trans (OpError.status_transferFailed e), hinfo⟩

/-- Settles O17: a failed launch check writes `STATUS` and `ERRINFO` alone; every other end is `TxEnd`'s. -/
theorem transactionFrame : Obligations.TransactionFrame := by
  intro s t i prof tx hl htx ht
  rcases exec_tx_ends hl htx ht with ⟨c, rfl, -⟩ | ⟨evs, r, h⟩
  · exact ⟨(exec_keeps hl ht).txFrame rfl (.inl rfl) fun _ _ => rfl, fun _ => rfl, fun _ _ => rfl⟩
  refine ⟨h.frame, ?_⟩
  cases r with
  | some e => exact ⟨fun _ => (h.failure e rfl).2.2, fun _ _ => (h.failure e rfl).2.2⟩
  | none =>
    obtain ⟨hst, hval⟩ := h.success rfl
    exact ⟨hval, fun h0 h7 => (hst.elim h0 fun h => h7 h.2).elim⟩

/-- Settles O13: the first answer is the mode set's, so a failure there is the only end left. -/
theorem modeSetFailureEndsAtOnce : Obligations.ModeSetFailureEndsAtOnce := by
  intro s i prof tx e rest hL htx hb
  rcases exec_tx_cases hL.legal htx with ⟨c, -, -, hc⟩ | ⟨-, ho⟩ | ⟨p, -, -, hp, -⟩ | ⟨bb, -, hread, -, -, -, hx⟩
  · exact absurd hL hc
  · rw [(hL.ready htx).busOpen] at ho; cases ho
  · exact absurd hb (hp e rest)
  rcases hx with ⟨e', b, d, cp, cl, ix, hx, -, he, -⟩ |
    ⟨fa, rx, wr, xs, e', c, bs, ts, d, cp, cl, ix, hx, -, -, -, -, hn, -⟩ |
    ⟨fa, rx, bs, ts, d, cp, cl, ix, t, u, hx, -, -, -, -, hn, -⟩
  · obtain rfl := he e rest hb
    exact ⟨_, hx, rfl, rfl, rfl, rfl, rfl, rfl, rfl, rfl, hread, by rw [hb]; rfl,
      (transactionFrame _ _ _ _ _ hL.legal htx hx).1⟩
  · exact absurd hb (hn e rest)
  · exact absurd hb (hn e rest)

/-- Settles O14: the answers are those of a payload that fails, so that failure is the only end left. -/
theorem payloadFailureDeselects : Obligations.PayloadFailureDeselects := by
  intro s i prof tx m fa rx e rest hL htx hfa hrx htimer hb
  rcases exec_tx_cases hL.legal htx with ⟨c, -, -, hc⟩ | ⟨-, ho⟩ | ⟨p, -, -, -, -, -, hp⟩ | ⟨bb, -, -, -, -, -, hx⟩
  · exact absurd hL hc
  · rw [(hL.ready htx).busOpen] at ho; cases ho
  · exact absurd hb ((hp htimer m fa rx rest).2 e hrx)
  rcases hx with ⟨e', b, d, cp, cl, ix, -, hn, -⟩ |
    ⟨fb, ry, wr, xs, e', c, bs, ts, d, cp, cl, ix, hx, -, -, -, -, -, -, -, -, he⟩ |
    ⟨fb, ry, bs, ts, d, cp, cl, ix, t, u, -, -, -, -, -, -, -, -, -, hn⟩
  · exact absurd hb (hn m _)
  · obtain ⟨rfl, rfl, rfl, hry⟩ := he m fa rx e rest hfa hrx hb
    have hline : (s.pulsedLines prof).getLsbD (s.lineOf prof) = true := by simp
    rw [failingEvents_congr hry] at hx
    exact ⟨_, hx, rfl, rfl, rfl, hline, rfl, rfl, rfl, rfl, rfl, (transactionFrame _ _ _ _ _ hL.legal htx hx).1⟩
  · exact absurd hb (hn m fa rx e rest hfa hrx)

/-- Settles O15: only a silent environment stops a launched operation, and every end is idle with the line high. -/
theorem transactionTerminates : Obligations.TransactionTerminates := by
  intro s i hL hbus htimer
  obtain ⟨prof, tx, htx⟩ := hL.txOf
  obtain ⟨t, ht⟩ := hL.exec_next fun h => h.elim hbus fun h => absurd (htimer _ h) (by decide)
  rcases exec_tx_ends hL.legal htx ht with ⟨c, -, hc⟩ | ⟨evs, r, h⟩
  · exact absurd hL hc
  · exact ⟨t, ht, h.idle, h.status_cases, h.high⟩

/-- Settles O45: every end but a failed launch check shows another `KIND`. -/
theorem configurationErrorChangesNothingElse : Obligations.ConfigurationErrorChangesNothingElse := by
  intro s t i hl ht hk
  have config (c : CfgCause) : ∃ n, 1 ≤ n ∧ n ≤ 7 ∧ s.raiseConfig c = s.configError n :=
    ⟨_, c.code_range.1, c.code_range.2, s.raiseConfig_eq c⟩
  cases htx : txOf s i with
  | none =>
    rcases exec_local htx with ⟨c, hx, -⟩ | ⟨v, p, off, bs, d, st, e, hx, -, hst, -⟩ <;> rw [hx] at ht <;> cases ht
    · exact config c
    · change statusKind st = 4 at hk
      rcases hst with rfl | rfl | rfl <;> exact absurd hk (by decide)
  | some x =>
    rcases exec_tx_ends hl htx ht with ⟨c, rfl, -⟩ | ⟨evs, r, h⟩
    · exact config c
    · rcases h.status_cases with e | e | e | ⟨-, e⟩ <;> rw [e] at hk <;> exact absurd hk (by decide)

/-- Settles O48: what `exec_local` names is all that changes, and PACK's bytes are `byteLength w` many. -/
theorem nonBusOperationsFrame : Obligations.NonBusOperationsFrame := by
  intro s t i htx ht
  rcases exec_local htx with ⟨c, hx, -⟩ | ⟨v, p, off, bs, d, st, e, hx, -, -, -, -, hbs, hp, hv, hpack, hd⟩ <;>
    rw [hx] at ht <;> cases ht
  · exact ⟨⟨s.val, s.phy, s.buf, s.draws, rfl⟩, fun _ _ => rfl, fun _ _ _ => ⟨fun _ _ => rfl, fun _ _ => rfl⟩,
      fun _ => rfl, fun _ => rfl, fun _ => rfl⟩
  refine ⟨⟨v, p, s.buf.writeCells off bs, d, rfl⟩, fun h a => ?_, fun w o h => ?_, hd, hp, hv⟩
  · rw [hbs h]
    rfl
  · obtain ⟨rfl, rfl, h1, h2, h3⟩ := hpack w o h
    refine ⟨fun a ha => (s.bufGet_memWrite off a (packBytes s.val w)).trans ?_, fun hn => absurd ⟨h1, h2, h3⟩ hn⟩
    split
    · rw [List.getElem?_eq_none (by rw [length_packBytes]; omega)]
      rfl
    · rfl

/-- Settles O9: the word 0 decodes to NOP, and its launch is `done` with `OP` written. -/
theorem nopClearsStatus : Obligations.NopClearsStatus := by
  have hdec : decode 0x00000000 = .ok .nop := rfl
  refine ⟨hdec, fun _ => rfl, fun s rest hi => ?_⟩
  rw [hi.write_op, launch_of_decode _ hdec]
  rfl

/-- Settles O11: the first check that fails gives the code. -/
theorem execLaunchChecks : Obligations.ExecLaunchChecks := by
  intro s prof ib len
  refine ⟨fun h => execExec_fails (c := .badIndex) ib ?_, fun h1 h2 => execExec_fails (c := .notValid) ib ?_,
    fun h1 h2 h3 => execExec_fails (c := .badIndex) ib ?_, fun h1 h2 h3 h4 => execExec_fails (c := .badLen) ib ?_⟩
  · simp [State.execChecks, firstFailure_cons, Nat.not_lt.mpr h]
  · simp [State.execChecks, firstFailure_cons, h1, h2]
  · simp [State.execChecks, firstFailure_cons, h1, h2, Nat.not_lt.mpr h3]
  · have : ¬ (1 ≤ len ∧ len ≤ s.cfg.bufsz) := by omega
    simp [State.execChecks, firstFailure_cons, h1, h2, h3, this]

end Sys2Proof.Proofs
end

section
/-! The sequencer as a machine (41_transaction.md R137): what one transition can answer (`SeqAnswer`), and the procedure
`Transact` as a bounded run of transitions, composed part by part (`RunsTo.bind`). -/

namespace Sys2Proof.Machine

/-! ### One transition -/

/-- The phase a transition leads to where it goes on (R137). -/
def State.nextPhase (s : State) : Phase :=
  match s.phase with
  | .idle => .idle
  | .modeSet => .fixup
  | .fixup => .select
  | .select => if s.curProfile.ppre = 0 then .xfer else .preDelay
  | .preDelay => .xfer
  | .xfer => if s.curProfile.pibd ≠ 0 ∧ s.idx.toNat + 1 < s.curlen.toNat then .ibDelay else s.afterPayload
  | .ibDelay => .xfer
  | .postDelay => .deselect
  | .deselect => if s.curProfile.pcool = 0 then .idle else .coolDown
  | .coolDown => .idle
  | .abort => .idle

/-- A transition from `s` went on to `t`. Inside the transaction it keeps `CURLEN`, and `IDX` moves after `IBDELAY`
alone (10_state.md R25, R131). -/
structure SeqNext (s t : State) : Prop where
  phase : t.phase = s.nextPhase
  idle : s.phase = .idle → t = s
  curlen : t.phase ≠ .idle → t.curlen = s.curlen
  idx : t.phase ≠ .idle → t.idx = if s.phase = .ibDelay then s.idx + 1 else s.idx

/-- Everything a transition from `s` can answer: silence, the next phase, or one of the two failure exits (R137, R126,
R132). -/
inductive SeqAnswer (s : State) : Except TxStop State → Prop
  | silence (p : Phase) : SeqAnswer s (.error (.stuck p))
  | next {t : State} (h : SeqNext s t) : SeqAnswer s (.ok t)
  | modeSetFailed {t : State} {e : Word} (hp : s.phase = .modeSet) (ht : t.phase = .idle) :
      SeqAnswer s (.error (.modeSetFailed t e))
  | aborting {t : State} {e : Word} (hp : s.phase = .xfer) (ht : t.phase = .abort) :
      SeqAnswer s (.error (.aborting t e))

section

variable {s : State}

/-- A transition that goes on from a phase other than `IDLE` and `IBDELAY` keeps both latches. -/
theorem SeqAnswer.keeping {t : State} {p : Phase} (hp : s.phase = p) (h : p ≠ .idle ∧ p ≠ .ibDelay)
    (ht : t.phase = s.nextPhase) (hc : t.curlen = s.curlen) (hi : t.idx = s.idx) : SeqAnswer s (.ok t) := by
  subst hp
  exact .next ⟨ht, fun e => absurd e h.1, fun _ => hc, fun _ => by rw [if_neg h.2, hi]⟩

/-- So does one that ends the transaction, with no latch to keep. -/
theorem SeqAnswer.ending {t : State} {p : Phase} (hp : s.phase = p) (h : p ≠ .idle) (ht : t.phase = .idle)
    (hn : s.nextPhase = .idle) : SeqAnswer s (.ok t) := by
  subst hp
  exact .next ⟨ht.trans hn.symm, fun e => absurd e h, fun e => absurd ht e, fun e => absurd ht e⟩

theorem modeSetPhase_answer (hp : s.phase = .modeSet) : SeqAnswer s s.modeSetPhase := by
  rcases s.modeSetPhase_spec with ⟨e, -⟩ | ⟨_, _, _, _, _, _, e, -⟩ | ⟨_, e, -⟩ <;> rw [e]
  · exact .silence _
  · exact .modeSetFailed hp rfl
  · exact .keeping hp (by decide) (by rw [State.nextPhase, hp]) rfl rfl

theorem fixupPhase_answer (hp : s.phase = .fixup) : SeqAnswer s s.fixupPhase := by
  rcases s.fixupPhase_spec with ⟨e, -⟩ | ⟨_, _, _, e, -⟩ <;> rw [e]
  · exact .silence _
  · exact .keeping hp (by decide) (by rw [State.nextPhase, hp]) rfl rfl

theorem selectPhase_answer (hp : s.phase = .select) : SeqAnswer s s.selectPhase :=
  .keeping hp (by decide) (by rw [State.nextPhase, hp]) rfl rfl

theorem preDelayPhase_answer (hp : s.phase = .preDelay) : SeqAnswer s s.preDelayPhase := by
  unfold State.preDelayPhase
  rcases s.sleep_spec s.curProfile.ppre with ⟨e, -⟩ | e <;> rw [e]
  · exact .silence _
  · exact .keeping hp (by decide) (by rw [State.nextPhase, hp]) rfl rfl

theorem bulkXfer_answer (hp : s.phase = .xfer) (hb : s.curProfile.pibd = 0) : SeqAnswer s s.bulkXfer := by
  unfold State.bulkXfer
  rcases s.busTransfer_spec s.curProfile.pmode s.curProfile.prate (s.memRead 0 s.curlen.toNat) with
    ⟨e, -⟩ | ⟨_, _, e, -⟩ | ⟨_, _, e, -⟩ <;> rw [e]
  · exact .silence _
  · exact .aborting hp rfl
  · exact .keeping hp (by decide) (by simp only [State.nextPhase, hp, hb, ne_eq, not_true, false_and, if_false]) rfl rfl

theorem byteXfer_answer (hp : s.phase = .xfer) (hb : s.curProfile.pibd ≠ 0) : SeqAnswer s s.byteXfer := by
  rcases s.byteXfer_spec with ⟨_, e, -⟩ | ⟨_, _, e, -⟩ | ⟨_, _, e, -⟩ <;> rw [e]
  · exact .silence _
  · exact .aborting hp rfl
  · exact .keeping hp (by decide) (by simp only [State.nextPhase, hp, hb, ne_eq, not_false_iff, true_and]) rfl rfl

theorem xferPhase_answer (hp : s.phase = .xfer) : SeqAnswer s s.xferPhase := by
  unfold State.xferPhase
  split
  case isTrue hb => exact bulkXfer_answer hp hb
  case isFalse hb => exact byteXfer_answer hp hb

theorem ibDelayPhase_answer (hp : s.phase = .ibDelay) : SeqAnswer s s.ibDelayPhase := by
  unfold State.ibDelayPhase
  rcases s.sleep_spec s.curProfile.pibd with ⟨e, -⟩ | e <;> rw [e]
  · exact .silence _
  · exact .next ⟨by simp [State.nextPhase, hp], by simp [hp], fun _ => rfl, fun _ => by rw [if_pos hp]⟩

theorem postDelayPhase_answer (hp : s.phase = .postDelay) : SeqAnswer s s.postDelayPhase := by
  unfold State.postDelayPhase
  rcases s.sleep_spec s.curProfile.ppost with ⟨e, -⟩ | e <;> rw [e]
  · exact .silence _
  · exact .keeping hp (by decide) (by rw [State.nextPhase, hp]) rfl rfl

theorem deselectPhase_answer (hp : s.phase = .deselect) : SeqAnswer s s.deselectPhase := by
  unfold State.deselectPhase
  split
  case isTrue hc => exact .ending hp (by decide) rfl (by simp only [State.nextPhase, hp, hc, if_true])
  case isFalse hc => exact .keeping hp (by decide) (by simp only [State.nextPhase, hp, hc, if_false]) rfl rfl

theorem coolDownPhase_answer (hp : s.phase = .coolDown) : SeqAnswer s s.coolDownPhase := by
  unfold State.coolDownPhase
  rcases s.sleep_spec s.curProfile.pcool with ⟨e, -⟩ | e <;> rw [e]
  · exact .silence _
  · exact .ending hp (by decide) rfl (by rw [State.nextPhase, hp])

/-- What one transition can answer, whatever the phase. -/
theorem seqStep_answer (s : State) : SeqAnswer s s.seqStep := by
  unfold State.seqStep
  split
  case h_1 hp => exact .next ⟨by simp [State.nextPhase, hp], fun _ => rfl, fun _ => rfl, fun _ => by simp [hp]⟩
  case h_2 hp => exact modeSetPhase_answer hp
  case h_3 hp => exact fixupPhase_answer hp
  case h_4 hp => exact selectPhase_answer hp
  case h_5 hp => exact preDelayPhase_answer hp
  case h_6 hp => exact xferPhase_answer hp
  case h_7 hp => exact ibDelayPhase_answer hp
  case h_8 hp => exact postDelayPhase_answer hp
  case h_9 hp => exact deselectPhase_answer hp
  case h_10 hp => exact coolDownPhase_answer hp
  case h_11 hp => exact .ending hp (by decide) rfl (by rw [State.nextPhase, hp])

theorem seqStep_next {t : State} (h : s.seqStep = .ok t) : SeqNext s t := by
  have ha := seqStep_answer s
  rw [h] at ha
  cases ha with
  | next h => exact h

end

/-! ### Runs -/

/-- At most `n` transitions from `s` answer `r`, and where they go on `Q` holds of the state reached. -/
def RunsTo (n : Nat) (s : State) (r : Except TxStop State) (Q : State → Prop) : Prop :=
  ∃ k, k ≤ n ∧ State.seqRun k s = r ∧ ∀ t, r = .ok t → Q t

theorem seqRun_add (m n : Nat) (s : State) : State.seqRun (m + n) s = (State.seqRun m s >>= State.seqRun n) := by
  induction m generalizing s with
  | zero => rw [Nat.zero_add]; rfl
  | succ m ih =>
    rw [Nat.succ_add]
    unfold State.seqRun
    rcases s.seqStep with _ | t
    · rfl
    · exact ih t

section

variable {s : State} {P Q : State → Prop}

/-- Nothing to do is a run of no transition. -/
theorem RunsTo.stay {n : Nat} (h : Q s) : RunsTo n s (.ok s) Q :=
  ⟨0, Nat.zero_le n, rfl, by rintro _ ⟨⟩; exact h⟩

/-- A stop ends the run; otherwise the second part runs from where the first one led. -/
theorem RunsTo.bind {m n : Nat} {r : Except TxStop State} {f : State → Except TxStop State} (h : RunsTo m s r P)
    (hf : ∀ t, P t → RunsTo n t (f t) Q) : RunsTo (m + n) s (r >>= f) Q := by
  obtain ⟨k, hk, rfl, hP⟩ := h
  cases hr : State.seqRun k s with
  | error x => exact ⟨k, by omega, hr, nofun⟩
  | ok t =>
    obtain ⟨j, hj, hrun, hQ⟩ := hf t (hP t hr)
    exact ⟨k + j, by omega, by rw [seqRun_add, hr, bind_ok, hrun]; rfl, hQ⟩

/-- The work of the phase the state is in is a run of one transition. -/
theorem RunsTo.step {f : State → Except TxStop State} (h : s.seqStep = f s) : RunsTo 1 s (f s) (SeqNext s) :=
  ⟨1, Nat.le_refl 1, by
    show (s.seqStep >>= State.seqRun 0) = f s
    rw [h]
    rcases f s with _ | t <;> rfl, fun t ht => seqStep_next (h.trans ht)⟩

theorem RunsTo.mono {m n : Nat} {r : Except TxStop State} (h : RunsTo m s r P) (hn : m ≤ n) (hPQ : ∀ t, P t → Q t) :
    RunsTo n s r Q := by
  obtain ⟨k, hk, hr, hP⟩ := h
  exact ⟨k, by omega, hr, fun t ht => hPQ t (hP t ht)⟩

/-- A phase that is entered only when `PHASE` names it: one transition, or none. -/
theorem RunsTo.inPhase {p : Phase} {f : State → Except TxStop State} (hf : s.phase = p → s.seqStep = f s)
    (hin : s.phase = p → ∀ t, SeqNext s t → Q t) (hout : s.phase ≠ p → Q s) : RunsTo 1 s (s.inPhase p f) Q := by
  by_cases hp : s.phase = p
  · rw [State.inPhase_pos f hp]
    exact (RunsTo.step (hf hp)).mono (Nat.le_refl 1) (hin hp)
  · rw [State.inPhase_neg f hp]
    exact .stay (hout hp)

end

/-! ### The parts of a transaction -/

/-- In phase `p` with the latches of `s`. -/
structure Latched (s : State) (p : Phase) (t : State) : Prop where
  phase : t.phase = p
  curlen : t.curlen = s.curlen
  idx : t.idx = s.idx

/-- A transition inside the transaction carries the latches on. -/
theorem SeqNext.latched {s t u : State} {p q : Phase} (h : SeqNext t u) (ht : Latched s p t) (hq : t.nextPhase = q)
    (hp : p ≠ .ibDelay) (hi : q ≠ .idle) : Latched s q u := by
  have hu : u.phase = q := h.phase.trans hq
  have hne : u.phase ≠ .idle := hu ▸ hi
  have hib : t.phase ≠ .ibDelay := ht.phase ▸ hp
  exact ⟨hu, (h.curlen hne).trans ht.curlen, ((h.idx hne).trans (if_neg hib)).trans ht.idx⟩

/-- Steps 1 to 4: three transitions, and a fourth if `PPRE` is not 0 (R126 to R129). -/
theorem openTx_runsTo {s : State} (hp : s.phase = .modeSet) : RunsTo 4 s s.openTx (Latched s .xfer) := by
  have h0 : Latched s .modeSet s := ⟨hp, rfl, rfl⟩
  refine RunsTo.bind (m := 1) (n := 3) (.step (by rw [State.seqStep, hp])) fun t ht => ?_
  have h1 : Latched s .fixup t := ht.latched h0 (by rw [State.nextPhase, hp]) (by decide) (by decide)
  refine RunsTo.bind (m := 1) (n := 2) (.step (by rw [State.seqStep, h1.phase])) fun u hu => ?_
  have h2 : Latched s .select u := hu.latched h1 (by rw [State.nextPhase, h1.phase]) (by decide) (by decide)
  refine RunsTo.bind (m := 1) (n := 1) (.step (by rw [State.seqStep, h2.phase])) fun v hv => ?_
  by_cases hd : u.curProfile.ppre = 0
  · have h3 : Latched s .xfer v :=
      hv.latched h2 (by simp only [State.nextPhase, h2.phase, hd, if_true]) (by decide) (by decide)
    exact .inPhase (fun e => by rw [State.seqStep, e]) (fun e => by rw [h3.phase] at e; cases e) fun _ => h3
  · have h3 : Latched s .preDelay v :=
      hv.latched h2 (by simp only [State.nextPhase, h2.phase, hd, if_false]) (by decide) (by decide)
    exact .inPhase (fun e => by rw [State.seqStep, e])
      (fun e w hw => hw.latched h3 (by rw [State.nextPhase, e]) (by decide) (by decide)) fun e => absurd h3.phase e

/-- The payload is done: `POSTDELAY` or `DESELECT` is next (R134). -/
def PayloadDone (t : State) : Prop := t.phase = .deselect ∨ t.phase = .postDelay

/-- From `XFER` the sequencer goes to the inter-byte sleep, while bytes are left, or on from the payload (R131). -/
theorem SeqNext.of_xfer {s t : State} (h : SeqNext s t) (hp : s.phase = .xfer) :
    (Latched s .ibDelay t ∧ s.idx.toNat + 1 < s.curlen.toNat) ∨ PayloadDone t := by
  by_cases hb : s.curProfile.pibd ≠ 0 ∧ s.idx.toNat + 1 < s.curlen.toNat
  · exact .inl ⟨h.latched ⟨hp, rfl, rfl⟩ (by simp only [State.nextPhase, hp, if_pos hb]) (by decide) (by decide), hb.2⟩
  · have ht : t.phase = s.afterPayload := by rw [h.phase]; simp only [State.nextPhase, hp, if_neg hb]
    exact .inr (by rw [PayloadDone, ht]; exact s.afterPayload_cases)

theorem PayloadDone.not_sending {t : State} (h : PayloadDone t) : t.phase ≠ .xfer ∧ t.phase ≠ .ibDelay := by
  rcases h with e | e <;> simp [e]

/-- Step 5 with `n` bytes left: an exchange for each at most, and a sleep between each two (R130, R131). -/
theorem payload_runsTo (n : Nat) : ∀ s : State, 1 ≤ n → s.phase = .xfer → s.idx.toNat + n = s.curlen.toNat →
    RunsTo (2 * n - 1) s (s.payload n) PayloadDone := by
  induction n with
  | zero => intro s h; omega
  | succ n ih =>
    intro s _ hp hlen
    unfold State.payload
    rw [State.inPhase_pos _ hp]
    refine (RunsTo.bind (n := 2 * n) (.step (by rw [State.seqStep, hp])) fun t ht => ?_).mono (by omega) fun _ h => h
    rcases ht.of_xfer hp with ⟨hib, hlt⟩ | hdone
    · rw [State.inPhase_pos _ hib.phase]
      refine (RunsTo.bind (n := 2 * n - 1) (.step (by rw [State.seqStep, hib.phase])) fun u hu => ?_).mono (by omega)
        fun _ h => h
      have hup : u.phase = .xfer := hu.phase.trans (by rw [State.nextPhase, hib.phase])
      have hne : u.phase ≠ .idle := by rw [hup]; decide
      have hcl : u.curlen = s.curlen := (hu.curlen hne).trans hib.curlen
      have hix : u.idx = s.idx + 1 := by rw [hu.idx hne, if_pos hib.phase, hib.idx]
      refine ih u (by omega) hup ?_
      rw [hcl, hix]
      have := s.curlen.isLt
      bv_omega
    · rw [State.inPhase_neg _ hdone.not_sending.2, bind_ok,
        State.payload_left n t hdone.not_sending.1 hdone.not_sending.2]
      exact .stay hdone

/-- Step 7: the deselection, and each of the two sleeps if it is not 0 (R133). -/
theorem closeTx_runsTo {s : State} (h : PayloadDone s) : RunsTo 3 s s.closeTx fun t => t.phase = .idle := by
  refine RunsTo.bind (m := 1) (n := 2) (P := fun t => t.phase = .deselect) (.inPhase (fun e => by rw [State.seqStep, e])
    (fun e t ht => ht.phase.trans (by rw [State.nextPhase, e])) h.resolve_right) fun t ht => ?_
  refine RunsTo.bind (m := 1) (n := 1) (.step (by rw [State.seqStep, ht])) fun u hu => ?_
  refine .inPhase (fun e => by rw [State.seqStep, e]) (fun e v hv => hv.phase.trans (by rw [State.nextPhase, e]))
    fun e => ?_
  have hup := hu.phase
  simp only [State.nextPhase, ht] at hup
  split at hup
  · exact hup
  · exact absurd hup e

end Sys2Proof.Machine

namespace Sys2Proof.Proofs

open Sys2Proof.Machine

/-- Settles O18: `nextPhase` is the relation, and a stop with a state is one of the two exits of `SeqAnswer`. -/
theorem sequencerTransitions : Obligations.SequencerTransitions := by
  refine ⟨fun s t h => ?_, fun s t e h => ?_, fun s t e h => ?_⟩
  · have next := seqStep_next h
    have phase := next.phase
    unfold State.nextPhase at phase
    cases hp : s.phase <;> rw [hp] at phase
    case idle => exact next.idle hp
    case ibDelay => exact ⟨phase, by rw [next.idx (by rw [phase]; nofun), if_pos hp]⟩
    all_goals exact phase
  · have answer := seqStep_answer s
    rw [h] at answer
    cases answer with
    | modeSetFailed hp ht => exact ⟨hp, ht⟩
  · have answer := seqStep_answer s
    rw [h] at answer
    cases answer with
    | aborting hp ht => exact ⟨hp, ht⟩

/-- Settles O19: at most 4 transitions open the transaction, `2 * len - 1` send the payload and 3 close it. -/
theorem transactIsSequencerRun : Obligations.TransactIsSequencerRun := by
  intro s prof len h1 h2
  have hcl : (s.beginTx prof len).curlen.toNat = len := Nat.mod_eq_of_lt h2
  have run : RunsTo (4 + (2 * len - 1 + 3)) (s.beginTx prof len) (s.transact prof len) fun t => t.phase = .idle :=
    (openTx_runsTo rfl).bind fun t ht =>
      (payload_runsTo len t h1 ht.phase (by rw [ht.curlen, ht.idx, hcl]; exact Nat.zero_add len)).bind fun u hu =>
        closeTx_runsTo hu
  exact run.mono (by omega) fun _ h => h

end Sys2Proof.Proofs
end

section
/-! The codec operations (42_codec.md R150 to R158): what each does once its launch checks pass, and what the checks decide. -/

namespace Sys2Proof.Machine

/-! ### Launch checks -/

theorem State.launchWith_configError {s : State} {l : List (Bool × CfgCause)} {c : CfgCause}
    (run : Host.Outcome State Fault Refusal) (h : firstFailure l = some c) :
    s.launchWith l run = .next (s.configError c.code.toNat) := by
  rw [s.launchWith_fail run h, s.raiseConfig_eq]

/-- Where a check fails, what would have run plays no part. -/
theorem State.launchWith_congr_of_fails (s : State) {l : List (Bool × CfgCause)} (h : ¬ ∀ p ∈ l, p.1 = true)
    (run run' : Host.Outcome State Fault Refusal) : s.launchWith l run = s.launchWith l run' := by
  obtain ⟨c, hc⟩ := Option.ne_none_iff_exists'.mp (mt (firstFailure_eq_none l).mp h)
  rw [s.launchWith_fail run hc, s.launchWith_fail run' hc]

/-- Two launches under the same checks end with the same `STATUS` if their runs do: a failed check reports its code alone. -/
theorem State.launchWith_next_status {s s' t a b : State} {l : List (Bool × CfgCause)}
    (h : s.launchWith l (.next a) = .next t) (hab : b.status = a.status) :
    ∃ u, s'.launchWith l (.next b) = .next u ∧ u.status = t.status := by
  rcases s.launchWith_cases l (.next a) with ⟨c, hc, hx⟩ | ⟨hp, hx⟩ <;> rw [hx] at h <;> cases h
  · exact ⟨_, s'.launchWith_fail _ hc, rfl⟩
  · exact ⟨b, s'.launchWith_pass _ hp, hab⟩

theorem legalWidth_eq_false {w : Nat} (h : w = 0 ∨ 32 < w) : legalWidth w = false :=
  decide_eq_false (by omega)

theorem State.codecChecks_badWidth (s : State) {w : Nat} (off : Nat) (h : w = 0 ∨ 32 < w) :
    firstFailure (s.codecChecks w off) = some .badWidth := by
  simp [State.codecChecks, firstFailure_cons, legalWidth_eq_false h]

theorem State.codecChecks_badLen {s : State} {w off : Nat} (h1 : 1 ≤ w) (h2 : w ≤ 32)
    (h3 : s.cfg.bufsz < off + byteLength w) : firstFailure (s.codecChecks w off) = some .badLen := by
  simp [State.codecChecks, firstFailure_cons, legalWidth, State.inBuffer, h1, h2, h3]

theorem sextChecks_badWidth {w : Nat} (h : w = 0 ∨ 32 < w) : firstFailure (sextChecks w) = some .badWidth := by
  simp [sextChecks, firstFailure_cons, legalWidth_eq_false h]

theorem State.codecChecks_pass_iff {s : State} {w off : Nat} :
    (∀ p ∈ s.codecChecks w off, p.1 = true) ↔ 1 ≤ w ∧ w ≤ 32 ∧ off + byteLength w ≤ s.cfg.bufsz := by
  simp [State.codecChecks, legalWidth, State.inBuffer, and_assoc]

/-- PACK, UNPACK and UNPACKS share their launch checks (R152, R154, R156). -/
theorem exec_codec_launch (s : State) {w off : Nat} {i : Instr} (hi : i ∈ [Instr.pack w off, .unpack w off, .unpacks w off]) :
    ∃ run, exec i s = s.launchWith (s.codecChecks w off) run := by
  simp only [List.mem_cons, List.not_mem_nil, or_false] at hi
  rcases hi with rfl | rfl | rfl <;> exact ⟨_, rfl⟩

/-! ### Values -/

theorem le_eight_mul_byteLength_pred {w : Nat} (h : 1 ≤ w) : 8 * (byteLength w - 1) < w := by unfold byteLength; omega

theorem packBytes_congr (v : Word) {w w' : Nat} (h : byteLength w' = byteLength w) : packBytes v w' = packBytes v w := by
  rw [packBytes, packBytes, h]

theorem ofNat_byte_mod (n : Nat) : (BitVec.ofNat 8 (n % 256) : Byte) = BitVec.ofNat 8 n :=
  BitVec.eq_of_toNat_eq (Nat.mod_mod n 256)

/-- The unpacked value has no bit at or above `w`. -/
theorem unpackBytes_and_maskBits (bs : List Byte) (w : Nat) : unpackBytes bs w &&& maskBits w = unpackBytes bs w := by
  rw [unpackBytes, BitVec.and_assoc, BitVec.and_self]

theorem zextWord_unpackBytes (bs : List Byte) (w : Nat) : zextWord w (unpackBytes bs w) = unpackBytes bs w :=
  unpackBytes_and_maskBits bs w

/-- R156: after the mask, sign extension is SEXT's OR. -/
theorem sextWord_unpackBytes_eq_orSignBits (bs : List Byte) (w : Nat) :
    sextWord w (unpackBytes bs w) = orSignBits w (unpackBytes bs w) := by
  rw [sextWord, orSignBits, unpackBytes_and_maskBits]

theorem unpackBytes_eq_ofNat (bs : List Byte) {w : Nat} (h : w ≤ 32) :
    unpackBytes bs w = BitVec.ofNat 32 (bigEndian bs % 2 ^ w) := by
  rw [← toNat_unpackBytes bs h, BitVec.ofNat_toNat, BitVec.setWidth_eq]

theorem sextWord_unpackBytes_eq_ite (bs : List Byte) {w : Nat} (h1 : 1 ≤ w) (h2 : w ≤ 32) :
    sextWord w (unpackBytes bs w) =
      if bigEndian bs % 2 ^ w < 2 ^ (w - 1) then BitVec.ofNat 32 (bigEndian bs % 2 ^ w)
      else BitVec.ofInt 32 ((bigEndian bs % 2 ^ w : Nat) - 2 ^ w : Int) := by
  rw [sextWord_eq _ h1 h2, toNat_unpackBytes bs h2, Nat.mod_mod]
  simp only [← Nat.not_lt, ite_not]

/-- `sext_w` is the balanced remainder modulo 2^w. -/
theorem sextWord_eq_bmod (v : Word) {w : Nat} (h1 : 1 ≤ w) (h2 : w ≤ 32) :
    sextWord w v = BitVec.ofInt 32 (Int.bmod v.toNat (2 ^ w)) := by
  have half : (((2 ^ w : Nat) : Int) + 1) / 2 = ((2 ^ (w - 1) : Nat) : Int) := by
    obtain ⟨k, rfl⟩ := Nat.exists_eq_add_of_le' h1
    rw [Nat.add_sub_cancel, Nat.pow_succ]
    omega
  rw [sextWord_eq v h1 h2, Int.bmod, ← Int.natCast_emod, half]
  by_cases h : 2 ^ (w - 1) ≤ v.toNat % 2 ^ w
  · rw [if_pos h, if_neg (by omega)]
    push_cast
    rfl
  · rw [if_neg h, if_pos (by omega), BitVec.ofInt_natCast]

/-- Packing and unpacking restores a value of at most `w` bits (R158). -/
theorem unpack_pack_of_lt {v : Word} {w : Nat} (h : w ≤ 32) (hv : v.toNat < 2 ^ w) : unpackBytes (packBytes v w) w = v :=
  BitVec.eq_of_toNat_eq (by rw [toNat_unpack_pack v h, Nat.mod_eq_of_lt hv])

/-- Packing and unpacking with sign restores a signed value of at most `w` bits (R158): `v` and its signed reading agree
modulo 2^w. -/
theorem sext_unpack_pack_of_fits {v : Word} {w : Nat} (h1 : 1 ≤ w) (h2 : w ≤ 32) (hlo : -(2 ^ (w - 1) : Int) ≤ v.toInt)
    (hhi : v.toInt < 2 ^ (w - 1)) : sextWord w (unpackBytes (packBytes v w) w) = v := by
  have same : Int.bmod v.toNat (2 ^ w) = Int.bmod v.toInt (2 ^ w) := by
    rw [BitVec.toInt_eq_toNat_bmod, Int.bmod_bmod_of_dvd (Nat.pow_dvd_pow 2 h2)]
  have fits : Int.bmod v.toInt (2 ^ w) = v.toInt := by
    obtain ⟨k, rfl⟩ := Nat.exists_eq_add_of_le' h1
    rw [Nat.add_sub_cancel] at hlo hhi
    apply Int.bmod_eq_of_le <;> push_cast <;> rw [pow_succ] <;> omega
  rw [sextWord_eq_bmod _ h1 h2, toNat_unpack_pack v h2, Int.natCast_emod, Int.emod_bmod, same, fits, BitVec.ofInt_toInt]

/-! ### The four operations past their checks -/

/-- The buffer after a packed value was written. -/
theorem State.bufGet_memWrite_packBytes (s : State) (v : Word) (w off a : Nat) :
    (s.memWrite off (packBytes v w)).bufGet a =
      if off ≤ a ∧ a < off + byteLength w then
        BitVec.ofNat 8 (v.toNat / 2 ^ (8 * (byteLength w - (a - off) - 1)) % 256)
      else s.bufGet a := by
  rw [State.bufGet_memWrite]
  by_cases ha : off ≤ a
  · by_cases hb : a < off + byteLength w
    · rw [if_pos ha, if_pos ⟨ha, hb⟩, getElem?_packBytes v (by omega), Option.getD_some, ofNat_byte_mod]
    · rw [if_pos ha, if_neg (hb ·.2), List.getElem?_eq_none (by rw [length_packBytes]; omega), Option.getD_none]
  · rw [if_neg ha, if_neg (ha ·.1)]

theorem exec_sext_pass (s : State) {w : Nat} (h1 : 1 ≤ w) (h2 : w ≤ 32) :
    exec (.sext w) s = .next { s with val := orSignBits w s.val, status := 0, errinfo := 0 } :=
  s.launchWith_pass _ (sextChecks_pass h1 h2)

section

variable {s : State} {w off : Nat} (h1 : 1 ≤ w) (h2 : w ≤ 32) (h3 : off + byteLength w ≤ s.cfg.bufsz)

include h1 h2 h3

theorem exec_pack_pass : exec (.pack w off) s = .next ((s.memWrite off (packBytes s.val w)).done false) :=
  State.launchWith_pass _ (State.codecChecks_pass h1 h2 h3)

theorem exec_unpack_pass : exec (.unpack w off) s =
    .next { s with val := unpackBytes (s.memRead off (byteLength w)) w, status := 0, errinfo := 0 } := by
  rw [← zextWord_unpackBytes]
  exact State.launchWith_pass _ (State.codecChecks_pass h1 h2 h3)

theorem exec_unpacks_pass : exec (.unpacks w off) s =
    .next { s with val := sextWord w (unpackBytes (s.memRead off (byteLength w)) w), status := 0, errinfo := 0 } :=
  State.launchWith_pass _ (State.codecChecks_pass h1 h2 h3)

end

end Sys2Proof.Machine

namespace Sys2Proof.Proofs

open Sys2Proof.Machine

/-- Settles O22: each byte is `getElem?_packBytes`, and their big-endian number is `bigEndian_packBytes`. -/
theorem packEmitsBytesMostSignificantFirst : Obligations.PackEmitsBytesMostSignificantFirst := by
  intro v w h1 _
  refine ⟨length_packBytes v w, le_eight_mul_byteLength_pred h1, le_byteLength w, fun i hi => ?_, bigEndian_packBytes v w,
    fun w' h => packBytes_congr v h⟩
  rw [getElem?_packBytes v hi, ofNat_byte_mod]

/-- Settles O23: past the checks PACK is one buffer write. -/
theorem packWritesPackedBytes : Obligations.PackWritesPackedBytes := fun s w off h1 h2 h3 =>
  ⟨_, _, exec_pack_pass h1 h2 h3, rfl, s.bufGet_memWrite_packBytes s.val w off⟩

/-- Settles O24: `Unpack` is the big-endian number modulo 2^w. -/
theorem unpackLoadsMaskedValue : Obligations.UnpackLoadsMaskedValue := by
  intro s w off h1 h2 h3
  rw [exec_unpack_pass h1 h2 h3, unpackBytes_eq_ofNat _ h2, State.memRead]

/-- Settles O25: the sign test is on the masked number. -/
theorem unpacksLoadsSignedValue : Obligations.UnpacksLoadsSignedValue := by
  intro s w off h1 h2 h3
  refine ⟨_, rfl, ?_⟩
  rw [exec_unpacks_pass h1 h2 h3, sextWord_unpackBytes_eq_ite _ h1 h2, State.memRead]

/-- Settles O26, bit by bit. -/
theorem sextOrsSignBits : Obligations.SextOrsSignBits := fun s w h1 h2 =>
  ⟨_, exec_sext_pass s h1 h2, getLsbD_orSignBits w s.val⟩

/-- Settles O27: the first check that fails gives the code. -/
theorem codecLaunchChecks : Obligations.CodecLaunchChecks := by
  intro s w off
  refine ⟨fun i hi => ?_, fun h => State.launchWith_configError (c := .badWidth) _ (sextChecks_badWidth h)⟩
  obtain ⟨run, hrun⟩ := exec_codec_launch s hi
  rw [hrun]
  exact ⟨fun h => State.launchWith_configError (c := .badWidth) run (s.codecChecks_badWidth off h),
    fun h1 h2 h3 => State.launchWith_configError (c := .badLen) run (State.codecChecks_badLen h1 h2 h3)⟩

/-- Settles O28: both losses are remainders, and neither the checks nor the `STATUS` of a run read `VAL`. -/
theorem silentTruncation : Obligations.SilentTruncation := by
  refine ⟨fun v w _ h2 => ⟨bigEndian_packBytes v w, toNat_unpack_pack v h2⟩, fun bs w _ h2 => ?_,
    fun s t v w off i hi ht => ?_⟩
  · rw [toNat_unpackBytes bs h2]
    exact Nat.mod_lt _ (Nat.two_pow_pos w)
  · simp only [List.mem_cons, List.not_mem_nil, or_false] at hi
    rcases hi with rfl | rfl | rfl | rfl <;> exact State.launchWith_next_status ht rfl

/-- Settles O29: UNPACK and UNPACKS read the bytes PACK wrote. -/
theorem codecRoundTrip : Obligations.CodecRoundTrip := by
  intro s w off h1 h2 h3
  have bytes : ((s.memWrite off (packBytes s.val w)).done false).memRead off (byteLength w) = packBytes s.val w := by
    rw [← length_packBytes s.val w]
    exact s.memRead_memWrite_same off (packBytes s.val w)
  refine ⟨_, _, _, exec_pack_pass h1 h2 h3, exec_unpack_pass h1 h2 h3, exec_unpacks_pass h1 h2 h3, fun hv => ?_,
    fun hlo hhi => ?_⟩
  · rw [bytes]
    exact unpack_pack_of_lt h2 hv
  · rw [bytes]
    exact sext_unpack_pack_of_fits h1 h2 hlo hhi

/-- Settles O30: on the masked value the two sign extensions agree, and the launch checks are the same. -/
theorem unpacksIsUnpackThenSext : Obligations.UnpacksIsUnpackThenSext := by
  refine fun s w off => ⟨fun h1 h2 h3 => ⟨_, exec_unpack_pass h1 h2 h3, ?_⟩, fun h => ?_⟩
  · rw [exec_unpacks_pass h1 h2 h3, exec_sext_pass _ h1 h2, sextWord_unpackBytes_eq_orSignBits]
  · exact s.launchWith_congr_of_fails (mt State.codecChecks_pass_iff.mp h) _ _

end Sys2Proof.Proofs
end

section
/-! The unit converter (43_convert.md R170 to R178): what UENC and UDEC do once their launch checks pass, what the checks
decide, and the rounding rules of R171 as functions of the exact product. -/

namespace Sys2Proof.Machine

/-! ### Launch checks -/

/-- UENC and UDEC share their launch checks (R172, R175). -/
theorem exec_conv_launch (s : State) {conv : Nat} {i : Instr} (hi : i ∈ [Instr.uenc conv, .udec conv]) :
    ∃ run, exec i s = s.launchWith (s.convChecks conv) run := by
  simp only [List.mem_cons, List.not_mem_nil, or_false] at hi
  rcases hi with rfl | rfl <;> exact ⟨_, rfl⟩

section

variable {s : State} {conv : Nat}

theorem State.convChecks_badIndex (h : s.cfg.nconv ≤ conv) : firstFailure (s.convChecks conv) = some .badIndex := by
  simp [State.convChecks, firstFailure_cons, Nat.not_lt.mpr h]

theorem State.convChecks_notValid (h1 : conv < s.cfg.nconv) (h2 : (s.convAt conv).valid = false) :
    firstFailure (s.convChecks conv) = some .notValid := by
  simp [State.convChecks, firstFailure_cons, h1, h2]

theorem State.convChecks_badWidth (h1 : conv < s.cfg.nconv) (h2 : (s.convAt conv).valid = true)
    (h3 : (s.convAt conv).width.toNat = 0 ∨ 32 < (s.convAt conv).width.toNat) :
    firstFailure (s.convChecks conv) = some .badWidth := by
  simp [State.convChecks, firstFailure_cons, h1, h2, legalWidth_eq_false h3]

theorem State.convChecks_badConv (h1 : conv < s.cfg.nconv) (h2 : (s.convAt conv).valid = true)
    (h3 : legalWidth (s.convAt conv).width.toNat = true)
    (h4 : (s.convAt conv).csn = 0 ∨ (s.convAt conv).csd = 0 ∨ (s.convAt conv).rnd = 3) :
    firstFailure (s.convChecks conv) = some .badConv := by
  have h4' : ¬ ((s.convAt conv).csn ≠ 0 ∧ (s.convAt conv).csd ≠ 0 ∧ (s.convAt conv).rnd ≠ 3) := by tauto
  simp only [State.convChecks, firstFailure_cons, h1, h2, h3, decide_true, if_true, decide_eq_false h4', Bool.false_eq_true,
    if_false]

/-! ### The two operations past their checks -/

theorem statusDone_decide (p : Prop) [Decidable p] : statusDone (decide p) = if p then 0x010 else 0 := by
  simp only [statusDone, decide_eq_true_eq]

theorem statusSat_statusDone (sat : Bool) : statusSat (statusDone sat) = sat := by cases sat <;> decide

theorem exec_uenc_pass (h : Convertible s conv) : exec (.uenc conv) s = .next { s with
    val := BitVec.ofNat 32 (max 0 (min (roundedQuantity s conv) (2 ^ (s.convAt conv).width.toNat - 1))).toNat,
    status := if roundedQuantity s conv > 2 ^ (s.convAt conv).width.toNat - 1 then 0x010 else 0,
    errinfo := 0 } := by
  rw [← clampEnc_eq, ← encodedValue_eq s conv h.csd, ← maxEnc_eq, ← statusDone_decide]
  exact s.launchWith_pass _ h.checks

theorem exec_udec_pass (h : Convertible s conv) : exec (.udec conv) s = .next { s with
    phy := BitVec.ofNat 64 (min (dividedQuantity s conv) (2 ^ 63 - 1)).toNat,
    status := if dividedQuantity s conv > 2 ^ 63 - 1 then 0x010 else 0,
    errinfo := 0 } := by
  have limit : (2 ^ 63 - 1 : ℤ) = (maxPhy : ℤ) := rfl
  rw [← decodedQuantity_eq s conv h.high h.csn, limit, ← Nat.cast_min, Int.toNat_natCast, ← statusDone_decide]
  simp only [gt_iff_lt, Nat.cast_lt]
  exact s.launchWith_pass _ h.checks

end

/-! ### The rounding rules -/

theorem truncate_nonpos {y : ℚ} (h : y < 1) : truncate y ≤ 0 := by
  unfold truncate
  split
  · exact Int.lt_add_one_iff.mp (Int.floor_lt.mpr (by simpa using h))
  · exact Int.ceil_le.mpr (by push_cast; linarith)

theorem truncate_mono : Monotone truncate := by
  intro x y hxy
  rcases lt_or_ge x 0 with hx | hx
  · rcases lt_or_ge y 0 with hy | hy
    · rw [truncate, truncate, if_neg hx.not_ge, if_neg hy.not_ge]
      exact Int.ceil_mono hxy
    · calc truncate x ≤ 0 := truncate_nonpos (hx.trans one_pos)
        _ ≤ ⌊y⌋ := Int.floor_nonneg.mpr hy
        _ = truncate y := (if_pos hy).symm
  · rw [truncate, truncate, if_pos hx, if_pos (hx.trans hxy)]
    exact Int.floor_mono hxy

theorem truncate_natCast (n : ℕ) : truncate n = n := by
  rw [truncate, if_pos n.cast_nonneg, Int.floor_natCast]

theorem truncate_natCast_sub_half {n : ℕ} (h : 1 ≤ n) : truncate ((n : ℚ) - 1 / 2) = n - 1 := by
  have hn : (1 : ℚ) ≤ n := by exact_mod_cast h
  rw [truncate, if_pos (by linarith), Int.floor_eq_iff]
  push_cast
  constructor <;> linarith

/-- The rules of R171 as functions of the exact product. -/
def roundBy (rnd : BitVec 2) (y : ℚ) : ℤ :=
  if rnd = 0 then truncate y else if rnd = 1 then ⌈y⌉ else truncate (y - 1 / 2)

theorem roundedQuantity_eq_roundBy (s : State) (conv : Nat) :
    roundedQuantity s conv = roundBy (s.convAt conv).rnd (scaledQuantity s conv) := rfl

theorem roundBy_ceil (y : ℚ) : roundBy 1 y = ⌈y⌉ := rfl

theorem roundBy_subHalf (y : ℚ) : roundBy 2 y = truncate (y - 1 / 2) := rfl

theorem roundBy_mono (rnd : BitVec 2) : Monotone (roundBy rnd) := by
  intro x y hxy
  unfold roundBy
  split
  · exact truncate_mono hxy
  · split
    · exact Int.ceil_mono hxy
    · exact truncate_mono (by linarith)

theorem roundBy_nonpos (rnd : BitVec 2) {y : ℚ} (h : y ≤ 0) : roundBy rnd y ≤ 0 := by
  unfold roundBy
  split
  · exact truncate_nonpos (by linarith)
  · split
    · exact Int.ceil_le.mpr (by simpa using h)
    · exact truncate_nonpos (by linarith)

/-- On a positive integer TRUNC and CEIL are exact, and SUBHALF gives the integer below. -/
theorem roundBy_natCast {rnd : BitVec 2} (hr : rnd ≠ 3) {n : ℕ} (h : 1 ≤ n) :
    roundBy rnd n = if rnd = 2 then (n : ℤ) - 1 else n := by
  have codes : rnd = 0 ∨ rnd = 1 ∨ rnd = 2 := by revert rnd; decide
  rcases codes with rfl | rfl | rfl
  · exact truncate_natCast n
  · exact Int.ceil_natCast n
  · exact truncate_natCast_sub_half h

/-! ### The exact product and the clamp -/

section

variable {s : State} {conv : Nat}

theorem scaledQuantity_nonpos (h : s.phy.toInt ≤ 0) : scaledQuantity s conv ≤ 0 := by
  have hphy : (s.phy.toInt : ℚ) ≤ 0 := by exact_mod_cast h
  unfold scaledQuantity
  exact div_nonpos_of_nonpos_of_nonneg
    (mul_nonpos_of_nonpos_of_nonneg (div_nonpos_of_nonpos_of_nonneg hphy (by norm_num)) (Nat.cast_nonneg _))
    (Nat.cast_nonneg _)

theorem scaledQuantity_mono {p : BitVec 64} (h : s.phy.toInt ≤ p.toInt) :
    scaledQuantity s conv ≤ scaledQuantity { s with phy := p } conv := by
  have hphy : (s.phy.toInt : ℚ) ≤ p.toInt := by exact_mod_cast h
  change _ ≤ (p.toInt : ℚ) / 2 ^ 32 * (s.convAt conv).csn.toNat / (s.convAt conv).csd.toNat
  unfold scaledQuantity
  gcongr

theorem Convertible.setPhy (h : Convertible s conv) (p : BitVec 64) : Convertible { s with phy := p } conv :=
  ⟨h.index, h.valid, h.low, h.high, h.csn, h.csd, h.rnd⟩

theorem toNat_ofNat_clamp {w : Nat} (hw : w ≤ 32) (r : ℤ) :
    ((BitVec.ofNat 32 (max 0 (min r (2 ^ w - 1))).toNat).toNat : ℤ) = max 0 (min r (2 ^ w - 1)) := by
  have hle : (2 : ℤ) ^ w ≤ 2 ^ 32 := pow_le_pow_right₀ (by norm_num) hw
  have hpos : (0 : ℤ) < 2 ^ w := by positivity
  rw [BitVec.toNat_ofNat, Nat.mod_eq_of_lt (by omega), Int.toNat_of_nonneg (le_max_left _ _)]

/-- What UENC leaves: the clamp of the rounded product in `VAL`, the upper clamp in `SAT` (R172, R173). -/
theorem exec_uenc_result {t : State} (h : Convertible s conv) (ht : exec (.uenc conv) s = .next t) :
    (t.val.toNat : ℤ) = max 0 (min (roundedQuantity s conv) (2 ^ (s.convAt conv).width.toNat - 1)) ∧
      statusSat t.status = decide (2 ^ (s.convAt conv).width.toNat - 1 < roundedQuantity s conv) := by
  rw [exec_uenc_pass h] at ht
  cases ht
  refine ⟨toNat_ofNat_clamp h.high _, ?_⟩
  rw [← statusSat_statusDone (decide _), statusDone_decide]

end

end Sys2Proof.Machine

namespace Sys2Proof.Proofs

open Sys2Proof.Machine

/-- Settles O31: past the checks, the integer forms of the model are the rational ones. -/
theorem uencEncodesAndSaturates : Obligations.UencEncodesAndSaturates := fun _ _ => exec_uenc_pass

/-- Settles O32: as O31, the quotient being a natural number. -/
theorem udecDividesAndFloors : Obligations.UdecDividesAndFloors := fun _ _ => exec_udec_pass

/-- Settles O33: the first check that fails gives the code. -/
theorem converterLaunchChecks : Obligations.ConverterLaunchChecks := by
  intro s conv i hi
  obtain ⟨run, hrun⟩ := exec_conv_launch s hi
  have width_zero : (s.convAt conv).width.toNat = 0 ↔ (s.convAt conv).width = 0 := by
    rw [← BitVec.toNat_inj]
    rfl
  rw [hrun]
  refine ⟨fun h => State.launchWith_configError (c := .badIndex) run (State.convChecks_badIndex h),
    fun h1 h2 => State.launchWith_configError (c := .notValid) run (State.convChecks_notValid h1 h2),
    fun h1 h2 h3 => State.launchWith_configError (c := .badWidth) run
      (State.convChecks_badWidth h1 h2 (h3.imp_left width_zero.mpr)),
    fun h1 h2 h3 h4 h5 => State.launchWith_configError (c := .badConv) run (State.convChecks_badConv h1 h2 ?_ h5)⟩
  exact decide_eq_true ⟨Nat.one_le_iff_ne_zero.mpr (mt width_zero.mp h3), h4⟩

/-- Settles O34: each case bounds the rounded product r by a lemma on `roundBy`, and the clamp does the rest. -/
theorem uencCornerCases : Obligations.UencCornerCases := by
  intro s t conv h ht
  obtain ⟨hval, hsat⟩ := exec_uenc_result h ht
  rw [roundedQuantity_eq_roundBy] at hval hsat
  have hwidth : (2 : ℤ) ^ 1 ≤ 2 ^ (s.convAt conv).width.toNat := pow_le_pow_right₀ (by norm_num) h.low
  have val_zero (hr : roundBy (s.convAt conv).rnd (scaledQuantity s conv) ≤ 0) : t.val = 0 :=
    BitVec.eq_of_toNat_eq (show t.val.toNat = 0 by omega)
  have nonpos (hp : s.phy.toInt ≤ 0) : roundBy (s.convAt conv).rnd (scaledQuantity s conv) ≤ 0 :=
    roundBy_nonpos _ (scaledQuantity_nonpos hp)
  refine ⟨fun hp => val_zero (nonpos (by rw [hp]; decide)), fun hp => ⟨val_zero (nonpos hp.le), ?negative⟩,
    fun hr hy => val_zero ?subHalf, fun hr hy => ?ceil, fun n h1 hn hy => ?integer, fun hy => ?limit,
    fun p u hp hu => ?monotone, fun hw hs => ?fullWidth⟩
  case negative =>
    have := nonpos hp.le
    rw [hsat]
    exact decide_eq_false (by omega)
  case subHalf =>
    rw [hr, roundBy_subHalf]
    exact truncate_nonpos (by linarith)
  case ceil =>
    have := Int.ceil_pos.mpr hy
    rw [hr, roundBy_ceil] at hval
    omega
  case integer =>
    have hr := roundBy_natCast h.rnd h1
    have hn' : (n : ℤ) < 2 ^ (s.convAt conv).width.toNat := by exact_mod_cast hn
    rw [← hy] at hr
    split at hr
    next e => rw [if_pos e]; omega
    next e => rw [if_neg e]; omega
  case limit =>
    have hpow : 1 ≤ 2 ^ (s.convAt conv).width.toNat := Nat.one_le_two_pow
    have hr := roundBy_natCast h.rnd hpow
    push_cast at hr
    rw [← hy] at hr
    rw [hsat, decide_eq_decide]
    zify [hpow]
    split at hr
    next e => exact ⟨by omega, iff_of_false (by omega) (not_not.mpr e)⟩
    next e => exact ⟨by omega, iff_of_true (by omega) e⟩
  case monotone =>
    obtain ⟨hval', -⟩ := exec_uenc_result (h.setPhy p) hu
    have hle : roundedQuantity s conv ≤ roundedQuantity { s with phy := p } conv :=
      roundBy_mono _ (scaledQuantity_mono hp)
    zify
    rw [hval, hval']
    exact max_le_max_left 0 (min_le_min_right _ hle)
  case fullWidth =>
    rw [hsat, decide_eq_true_eq] at hs
    rw [show (s.convAt conv).width.toNat = 32 by rw [hw]; rfl] at hval hs
    exact BitVec.eq_of_toNat_eq (show t.val.toNat = 0xFFFFFFFF by omega)

end Sys2Proof.Proofs
end

section
/-! Register and command framing (44_framing.md R190 to R197): what the launch checks of SETP, GETP, CMD and ENCRD decide,
the value GETP returns, and CMD as PACK and EXEC over one buffer. -/

namespace Sys2Proof.Machine

/-! ### Launch checks -/

/-- Checks that follow a failing one play no part. -/
theorem firstFailure_append_of_some {l : List (Bool × CfgCause)} {c : CfgCause} (h : firstFailure l = some c)
    (m : List (Bool × CfgCause)) : firstFailure (l ++ m) = some c := by
  induction l with
  | nil => cases h
  | cons p l ih =>
    obtain ⟨ok, d⟩ := p
    cases ok
    · exact h
    · exact ih h

theorem settable_eq_false_iff : ∀ acc, settable acc = false ↔ acc = 0 ∨ acc = 1 := by decide

theorem gettable_eq_false_iff : ∀ acc, gettable acc = false ↔ acc = 0 ∨ acc = 2 := by decide

/-- SETP and GETP share their launch checks but for the access mode each forbids (R191, R192, R194). -/
theorem exec_register_launch (s : State) {prof reg : Nat} {i : Instr} {forbidden : BitVec 2}
    (hi : i = .setp prof reg ∧ forbidden = 1 ∨ i = .getp prof reg ∧ forbidden = 2) :
    ∃ allowed run, exec i s = s.launchWith (s.registerChecks allowed prof reg) run ∧
      ∀ acc, allowed acc = false ↔ acc = 0 ∨ acc = forbidden := by
  rcases hi with ⟨rfl, rfl⟩ | ⟨rfl, rfl⟩
  · exact ⟨settable, _, rfl, settable_eq_false_iff⟩
  · exact ⟨gettable, _, rfl, gettable_eq_false_iff⟩

/-- CMD's launch checks begin with ENCRD's, those of the profile (R196, R212). -/
theorem exec_profile_launch (s : State) {prof aw : Nat} {cmdByte : Byte} {dir r12 : Bool} {i : Instr}
    (hi : i ∈ [Instr.cmd prof cmdByte dir aw, .encrd prof r12]) :
    ∃ more run, exec i s = s.launchWith (s.encChecks prof ++ more) run := by
  simp only [List.mem_cons, List.not_mem_nil, or_false] at hi
  rcases hi with rfl | rfl
  · exact ⟨[(decide (aw ≤ 32), .badWidth), (s.inBuffer 1 (argBytes aw), .badLen)], _, rfl⟩
  · exact ⟨[], _, rfl⟩

section

variable {s : State} {prof : Nat}

theorem State.encChecks_badIndex (h : s.cfg.nprof ≤ prof) : firstFailure (s.encChecks prof) = some .badIndex := by
  simp [State.encChecks, firstFailure_cons, Nat.not_lt.mpr h]

theorem State.encChecks_notValid (h1 : prof < s.cfg.nprof) (h2 : (s.profAt prof).valid = false) :
    firstFailure (s.encChecks prof) = some .notValid := by
  simp [State.encChecks, firstFailure_cons, h1, h2]

theorem State.encChecks_badLine (h1 : prof < s.cfg.nprof) (h2 : (s.profAt prof).valid = true)
    (h3 : s.cfg.nsel ≤ s.lineOf prof) : firstFailure (s.encChecks prof) = some .badIndex := by
  simp [State.encChecks, firstFailure_cons, h1, h2, Nat.not_lt.mpr h3]

theorem State.cmdChecks_badWidth {aw : Nat} (h1 : prof < s.cfg.nprof) (h2 : (s.profAt prof).valid = true)
    (h3 : s.lineOf prof < s.cfg.nsel) (h4 : 32 < aw) : firstFailure (s.cmdChecks prof aw) = some .badWidth := by
  simp [State.cmdChecks, firstFailure_cons, h1, h2, h3, Nat.not_le.mpr h4]

end

/-! ### Completion -/

/-- `SET_TAG` is 0, so SETP's command byte is the address (R190). -/
theorem State.setFrame_eq (s : State) (reg : Nat) :
    s.setFrame reg = (s.regAt reg).addr :: packBytes s.val (s.regAt reg).width.toNat := by
  rw [State.setFrame, show Config.setTag = 0#8 from rfl, BitVec.zero_or]

/-- A launched operation that returns nothing in `VAL` completes, if the environment answers, with `VAL` as it was. -/
theorem exec_answered_keeps_val {s : State} {i : Instr} {prof : Nat} {tx : List Byte} {fa : XferAnswer} {rx : List Byte}
    {rest : List (Option Reply)} (hw : writesVal i = false) (hL : Launches s i) (htx : txOf s i = some (prof, tx))
    (hA : Answered s (s.profAt prof) fa rx rest) (hlen : rx.length = tx.length) :
    ∃ t, exec i s = .next t ∧ TxDone s t prof tx fa rx rest ∧ t.status = 0 ∧ t.errinfo = 0 ∧ t.val = s.val := by
  obtain ⟨t, u, hx, ha, hd, hv⟩ := exec_answered hL htx hA hlen
  rcases ha with ⟨-, rfl⟩ | ⟨p, r, rfl, -⟩ | ⟨p, r12, rfl, -⟩
  · exact ⟨_, hx, hd.withResult u.val u.draws 0 0, rfl, rfl, hv⟩
  · cases hw
  · cases hw

/-- The value GETP returns, as a number (R194): masked, then read as two's complement for a signed register. -/
theorem State.response_eq (s : State) (e : RegSpec) (h1 : 1 ≤ e.width.toNat) (h2 : e.width.toNat ≤ 32) {u : Nat}
    (hu : u = bigEndian (s.memRead 1 (byteLength e.width.toNat)) % 2 ^ e.width.toNat) :
    s.response e =
      if e.sgn = true ∧ 2 ^ (e.width.toNat - 1) ≤ u then BitVec.ofInt 32 ((u : Int) - 2 ^ e.width.toNat)
      else BitVec.ofNat 32 u := by
  rw [State.response, zextWord_unpackBytes, sextWord_unpackBytes_eq_ite _ h1 h2, unpackBytes_eq_ofNat _ h2, ← hu]
  by_cases hneg : u < 2 ^ (e.width.toNat - 1)
  · simp only [hneg, if_true, ite_self, Nat.not_le.mpr hneg, and_false, if_false]
  · simp only [hneg, if_false, Nat.not_lt.mp hneg, and_true]

/-- The bytes after the first of those a transaction received. -/
theorem TxDone.memRead_one {s t : State} {prof n : Nat} {tx : List Byte} {fa : XferAnswer} {b : Byte} {rx : List Byte}
    {rest : List (Option Reply)} (h : TxDone s t prof tx fa (b :: rx) rest) (hn : tx.length = n + 1) :
    t.memRead 1 n = rx := by
  have bytes := h.bytes
  rw [hn, State.memRead_succ] at bytes
  exact (List.cons.inj bytes).2

/-! ### CMD as EXEC of its frame -/

theorem State.cmdFrame_of_pos (s : State) (cmdByte : Byte) (dir : Bool) {aw : Nat} (h : 1 ≤ aw) :
    s.cmdFrame cmdByte dir aw = (if dir then cmdByte ||| s.cfg.dirFlag else cmdByte) :: packBytes s.val aw := by
  rw [State.cmdFrame, if_neg (Nat.one_le_iff_ne_zero.mp h)]

theorem argBytes_of_pos {aw : Nat} (h : 1 ≤ aw) : argBytes aw = byteLength aw :=
  if_neg (Nat.one_le_iff_ne_zero.mp h)

theorem State.memWrite_cons (s : State) (a : Nat) (b : Byte) (bs : List Byte) :
    s.memWrite a (b :: bs) = (s.memWrite a [b]).memWrite (a + 1) bs := rfl

/-- CMD is EXEC over the buffer with CMD's frame in it (R197): past the checks both run the same transaction. -/
theorem exec_cmd_eq_exec_frame {s : State} {prof aw : Nat} (cmdByte : Byte) (dir ib : Bool) (hl : s.cfg.legal = true)
    (h1 : prof < s.cfg.nprof) (h2 : (s.profAt prof).valid = true) (h3 : s.lineOf prof < s.cfg.nsel) (haw : aw ≤ 32) :
    exec (.cmd prof cmdByte dir aw) s =
      exec (.exec prof ib (1 + argBytes aw)) (s.memWrite 0 (s.cmdFrame cmdByte dir aw)) := by
  obtain ⟨-, -, -, -, -, -, -, -, hbuf, -⟩ := (Params.legal_iff _).mp hl
  have fits : 1 + argBytes aw ≤ s.cfg.bufsz := by have := argBytes_le haw; omega
  have cmd_pass : ∀ p ∈ s.cmdChecks prof aw, p.1 = true := by
    simp [State.cmdChecks, State.inBuffer, h1, h2, h3, haw, fits]
  have exec_pass : ∀ p ∈ s.execChecks prof (1 + argBytes aw), p.1 = true := by
    simp [State.execChecks, h1, h2, h3, fits]
  calc exec (.cmd prof cmdByte dir aw) s
      = (s.memWrite 0 (s.cmdFrame cmdByte dir aw)).runTx prof (1 + argBytes aw) fun t => t.done false :=
        s.launchWith_pass _ cmd_pass
    _ = exec (.exec prof ib (1 + argBytes aw)) (s.memWrite 0 (s.cmdFrame cmdByte dir aw)) :=
        (State.launchWith_pass _ exec_pass).symm

end Sys2Proof.Machine

namespace Sys2Proof.Proofs

open Sys2Proof.Machine

/-- Settles O35: SETP's frame is `State.setFrame_eq`, and what follows its transaction is `done`. -/
theorem setpSendsPackedValue : Obligations.SetpSendsPackedValue := by
  intro s prof reg fa rx rest hL hA hlen
  rw [← State.setFrame_eq]
  exact exec_answered_keeps_val rfl hL rfl hA (hlen.trans (s.length_setFrame reg).symm)

/-- Settles O37: as O35, with CMD's frame. -/
theorem cmdSendsCommandAndArgument : Obligations.CmdSendsCommandAndArgument := by
  intro s prof cmdByte dir aw fa rx rest hL hA hlen
  exact exec_answered_keeps_val rfl hL rfl hA (hlen.trans (s.length_cmdFrame cmdByte dir aw).symm)

/-- Settles O36: the transaction leaves the register table and, after the first byte, the response that GETP reads. -/
theorem getpReturnsResponse : Obligations.GetpReturnsResponse := by
  intro s prof reg fa b rx rest hL hA hlen
  have frame_length : (s.getFrame reg).length = rx.length + 1 := by rw [State.length_getFrame, hlen, Nat.add_comm]
  obtain ⟨t, u, hx, ha, hd, -⟩ := exec_answered hL rfl hA frame_length.symm
  obtain ⟨-, -, -, -, h1, h2⟩ := hL
  rcases ha with ⟨h, -⟩ | ⟨p, r, hi, rfl⟩ | ⟨p, r12, hi, -⟩
  · cases h
  · cases hi
    have hreg : u.regAt reg = s.regAt reg := congrArg (·.getD reg RegSpec.absent) hd.frame.regspecs
    have hresp := hd.memRead_one frame_length
    rw [hreg] at hx
    refine ⟨_, hx, ?_, rfl, rfl, _, rfl, u.response_eq _ h1 h2 (by rw [← hlen, hresp])⟩
    rw [hlen]
    exact hd.withResult _ u.draws 0 0
  · cases hi

/-- Settles O40: the frame is the byte and then the packed argument, and EXEC does not read the `STATUS` that PACK leaves. -/
theorem commandIsPackThenExec : Obligations.CommandIsPackThenExec := by
  intro s prof cmdByte dir ib aw hl h1 h2 h3 b hb
  subst hb
  refine ⟨exec_cmd_eq_exec_frame cmdByte dir ib hl h1 h2 h3 (Nat.zero_le 32), fun hw1 hw2 => ?_⟩
  have fits := byteLength_le hw2
  obtain ⟨-, -, -, -, -, -, -, -, hbuf, -⟩ := (Params.legal_iff _).mp hl
  refine ⟨_, exec_pack_pass hw1 hw2 (show 1 + byteLength aw ≤ s.cfg.bufsz by omega), ?_⟩
  rw [exec_cmd_eq_exec_frame cmdByte dir ib hl h1 h2 h3 hw2, argBytes_of_pos hw1, s.cmdFrame_of_pos cmdByte dir hw1,
    State.memWrite_cons]
  exact (exec_withStatus 0 0 _ _).symm

/-- Settles O38: the first check that fails gives the code. -/
theorem registerLaunchChecks : Obligations.RegisterLaunchChecks := by
  intro s prof reg i forbidden hi
  obtain ⟨allowed, run, hrun, hacc⟩ := exec_register_launch s hi
  rw [hrun]
  have width_zero : (s.regAt reg).width = 0 → (s.regAt reg).width.toNat = 0 := fun h => by rw [h]; rfl
  refine ⟨fun h1 => State.launchWith_configError (c := .badIndex) run ?_,
    fun h1 h2 => State.launchWith_configError (c := .badIndex) run ?_,
    fun h1 h2 h3 => State.launchWith_configError (c := .notValid) run ?_,
    fun h1 h2 h3 h4 => State.launchWith_configError (c := .notValid) run ?_,
    fun h1 h2 h3 h4 h5 => State.launchWith_configError (c := .badIndex) run ?_,
    fun h1 h2 h3 h4 h5 h6 => State.launchWith_configError (c := .badAccess) run ?_,
    fun h1 h2 h3 h4 h5 h6 h7 h8 => State.launchWith_configError (c := .badWidth) run ?_⟩
  · simp [State.registerChecks, firstFailure_cons, Nat.not_lt.mpr h1]
  · simp [State.registerChecks, firstFailure_cons, h1, Nat.not_lt.mpr h2]
  · simp [State.registerChecks, firstFailure_cons, h1, h2, h3]
  · simp [State.registerChecks, firstFailure_cons, h1, h2, h3, h4]
  · simp [State.registerChecks, firstFailure_cons, h1, h2, h3, h4, Nat.not_lt.mpr h5]
  · simp [State.registerChecks, firstFailure_cons, h1, h2, h3, h4, h5, (hacc _).mpr h6]
  · have may : allowed (s.regAt reg).acc = true := by
      rw [← Bool.not_eq_false, hacc]
      exact not_or.mpr ⟨h6, h7⟩
    simp [State.registerChecks, firstFailure_cons, h1, h2, h3, h4, h5, may, legalWidth_eq_false (h8.imp_left width_zero)]

/-- Settles O39: both begin with the checks of the profile, and the first check that fails gives the code. -/
theorem cmdAndEncrdLaunchChecks : Obligations.CmdAndEncrdLaunchChecks := by
  intro s prof cmdByte dir aw r12
  refine ⟨fun i hi => ?_, fun h1 h2 h3 h4 =>
    State.launchWith_configError (c := .badWidth) _ (State.cmdChecks_badWidth h1 h2 h3 h4)⟩
  obtain ⟨more, run, hrun⟩ := exec_profile_launch s hi
  have reports {c : CfgCause} (h : firstFailure (s.encChecks prof) = some c) :
      exec i s = .next (s.configError c.code.toNat) := by
    rw [hrun]
    exact State.launchWith_configError run (firstFailure_append_of_some h more)
  exact ⟨fun h1 => reports (State.encChecks_badIndex h1), fun h1 h2 => reports (State.encChecks_notValid h1 h2),
    fun h1 h2 h3 => reports (State.encChecks_badLine h1 h2 h3)⟩

end Sys2Proof.Proofs
end

section
/-! The encoder's check (45_encoder.md R211 to R217): what ENCRD and ENCCHK leave on a pass and on a failure, and the two
comparisons of a frame as sums modulo 2 over its 16 bits, so that a flipped bit is one more summand. -/

namespace Sys2Proof.Machine

/-! ### The outcome of a check -/

section

variable {s : State}

/-- The check of a passing frame (R211, R213, R214). -/
theorem State.encCheck_of_passes (r12 : Bool) (h : framePasses s.cfg.kbitOrder (s.bufGet 0) (s.bufGet 1) = true) :
    s.encCheck r12 = { s with
      val := BitVec.ofNat 32 (((s.bufGet 0).toNat % 64 * 256 + (s.bufGet 1).toNat) / (if r12 then 4 else 1)),
      status := 0, errinfo := 0 } := by
  rw [State.encCheck, parityPass_eq_framePasses, if_pos h, position_eq]
  rfl

/-- The check of a failing frame: a free `VAL`, and the two bytes in `ERRINFO` (R211, R214, R235). -/
theorem State.encCheck_of_fails (r12 : Bool) (h : framePasses s.cfg.kbitOrder (s.bufGet 0) (s.bufGet 1) = false) :
    s.encCheck r12 = { s with
      val := s.any 32, draws := s.draws + 1, status := 0x007,
      errinfo := BitVec.ofNat 32 ((s.bufGet 0).toNat * 256 + (s.bufGet 1).toNat) } := by
  rw [State.encCheck, parityPass_eq_framePasses, if_neg (ne_true_of_eq_false h), State.raise, checksum_info_eq,
    OpError.status_checksum]

theorem exec_encchk (r12 : Bool) (s : State) : exec (.encchk r12) s = .next (s.encCheck r12) := rfl

/-- ENCCHK leaves `STATUS` 0 only where the frame passes. -/
theorem framePasses_of_exec_encchk {u : State} {r12 : Bool} (hx : exec (.encchk r12) s = .next u) (hu : u.status = 0) :
    framePasses s.cfg.kbitOrder (s.bufGet 0) (s.bufGet 1) = true := by
  by_contra h
  rw [exec_encchk, State.encCheck_of_fails r12 (eq_false_of_ne_true h)] at hx
  cases hx
  exact absurd (show (7 : Word) = 0 from hu) (by decide)

end

/-! ### The two comparisons of a frame -/

/-- The bits of a frame that enter one of the two comparisons of R211, highest first. -/
def comparedBits (o : KBitOrder) (odd : Bool) : List Nat := (List.range 16).reverse.filter fun k => entersOdd o k == odd

/-- The exclusive or of the bits of `f` numbered in `l`. -/
def xorOf (f : BitVec 16) (l : List Nat) : Bool := l.foldr (fun k acc => f.getLsbD k ^^ acc) false

theorem xorOf_nil (f : BitVec 16) : xorOf f [] = false := rfl

theorem xorOf_cons (f : BitVec 16) (k : Nat) (l : List Nat) : xorOf f (k :: l) = (f.getLsbD k ^^ xorOf f l) := rfl

theorem xorOf_xor (f g : BitVec 16) (l : List Nat) : xorOf (f ^^^ g) l = (xorOf f l ^^ xorOf g l) := by
  induction l with
  | nil => rfl
  | cons k l ih =>
    simp only [xorOf_cons, ih, BitVec.getLsbD_xor, Bool.xor_assoc, Bool.xor_left_comm]

/-- A single bit counts in the comparison it enters, and in that one only. -/
theorem xorOf_bit (o : KBitOrder) (odd : Bool) {k : Nat} (hk : k < 16) :
    xorOf (1#16 <<< k) (comparedBits o odd) = (entersOdd o k == odd) := by
  revert k
  cases o <;> cases odd <;> decide

/-- The odd positions of the frame and the parity bit k1 (R210, R211). -/
theorem xorOf_comparedBits_true (o : KBitOrder) (hi lo : Byte) :
    xorOf (hi ++ lo) (comparedBits o true) = (bitK1 o hi ^^ oddParity hi lo) := by
  have bits : comparedBits o true = (match o with | .k1High => 15 | .k0High => 14) :: [13, 11, 9, 7, 5, 3, 1] := by
    cases o <;> decide
  rw [bits, xorOf_cons]
  cases o <;>
    simp only [xorOf_cons, xorOf_nil, BitVec.getLsbD_append, bitK1, oddParity, Bool.xor_assoc, Bool.xor_false, Nat.reduceLT,
      Nat.reduceSub, if_true, if_false]

/-- The even positions of the frame and the parity bit k0 (R210, R211). -/
theorem xorOf_comparedBits_false (o : KBitOrder) (hi lo : Byte) :
    xorOf (hi ++ lo) (comparedBits o false) = (bitK0 o hi ^^ evenParity hi lo) := by
  have bits : comparedBits o false = (match o with | .k1High => 14 | .k0High => 15) :: [12, 10, 8, 6, 4, 2, 0] := by
    cases o <;> decide
  rw [bits, xorOf_cons]
  cases o <;>
    simp only [xorOf_cons, xorOf_nil, BitVec.getLsbD_append, bitK0, evenParity, Bool.xor_assoc, Bool.xor_false, Nat.reduceLT,
      Nat.reduceSub, if_true, if_false]

/-- The frame in the buffer passes if and only if the bits of each comparison, the parity bit included, sum to 1 modulo 2
(R211). -/
theorem State.framePasses_iff_xorOf (s : State) :
    framePasses s.cfg.kbitOrder (s.bufGet 0) (s.bufGet 1) = true ↔
      ∀ odd, xorOf s.encoderFrame (comparedBits s.cfg.kbitOrder odd) = true := by
  rw [State.encoderFrame, ← parityPass_eq_framePasses, Bool.forall_bool, xorOf_comparedBits_true,
    xorOf_comparedBits_false, parityPass, Bool.and_eq_true, and_comm, beq_iff_eq, beq_iff_eq, Bool.eq_not, Bool.eq_not,
    Bool.xor_iff_ne, Bool.xor_iff_ne]

/-- A flip inverts the comparison the bit enters and leaves the other (R217). -/
theorem xorOf_flip (o : KBitOrder) (odd : Bool) (f : BitVec 16) {k : Nat} (hk : k < 16) :
    xorOf (f ^^^ (1#16 <<< k)) (comparedBits o odd) = (xorOf f (comparedBits o odd) ^^ (entersOdd o k == odd)) := by
  rw [xorOf_xor, xorOf_bit o odd hk]

/-- The frame as a number (R235). -/
theorem State.setWidth_encoderFrame (s : State) :
    s.encoderFrame.setWidth 32 = BitVec.ofNat 32 ((s.bufGet 0).toNat * 256 + (s.bufGet 1).toNat) := by
  apply BitVec.eq_of_toNat_eq
  rw [State.encoderFrame, BitVec.toNat_setWidth, BitVec.toNat_append, BitVec.toNat_ofNat,
    ← Nat.shiftLeft_add_eq_or_of_lt (s.bufGet 1).isLt, Nat.shiftLeft_eq]

end Sys2Proof.Machine

namespace Sys2Proof.Proofs

open Sys2Proof.Machine

/-- Settles O42: the two outcomes of the check. -/
theorem encchkValidatesParity : Obligations.EncchkValidatesParity := by
  intro s r12
  rw [exec_encchk]
  exact ⟨fun passes => by rw [State.encCheck_of_passes r12 passes],
    fun fails => ⟨_, by rw [State.encCheck_of_fails r12 fails]⟩⟩

/-- Settles O41: the check reads the two bytes the transaction received. -/
theorem encrdReturnsPosition : Obligations.EncrdReturnsPosition := by
  intro s prof r12 fa hi lo rest hL hA
  obtain ⟨t, u, hx, ha, hd, -⟩ := exec_answered hL rfl hA rfl
  have first : u.bufGet 0 = hi := (List.cons.inj hd.bytes).1
  have second : u.bufGet 1 = lo := (List.cons.inj (hd.memRead_one rfl)).1
  rcases ha with ⟨h, -⟩ | ⟨p, r, h, -⟩ | ⟨p, r, h, rfl⟩
  · cases h
  · cases h
  · cases h
    refine ⟨_, hx, ?_, fun passes => ?_, fun fails => ?_⟩
    · obtain ⟨v, d, st, e, h, -⟩ := u.encCheck_spec r12
      exact h ▸ hd.withResult v d st e
    · rw [← hd.frame.cfg, ← first, ← second] at passes
      rw [State.encCheck_of_passes r12 passes, first, second]
      exact ⟨rfl, rfl, rfl⟩
    · rw [← hd.frame.cfg, ← first, ← second] at fails
      rw [State.encCheck_of_fails r12 fails, first, second]
      exact ⟨rfl, rfl⟩

/-- Settles O43: one flip leaves a comparison at 0, two in one comparison cancel. -/
theorem singleBitErrorsAreCaught : Obligations.SingleBitErrorsAreCaught := by
  intro s t u r12 hcfg hx hu
  have sums : ∀ odd, xorOf s.encoderFrame (comparedBits s.cfg.kbitOrder odd) = true :=
    s.framePasses_iff_xorOf.mp (framePasses_of_exec_encchk hx hu)
  rw [exec_encchk]
  refine ⟨fun k hk ht => ?_, fun j k hj hk _ hjk ht => ?_⟩
  · have flipped : xorOf t.encoderFrame (comparedBits t.cfg.kbitOrder (entersOdd t.cfg.kbitOrder k)) = false := by
      rw [ht, hcfg, xorOf_flip _ _ _ hk, sums, beq_self_eq_true, Bool.xor_self]
    have fails : framePasses t.cfg.kbitOrder (t.bufGet 0) (t.bufGet 1) = false :=
      eq_false_of_ne_true fun h => absurd (t.framePasses_iff_xorOf.mp h _) (ne_true_of_eq_false flipped)
    rw [State.encCheck_of_fails r12 fails]
    exact ⟨_, rfl, rfl, t.setWidth_encoderFrame.symm⟩
  · have passes : framePasses t.cfg.kbitOrder (t.bufGet 0) (t.bufGet 1) = true := by
      refine t.framePasses_iff_xorOf.mpr fun odd => ?_
      rw [ht, hcfg, xorOf_flip _ _ _ hk, xorOf_flip _ _ _ hj, hjk, Bool.xor_assoc, Bool.xor_self, Bool.xor_false]
      exact sums odd
    rw [State.encCheck_of_passes r12 passes]
    exact ⟨_, rfl, rfl⟩

/-- Settles O44: the check of five frames, the first two under either order of the parity bits. -/
theorem encoderExamples : Obligations.EncoderExamples := by
  intro s
  rw [exec_encchk]
  refine ⟨fun h0 h1 => ?_, fun h0 h1 => ?_, fun ho h0 h1 => ?_, fun ho h0 h1 => ?_, fun ho h0 h1 => ?_⟩
  · have passes : ∀ o, framePasses o 0xC0 0x00 = true := by rintro (_ | _) <;> decide
    rw [State.encCheck_of_passes false (by rw [h0, h1, passes]), h0, h1]
    rfl
  · have fails : ∀ o, framePasses o 0x00 0x00 = false := by rintro (_ | _) <;> decide
    rw [State.encCheck_of_fails false (by rw [h0, h1, fails]), h0, h1]
    exact ⟨_, rfl, rfl, rfl⟩
  · rw [State.encCheck_of_fails false (by rw [ho, h0, h1]; decide), h0, h1]
    exact ⟨_, rfl, rfl, rfl⟩
  · rw [State.encCheck_of_passes false (by rw [ho, h0, h1]; decide), h0, h1]
    rfl
  · rw [State.encCheck_of_passes false (by rw [ho, h0, h1]; decide), h0, h1]
    rfl

end Sys2Proof.Proofs
end

section
/-! How operations end (60_exceptions.md R231 to R238). -/

namespace Sys2Proof.Proofs

open Sys2Proof.Machine

/-- Settles O46: R238's table is one of the things every operation that goes on keeps. -/
theorem operationsEndAsTabulated : Obligations.OperationsEndAsTabulated :=
  fun _ _ _ legal ends => (exec_keeps legal ends).status

end Sys2Proof.Proofs
end

section
/-! What can stop an operation short of a next state (70_reset_and_hazards.md R262, R272): a closed bus or a silent
environment, and where the silence meets the mode set or the fixup. -/

namespace Sys2Proof.Machine

/-- Whether an operation of the family goes on, is refused or waits for ever. Launched, it goes on only past a mode set and
a fixup that are answered, and a silence there is where it waits. -/
theorem exec_tx_stops {s : State} {i : Instr} {prof : Nat} {tx : List Byte} (hl : s.cfg.legal = true)
    (htx : txOf s i = some (prof, tx)) :
    (∃ t, exec i s = .next t ∧ (Launches s i →
      (∀ l, s.busScript ≠ none :: l) ∧ ∀ m l, s.busScript ≠ some (.ok m) :: none :: l)) ∨
    (exec i s = .refused .busNotOpen ∧ s.busOpen = false) ∨
    ∃ p, exec i s = .fault (.unanswered p) ∧ Silent s ∧ (∀ l, s.busScript = none :: l → p = .modeSet) ∧
      ∀ m l, s.busScript = some (.ok m) :: none :: l → p = .fixup := by
  rcases exec_tx_cases hl htx with ⟨c, hx, -, hL⟩ | hclosed | ⟨p, hx, hs, -, hmode, hfix, -⟩ | ⟨bb, -, -, -, -, -, hx⟩
  · exact .inl ⟨_, hx, fun h => absurd h hL⟩
  · exact .inr (.inl hclosed)
  · exact .inr (.inr ⟨p, hx, hs, hmode, fun m => hfix (.ok m)⟩)
  left
  rcases hx with ⟨e, b, d, cp, cl, ix, hx, hok, -, hnone⟩ |
    ⟨fa, rx, wr, xs, e, c, bs, ts, d, cp, cl, ix, hx, -, -, -, -, -, hnone, hfix, -⟩ |
    ⟨fa, rx, bs, ts, d, cp, cl, ix, t, u, hx, -, -, -, -, -, hnone, hfix, -⟩
  · exact ⟨_, hx, fun _ => ⟨hnone, fun m l => hok m (none :: l)⟩⟩
  · exact ⟨_, hx, fun _ => ⟨hnone, fun m => hfix (.ok m)⟩⟩
  · exact ⟨_, hx, fun _ => ⟨hnone, fun m => hfix (.ok m)⟩⟩

/-- A launched operation waits for ever in `MODESET` or `FIXUP` if the request made there is never answered (R272). -/
theorem Launches.exec_unanswered {s : State} {i : Instr} (hL : Launches s i) :
    (∀ l, s.busScript = none :: l → exec i s = .fault (.unanswered .modeSet)) ∧
    ∀ m l, s.busScript = some (.ok m) :: none :: l → exec i s = .fault (.unanswered .fixup) := by
  obtain ⟨prof, tx, htx⟩ := hL.txOf
  rcases exec_tx_stops hL.legal htx with ⟨t, -, answered⟩ | ⟨-, closed⟩ | ⟨p, hx, -, hmode, hfix⟩
  · obtain ⟨hmode, hfix⟩ := answered hL
    exact ⟨fun l h => absurd h (hmode l), fun m l h => absurd h (hfix m l)⟩
  · rw [(hL.ready htx).busOpen] at closed
    cases closed
  · exact ⟨fun l h => hmode l h ▸ hx, fun m l h => hfix m l h ▸ hx⟩

end Sys2Proof.Machine

namespace Sys2Proof.Proofs

open Sys2Proof.Machine

/-- Settles O16: an operation that runs no transaction always ends, the others stop as `exec_tx_stops` says. -/
theorem onlyEnvironmentStopsAnOperation : Obligations.OnlyEnvironmentStopsAnOperation := by
  refine ⟨fun s i hl => ?_, fun s i rest hL => hL.exec_unanswered.1 rest, fun s i m rest hL => hL.exec_unanswered.2 m rest⟩
  cases htx : txOf s i with
  | none =>
    left
    rcases exec_local htx with ⟨c, hx, -⟩ | ⟨v, p, off, bs, d, st, e, hx, -⟩
    · exact ⟨_, hx⟩
    · exact ⟨_, hx⟩
  | some x =>
    rcases exec_tx_stops hl htx with ⟨t, hx, -⟩ | ⟨hx, closed⟩ | ⟨p, hx, silent, -⟩
    · exact .inl ⟨t, hx⟩
    · exact .inr (.inl ⟨rfl, closed, hx⟩)
    · exact .inr (.inr ⟨rfl, silent, p, hx⟩)

end Sys2Proof.Proofs
end

section
/-! The fixed words of 95_test_vectors.md section 2: each is the encoder's word of the operation shown, so it decodes to it. -/

namespace Sys2Proof.Laws

/-- A word the encoder writes for a well-formed operation decodes to that operation. -/
theorem decode_of_encode_eq {w : Word} {i : Instr} (hi : i.wf = true) (h : encode i = w) : decode w = .ok i :=
  h ▸ Proofs.decodeOfEncode i hi

end Sys2Proof.Laws

namespace Sys2Proof.Proofs

open Sys2Proof.Laws

/-- Settles O1: each word is the encoding of the operation shown, whose operands fit their fields. -/
theorem vectorWordsDecode : Obligations.VectorWordsDecode := by
  unfold Obligations.VectorWordsDecode
  and_intros <;> exact decode_of_encode_eq (by decide) (by decide)

end Sys2Proof.Proofs
end
